-- ==== Sys2Proof/Word.lean ====
section
/-! DEFINITION. The bit vectors the spec itself treats as bits: bus words, 256-bit registers, tags (R11, R12, R33, R34). -/

namespace Sys2Proof

/-- One word of the register window; every access moves exactly 32 bits (R77). -/
abbrev Word32 := BitVec 32

/-- The contents of a 256-bit register, `U256` of R13. -/
abbrev U256 := BitVec 256

/-- The contents of a tag register, `Tag` of R13. -/
abbrev Tag := BitVec 8

end Sys2Proof
end

