-- ==== Sys2Proof/Syntax.lean ====
section
/-! DEFINITION. The commands: one constructor for each row of spec/opcode_table.json (R101). A command has no operand
field and no immediate (R100, R116), so no constructor has an argument. -/

namespace Sys2Proof

/-- The eleven commands of R101. -/
inductive Instr where
  | init
  | pubkey
  | keygen
  | compress
  | decompress
  | pchk
  | smul
  | padd
  | pdbl
  | finv
  | fsqrt
deriving DecidableEq, Repr

/-- Why a command word is illegal (R104). Both reasons complete with `ILLEGAL`. -/
inductive IllegalWord where
  /-- A bit of `ZERO`, bits 31:8, is not 0. -/
  | zeroField
  /-- `OPCODE`, bits 7:0, is one of the 245 values the opcode table does not list. -/
  | opcode
deriving DecidableEq, Repr

end Sys2Proof
end

