-- ==== Sys2Proof/Decode.lean ====
section
/-! DEFINITION. Decoding a command word (R100, R103, R104) and, after it, encoding a command (R101). -/

namespace Sys2Proof

/-- `ZERO`, bits 31:8 of a command word (R100). -/
def zeroField (w : Word32) : BitVec 24 := w.extractLsb' 8 24

/-- `OPCODE`, bits 7:0 of a command word (R100). -/
def opcodeField (w : Word32) : BitVec 8 := w.extractLsb' 0 8

/-- The opcode column of the opcode table read backwards (R101, R103). -/
def decodeOpcode (op : BitVec 8) : Except IllegalWord Instr :=
  if op = 0x01 then .ok .init
  else if op = 0x02 then .ok .pubkey
  else if op = 0x03 then .ok .keygen
  else if op = 0x04 then .ok .compress
  else if op = 0x05 then .ok .decompress
  else if op = 0x06 then .ok .pchk
  else if op = 0x10 then .ok .smul
  else if op = 0x11 then .ok .padd
  else if op = 0x12 then .ok .pdbl
  else if op = 0x20 then .ok .finv
  else if op = 0x21 then .ok .fsqrt
  else .error .opcode

/-- `decode` of R103, total on 32-bit words; an error is `ILLEGAL` (R104), with the reason. -/
def decode (w : Word32) : Except IllegalWord Instr :=
  if zeroField w ≠ 0 then .error .zeroField else decodeOpcode (opcodeField w)

/-- The `OPCODE` column of R101. -/
def opcodeOf : Instr → BitVec 8
  | .init => 0x01
  | .pubkey => 0x02
  | .keygen => 0x03
  | .compress => 0x04
  | .decompress => 0x05
  | .pchk => 0x06
  | .smul => 0x10
  | .padd => 0x11
  | .pdbl => 0x12
  | .finv => 0x20
  | .fsqrt => 0x21

/-- The command word of a command: format `C` with `ZERO` clear (R100, R101). -/
def encode (i : Instr) : Word32 := (0 : BitVec 24) ++ opcodeOf i

/-- The command read from a row of the opcode table given as `nbits` bits of `w`, the bits above them 0. A command is
always one 32-bit word (R100), so a number that does not fit one is no command. -/
def decodeTableWord (nbits w : Nat) : Option Instr :=
  if w % 2 ^ nbits < 2 ^ 32 then
    match decode (BitVec.ofNat 32 (w % 2 ^ nbits)) with
    | .ok i => some i
    | .error _ => none
  else none

end Sys2Proof
end

