-- ==== Sys2Proof/Config.lean ====
section
/-! DEFINITION. What an implementation fixes: the shape of the `CURVE` record (R7, R8), the width parameters (R7), the
platform's window address (R7, R88), and the one free value of the spec, the entropy port's answer (R246, U12). -/

namespace Sys2Proof.Config

/-- The domain parameters (R7, R8, R18): modulus, Weierstrass coefficients, base point, group order, cofactor. The values
of this hardware are `Sys2Proof.Machine.sm2`. -/
structure Curve where
  p : Nat
  a : Nat
  b : Nat
  gx : Nat
  gy : Nat
  n : Nat
  h : Nat
deriving DecidableEq, Repr

/-- `LADDER_BITS`: iterations of the ladder and of the exponentiation, one per bit (R7, R166, R235). -/
def ladderBits : Nat := 256

/-- Size of the register window in bytes (R70). -/
def windowSize : Nat := 4096

/-- One answer of the entropy port: `EntropyDraw() : (ok, r)` (R246). -/
structure Draw where
  ok : Bool
  r : U256
deriving DecidableEq, Repr, Inhabited

/-- The entropy port's answer to the draw with this number where the environment's list of stated answers has run out:
a free value, under no law (R246, U12; log 4). It has no body, so nothing can be proved about it. -/
opaque entropyAnswer : Nat → Draw

/-- The number of the 4096-byte page the platform maps the window at: `BASE` is left open (R7, R88, U16; log 10). -/
opaque basePage : Nat

/-- `BASE`, a multiple of 4096 (R70). -/
def base : Nat := windowSize * basePage

end Sys2Proof.Config
end

