-- ==== Sys2Proof/Machine/State.lean ====
section
/-! DEFINITION. The architectural state of ECPE (R31), the inputs at its edge (R30, R42), the reasons a step can stop, and
the state after reset (R43, R341). -/

namespace Sys2Proof.Machine

/-- The error codes of R301; their numbers are `Err.code`. -/
inductive Err where
  /-- 1: a tag the command gives no meaning. -/
  | decode
  /-- 2: a private scalar outside `[1, n-1]`. -/
  | scalar
  /-- 3: not a point of the curve, or no root. -/
  | point
  /-- 4: the entropy source failed. -/
  | entropy
  /-- 5: the command word is in no row of the opcode table. -/
  | illegal
  /-- 6: a legal command other than INIT before INIT. -/
  | notReady
  /-- 7: a field operand not below `p`. -/
  | range
  /-- 8: zero has no inverse. -/
  | noInv
deriving DecidableEq, Repr

/-- A point register group `(TAG, X, Y)` (R13, R33). -/
structure Triple where
  tag : Tag
  x : U256
  y : U256
deriving DecidableEq, Repr

/-- `(0, 0, 0)`: what reset, INIT, PCHK and every error leave in `PR` (R43, R145, R200, R304). -/
def zeroTriple : Triple := { tag := 0, x := 0, y := 0 }

/-- The fields of `STATUS` (R36); bits 31:8 are hardwired 0 and have no storage (log 9). -/
structure Status where
  ready : Bool
  busy : Bool
  done : Bool
  err : Bool
  errcode : BitVec 4
deriving DecidableEq, Repr

/-- One transaction of the host, at a byte offset of the window, `width` bits wide (R72, R73, R76). The data of a write
is 32 bits: a write of another width is refused, whatever it carries (R76, log 10). -/
inductive Txn where
  | read (off width : Nat)
  | write (off width : Nat) (w : Word32)
deriving DecidableEq, Repr

/-- What a transaction returned (R72, R73): a read's word, a write's `ok = true`, or `ok = false`, which carries no
word (R72: "a model must not give it one"). -/
inductive Answer where
  | word (w : Word32)
  | wrote
  | refused
deriving DecidableEq, Repr

/-- One slot of the schedule (R30, R42, R80): a host transaction, a slot in which the engine may take its step, or the
reset event (log 2). -/
inductive Input where
  | host (t : Txn)
  | engine
  | reset
deriving DecidableEq, Repr

/-- What waits at the entropy port for one draw: an answer (R246), or a port that never answers (U13; R348 excludes it
by assumption, log 4). -/
inductive PortEvent where
  | answers (d : Config.Draw)
  | silent
deriving DecidableEq, Repr

/-- The outcome of a command, `Outcome` of R13: success, success that also writes `K`, or an error. -/
inductive CmdOutcome where
  | ok (t : Triple)
  | okK (t : Triple) (k : U256)
  | fail (e : Err)
deriving DecidableEq, Repr

/-- The complete architectural state (R31), and below it the model's own fields: the environment's inputs and the
answer of the latest transaction. The curve constants are configuration (R38, R42); the hidden working state is left out
as R41 allows (log 7). -/
structure State where
  /-- `CMD`: the last accepted command word (R35). -/
  cmd : Word32
  /-- `STATUS` (R36). -/
  status : Status
  /-- `K`, the scalar register (R32). -/
  k : U256
  /-- `PA`, operand point A (R33). -/
  pa : Triple
  /-- `PB`, operand point B (R33). -/
  pb : Triple
  /-- `PR`, the result point (R33). -/
  pr : Triple
  /-- The MODEL's own: the schedule not yet played (R42; log 2). -/
  inputs : List Input
  /-- The MODEL's own: the answer of the latest host transaction since reset (log 3). -/
  answer : Option Answer
  /-- The MODEL's own: the answers stated for the next draws (R113 `ENTROPY`, R246; log 4). -/
  entropy : List PortEvent
  /-- The MODEL's own: how many draws have been made, the index of the free answer (log 4). -/
  draws : Nat
deriving DecidableEq, Repr

/-- What stops the machine for good. The block itself "never halts, hangs, locks up" (R300); only its environment can. -/
inductive Fault where
  /-- Raised by KEYGEN when the entropy port never answers its draw (U13 `stuck`; R348 excludes it by assumption). Safe:
  the model stops where the hardware would hang. -/
  | entropySilent
deriving DecidableEq, Repr

/-- No meaning for the instruction. -/
inductive Refusal where
  /-- Raised by `exec` for a command whose meaning is not written; there is none. Safe. -/
  | notModelled (mnemonic : String)
deriving DecidableEq, Repr

/-- The state right after reset: every field of R31 at the value of R43 and R341; nothing scheduled, no transaction
answered, no draw made (logs 2, 3, 4). -/
def State.reset : State where
  cmd := 0
  status := { ready := false, busy := false, done := false, err := false, errcode := 0 }
  k := 0
  pa := zeroTriple
  pb := zeroTriple
  pr := zeroTriple
  inputs := []
  answer := none
  entropy := []
  draws := 0

end Sys2Proof.Machine
end

