-- ==== Sys2Proof/Machine/Flags.lean ====
section
/-! DEFINITION. `STATUS`: its word (R36), the error code numbers (R301), and what acceptance, completion and INIT do to its
fields (R140, R142, R304). The block has no arithmetic flags (R39). -/

namespace Sys2Proof.Machine

/-- The numbers of the error codes (R301). -/
def errCode : Err → BitVec 4
  | .decode => 1
  | .scalar => 2
  | .point => 3
  | .entropy => 4
  | .illegal => 5
  | .notReady => 6
  | .range => 7
  | .noInv => 8

/-- The word a read of `STATUS` returns: `READY` 0, `BUSY` 1, `DONE` 2, `ERR` 3, `ERRCODE` 7:4, bits 31:8 hardwired 0
(R36). -/
def statusWord (st : Status) : Word32 :=
  (0 : BitVec 24) ++ st.errcode ++ BitVec.ofBool st.err ++ BitVec.ofBool st.done ++ BitVec.ofBool st.busy ++
    BitVec.ofBool st.ready

/-- Acceptance (R140): `BUSY` set, the old report cleared. -/
def statusAccepted (st : Status) : Status :=
  { st with busy := true, done := false, err := false, errcode := 0 }

/-- Completion without error (R142): `DONE` set, `BUSY` cleared. -/
def statusDone (st : Status) : Status := { st with done := true, busy := false }

/-- Completion with error `e` (R142, R304): `ERR` and `ERRCODE` set, `BUSY` cleared. -/
def statusFailed (st : Status) (e : Err) : Status :=
  { st with err := true, errcode := errCode e, busy := false }

/-- A successful INIT (R142): `READY` set. -/
def statusReady (st : Status) : Status := { st with ready := true }

end Sys2Proof.Machine
end

