-- ==== Sys2Proof/Machine/Curve.lean ====
section
/-! DEFINITION. The values of `CURVE` (R9) and the constants derived from them that rules name (R10). -/

namespace Sys2Proof.Machine

open Sys2Proof.Config

/-- The SM2 recommended domain parameters as R9 lists them. UNVERIFIED: the spec has the digits from memory and says they
are not audited against the published standard (R9, G1; log 1). What R8 asks of a record is `Safety.CurveConstraints`. -/
def sm2 : Curve where
  p := 0xFFFFFFFEFFFFFFFFFFFFFFFFFFFFFFFFFFFFFFFF00000000FFFFFFFFFFFFFFFF
  a := 0xFFFFFFFEFFFFFFFFFFFFFFFFFFFFFFFFFFFFFFFF00000000FFFFFFFFFFFFFFFC
  b := 0x28E9FA9E9D9F5E344D5A9E4BCF6509A7F39789F515AB8F92DDBCBD414D940E93
  gx := 0x32C4AE2C1F1981195F9904466A39C9948FE30BBFF2660BE1715A4589334C74C7
  gy := 0xBC3736A2F4F6779C59BDCEE36B692153D0A9877CC62A474002DF32E52139F0A0
  n := 0xFFFFFFFEFFFFFFFFFFFFFFFFFFFFFFFF7203DF6B21C6052B53BBF40939D54123
  h := 1

/-- `p − 2`, the exponent of the inverter (R10). -/
def invExponent (c : Curve) : Nat := c.p - 2

/-- `(p + 1)/4`, the exponent of the square root (R10). -/
def sqrtExponent (c : Curve) : Nat := (c.p + 1) / 4

/-- `(p − 1)/2`, the exponent of Euler's criterion (R10). -/
def eulerExponent (c : Curve) : Nat := (c.p - 1) / 2

/-- `n − 1`, the modulus of the random scalar reduction (R10). -/
def randModulus (c : Curve) : Nat := c.n - 1

end Sys2Proof.Machine
end

