-- ==== Sys2Proof/Machine/Field.lean ====
section
/-! DEFINITION. The field of `p` (R160 to R170): a field element is an integer in `[0, p)` (R13, R160), here a `Nat`, the
primitives exact functions on such integers. -/

namespace Sys2Proof.Machine

open Sys2Proof.Config

/-- `fadd` (R161): the exact sum reduced modulo `p`. -/
def fadd (c : Curve) (x y : Nat) : Nat := (x + y) % c.p

/-- `fsub` (R162). -/
def fsub (c : Curve) (x y : Nat) : Nat := if y ≤ x then x - y else x + c.p - y

/-- `fneg` (R163). -/
def fneg (c : Curve) (x : Nat) : Nat := fsub c 0 x

/-- `fmul` (R164): the exact product reduced modulo `p`. -/
def fmul (c : Curve) (x y : Nat) : Nat := (x * y) % c.p

/-- `fsqr` (R165). -/
def fsqr (c : Curve) (x : Nat) : Nat := fmul c x x

/-- The loop of `fexp` (R166) with the iterations `i - 1` down to 0 still to run and `r` the accumulator. -/
def fexpLoop (c : Curve) (x e : Nat) : Nat → Nat → Nat
  | 0, r => r
  | i + 1, r =>
    let q := fsqr c r
    fexpLoop c x e i (if e.testBit i then fmul c q x else q)

/-- `fexp` (R166): left-to-right square-and-multiply over all 256 bits of the exponent. -/
def fexp (c : Curve) (x e : Nat) : Nat := fexpLoop c x e ladderBits 1

/-- `finv` (R167): Fermat's `x^(p−2)`; 0 for 0. -/
def finv (c : Curve) (x : Nat) : Nat := fexp c x (invExponent c)

/-- `fsqrt_cand` (R168): the candidate square root `g^((p+1)/4)`. -/
def fsqrtCand (c : Curve) (g : Nat) : Nat := fexp c g (sqrtExponent c)

/-- `qr_test` (R169): the candidate squares back to `g`. -/
def qrTest (c : Curve) (g r : Nat) : Bool := fsqr c r == g

/-- `is_qr` (R169): Euler's criterion. No command uses it; statements compare it with `qrTest`. -/
def isQr (c : Curve) (g : Nat) : Bool :=
  fexp c g (eulerExponent c) == 0 || fexp c g (eulerExponent c) == 1

/-- The parity `v[0]` of an integer: true for odd (R11). -/
def parity (v : Nat) : Bool := v.testBit 0

/-- `solve_root` (R170): the square root of `g` with the wanted parity, or `POINT`. -/
def solveRoot (c : Curve) (g : Nat) (par : Bool) : Except Err Nat :=
  let r := fsqrtCand c g
  if qrTest c g r = false then .error .point
  else if parity r = par then .ok r
  else if r = 0 then .error .point
  else .ok (fneg c r)

end Sys2Proof.Machine
end

