-- ==== Sys2Proof/Machine/Point.lean ====
section
/-! DEFINITION. Points and the group law (R190 to R198, R203) and the point codec's functions (R215, R217). -/

namespace Sys2Proof.Machine

open Sys2Proof.Config

/-- `Point` (R13, R190): the point at infinity or a pair of field elements. -/
inductive Point where
  | inf
  | aff (x y : Nat)
deriving DecidableEq, Repr

/-- The base point `Aff(Gx, Gy)` (R8, R9). -/
def basePoint (c : Curve) : Point := .aff c.gx c.gy

/-- `rhs` (R191): `x³ + a·x + b mod p`. -/
def rhs (c : Curve) (x : Nat) : Nat :=
  fadd c (fadd c (fmul c (fsqr c x) x) (fmul c c.a x)) c.b

/-- `on_curve` (R192). -/
def onCurve (c : Curve) (x y : Nat) : Bool := fsqr c y == rhs c x

/-- A `Point` value as the engine holds it (R190): `INF`, or canonical coordinates that satisfy the curve equation. -/
def isPoint (c : Curve) : Point → Bool
  | .inf => true
  | .aff x y => decide (x < c.p) && decide (y < c.p) && onCurve c x y

/-- `pneg` (R203). No command computes it. -/
def pneg (c : Curve) : Point → Point
  | .inf => .inf
  | .aff x y => .aff x (fneg c y)

/-- `pdbl` (R195). -/
def pdbl (c : Curve) : Point → Point
  | .inf => .inf
  | .aff x y =>
    if y = 0 then .inf
    else
      let lam := fmul c (fadd c (fmul c 3 (fsqr c x)) c.a) (finv c (fadd c y y))
      let x3 := fsub c (fsub c (fsqr c lam) x) x
      let y3 := fsub c (fmul c lam (fsub c x x3)) y
      .aff x3 y3

/-- `padd` (R196). -/
def padd (c : Curve) : Point → Point → Point
  | .inf, q => q
  | .aff x y, .inf => .aff x y
  | .aff x1 y1, .aff x2 y2 =>
    if x1 = x2 then
      if y1 = y2 then pdbl c (.aff x1 y1) else .inf
    else
      let lam := fmul c (fsub c y2 y1) (finv c (fsub c x2 x1))
      let x3 := fsub c (fsub c (fsqr c lam) x1) x2
      let y3 := fsub c (fmul c lam (fsub c x1 x3)) y1
      .aff x3 y3

/-- `k·P`: `P` added to itself `k` times (R199, R237). No command computes it so; statements compare the ladder with it. -/
def nTimes (c : Curve) : Nat → Point → Point
  | 0, _ => .inf
  | k + 1, q => padd c (nTimes c k q) q

/-- `cswap` (R198): the conditional swap of whole points. -/
def cswap (s : Bool) (q r : Point) : Point × Point := if s then (r, q) else (q, r)

/-- `recover_y` (R217): the point-recovery solver. -/
def recoverY (c : Curve) (x : Nat) (par : Bool) : Except Err Nat :=
  if c.p ≤ x then .error .point else solveRoot c (rhs c x) par

end Sys2Proof.Machine
end

