-- ==== Sys2Proof/Machine/Operands.lean ====
section
/-! DEFINITION. How commands read a point register group (R110): the arithmetic operand (R193), the codec operand (R215,
R218), the field operand (R173, R174); and how a point is written to `PR` (R194). -/

namespace Sys2Proof.Machine

open Sys2Proof.Config

/-- `load_point` (R193), operand form (a) of R110: infinity, a checked finite point, or the error. -/
def loadPoint (c : Curve) (t : Triple) : Except Err Point :=
  if t.tag = 0x00 then .ok .inf
  else if t.tag ≠ 0x04 then .error .decode
  else if c.p ≤ t.x.toNat ∨ c.p ≤ t.y.toNat then .error .point
  else if onCurve c t.x.toNat t.y.toNat = false then .error .point
  else .ok (.aff t.x.toNat t.y.toNat)

/-- `encode_point` (R194). -/
def encodePoint : Point → Triple
  | .inf => zeroTriple
  | .aff x y => { tag := 0x04, x := BitVec.ofNat 256 x, y := BitVec.ofNat 256 y }

/-- The parity bit of a compressed tag is its bit 0 (R106, R222). -/
def tagParity (t : Tag) : Bool := t.getLsbD 0

/-- A compressed tag, `0x02` or `0x03` (R106). -/
def isCompressedTag (t : Tag) : Bool := t == 0x02 || t == 0x03

/-- The field operand, form (c) of R110: `PA_X` as an integer below `p`, else `RANGE` (R173, R174). -/
def fieldOperand (c : Curve) (t : Triple) : Except Err Nat :=
  if c.p ≤ t.x.toNat then .error .range else .ok t.x.toNat

/-- `compress_fn` (R215). -/
def compressFn (t : Triple) : Triple :=
  if t.tag ≠ 0x04 then t
  else { tag := 0x02 + (t.y.extractLsb' 0 1).setWidth 8, x := t.x, y := 0 }

/-- A field result in `PR`: `(0x00, v, 0)` (R173, R174). -/
def fieldResult (v : Nat) : Triple := { tag := 0x00, x := BitVec.ofNat 256 v, y := 0 }

end Sys2Proof.Machine
end

