-- ==== Sys2Proof/Machine/Window.lean ====
section
/-! DEFINITION. The register map of the window (R71), the words of a 256-bit register (R12, R74), and what each register
reads as (R34, R35, R36, R38). -/

namespace Sys2Proof.Machine

open Sys2Proof.Config

/-- The registers of the window (R31, R71). -/
inductive Reg where
  | cmd
  | status
  | paTag
  | pbTag
  | prTag
  | k
  | paX
  | paY
  | pbX
  | pbY
  | prX
  | prY
  | cP
  | cA
  | cB
  | cGX
  | cGY
  | cN
  | cH
deriving DecidableEq, Repr

/-- The rows of R71 that are registers; every other offset is reserved. -/
def allRegs : List Reg :=
  [.cmd, .status, .paTag, .pbTag, .prTag, .k, .paX, .paY, .pbX, .pbY, .prX, .prY, .cP, .cA, .cB, .cGX, .cGY, .cN, .cH]

/-- The offset column of R71. -/
def regOffset : Reg → Nat
  | .cmd => 0x000
  | .status => 0x004
  | .paTag => 0x010
  | .pbTag => 0x014
  | .prTag => 0x018
  | .k => 0x020
  | .paX => 0x040
  | .paY => 0x060
  | .pbX => 0x080
  | .pbY => 0x0A0
  | .prX => 0x0C0
  | .prY => 0x0E0
  | .cP => 0x100
  | .cA => 0x120
  | .cB => 0x140
  | .cGX => 0x160
  | .cGY => 0x180
  | .cN => 0x1A0
  | .cH => 0x1C0

/-- The size column of R71, in words. -/
def regWords : Reg → Nat
  | .cmd => 1
  | .status => 1
  | .paTag => 1
  | .pbTag => 1
  | .prTag => 1
  | .k => 8
  | .paX => 8
  | .paY => 8
  | .pbX => 8
  | .pbY => 8
  | .prX => 8
  | .prY => 8
  | .cP => 8
  | .cA => 8
  | .cB => 8
  | .cGX => 8
  | .cGY => 8
  | .cN => 8
  | .cH => 8

/-- The last column of R71 for reads: `CMD`, `STATUS` and the constants are readable while `BUSY = 1`. -/
def regReadableBusy : Reg → Bool
  | .cmd => true
  | .status => true
  | .paTag => false
  | .pbTag => false
  | .prTag => false
  | .k => false
  | .paX => false
  | .paY => false
  | .pbX => false
  | .pbY => false
  | .prX => false
  | .prY => false
  | .cP => true
  | .cA => true
  | .cB => true
  | .cGX => true
  | .cGY => true
  | .cN => true
  | .cH => true

/-- The register and the word index at an offset of the window (R71); none at a reserved or unaligned offset (R76). -/
def locate (off : Nat) : Option (Reg × Nat) :=
  if off % 4 = 0 then
    (allRegs.find? fun r => decide (regOffset r ≤ off) && decide (off < regOffset r + 4 * regWords r)).map
      fun r => (r, (off - regOffset r) / 4)
  else none

/-- Word `i` of a 256-bit value, `w[i] = v[255−32i : 224−32i]`: word 0 is the most significant (R12). -/
def wordOf (v : U256) (i : Nat) : Word32 := v.extractLsb' (224 - 32 * i) 32

/-- A 256-bit value with word `i` replaced by `w` and the other 224 bits kept (R73). -/
def setWord (v : U256) (i : Nat) (w : Word32) : U256 :=
  (v &&& ~~~((BitVec.allOnes 32).setWidth 256 <<< (224 - 32 * i))) ||| (w.setWidth 256 <<< (224 - 32 * i))

/-- Word `i` of a constant register (R38). -/
def constWord (v i : Nat) : Word32 := wordOf (BitVec.ofNat 256 v) i

/-- The word an admitted read of word `i` of a register returns (R72). -/
def regWord (s : State) (i : Nat) : Reg → Word32
  | .cmd => s.cmd
  | .status => statusWord s.status
  | .paTag => s.pa.tag.setWidth 32
  | .pbTag => s.pb.tag.setWidth 32
  | .prTag => s.pr.tag.setWidth 32
  | .k => wordOf s.k i
  | .paX => wordOf s.pa.x i
  | .paY => wordOf s.pa.y i
  | .pbX => wordOf s.pb.x i
  | .pbY => wordOf s.pb.y i
  | .prX => wordOf s.pr.x i
  | .prY => wordOf s.pr.y i
  | .cP => constWord sm2.p i
  | .cA => constWord sm2.a i
  | .cB => constWord sm2.b i
  | .cGX => constWord sm2.gx i
  | .cGY => constWord sm2.gy i
  | .cN => constWord sm2.n i
  | .cH => constWord sm2.h i

end Sys2Proof.Machine
end

