-- ==== Sys2Proof/Machine/Ops.lean ====
section
/-! DEFINITION. The shared operations over the state: acceptance (R140), completion (R142) with the error completion that
is the block's trap entry (R304), the host's accesses (R72, R73), the entropy draw (R246), and reset (R340, R341). -/

namespace Sys2Proof.Machine

open Sys2Proof.Config

/-- Acceptance of command word `w` (R140). It is also the counterpart of a trap return: it clears the error left by the
command before (R305). -/
def accept (s : State) (w : Word32) : State :=
  { s with cmd := w, status := statusAccepted s.status }

/-- Error completion, the counterpart of trap entry (R304): `PR` zeroed, the code reported, everything else kept. -/
def takeError (s : State) (e : Err) : State :=
  { s with pr := zeroTriple, status := statusFailed s.status e }

/-- The completion step's writes for an outcome (R142), but for `READY`, which only INIT writes. -/
def complete (s : State) : CmdOutcome → State
  | .ok t => { s with pr := t, status := statusDone s.status }
  | .okK t k => { s with pr := t, k := k, status := statusDone s.status }
  | .fail e => takeError s e

/-- Completion of a legal command other than INIT: `NOTREADY` before its own outcome is looked at (R143, R144). -/
def completeReady (s : State) (o : CmdOutcome) : State :=
  if s.status.ready then complete s o else takeError s .notReady

/-- Completion of INIT (R142, R145). -/
def completeInit (s : State) : State :=
  { s with pr := zeroTriple, status := statusReady (statusDone s.status) }

/-- The command word the completion step decodes (R142). -/
def fetchWord (s : State) : Word32 := s.cmd

/-- `EntropyDraw()` (R246): the answer and the state after the draw; none where the port never answers (U13). The answers
the environment has stated come first, then the free answer of the draw's number (log 4). -/
def entropyDraw (s : State) : Option (Draw × State) :=
  match s.entropy with
  | [] => some (entropyAnswer s.draws, { s with draws := s.draws + 1 })
  | .answers d :: rest => some (d, { s with entropy := rest, draws := s.draws + 1 })
  | .silent :: _ => none

/-- `HostRead` (R72): the word, or none where the access is refused (R79). -/
def hostRead (s : State) (off width : Nat) : Option Word32 :=
  if width = 32 ∧ off < windowSize then
    match locate off with
    | none => none
    | some (r, i) => if s.status.busy && !regReadableBusy r then none else some (regWord s i r)
  else none

/-- A write of word `i` of a register by the host (R73): `CMD` accepts a command, a tag register keeps bits 7:0, a 256-bit
register has one word replaced; a read-only register refuses (R79). -/
def writeReg (s : State) (i : Nat) (w : Word32) : Reg → Option State
  | .cmd => some (accept s w)
  | .status => none
  | .paTag => some { s with pa := { s.pa with tag := w.setWidth 8 } }
  | .pbTag => some { s with pb := { s.pb with tag := w.setWidth 8 } }
  | .prTag => none
  | .k => some { s with k := setWord s.k i w }
  | .paX => some { s with pa := { s.pa with x := setWord s.pa.x i w } }
  | .paY => some { s with pa := { s.pa with y := setWord s.pa.y i w } }
  | .pbX => some { s with pb := { s.pb with x := setWord s.pb.x i w } }
  | .pbY => some { s with pb := { s.pb with y := setWord s.pb.y i w } }
  | .prX => none
  | .prY => none
  | .cP => none
  | .cA => none
  | .cB => none
  | .cGX => none
  | .cGY => none
  | .cN => none
  | .cH => none

/-- `HostWrite` (R73): the state after, or none where the access is refused (R79). -/
def hostWrite (s : State) (off width : Nat) (w : Word32) : Option State :=
  if width = 32 ∧ off < windowSize then
    match locate off with
    | none => none
    | some (r, i) => if s.status.busy then none else writeReg s i w r
  else none

/-- A host transaction and the answer it gets (R72, R73, R308). -/
def transact (s : State) : Txn → State
  | .read off width =>
    match hostRead s off width with
    | some w => { s with answer := some (.word w) }
    | none => { s with answer := some .refused }
  | .write off width w =>
    match hostWrite s off width w with
    | some t => { t with answer := some .wrote }
    | none => { s with answer := some .refused }

/-- The reset event (R340 to R342): every piece of the block's state to its reset value, a running command abandoned. What
belongs to the environment stays: the schedule, the port's answers, the draw count (log 8). -/
def resetEvent (s : State) : State :=
  { State.reset with inputs := s.inputs, entropy := s.entropy, draws := s.draws }

/-- The offset in the window of a byte address of the host's address space; an address outside `[BASE, BASE + 4096)` is
not addressed to the block (R70, R88). -/
def windowOffset (addr : Nat) : Option Nat :=
  if base ≤ addr ∧ addr < base + windowSize then some (addr - base) else none

/-- `MemRead(BASE + off, 4)` is `HostRead(off)` (R14). -/
def memRead (s : State) (addr width : Nat) : Option Word32 :=
  (windowOffset addr).bind fun off => hostRead s off width

/-- `MemWrite(BASE + off, 4, w)` is `HostWrite(off, w)` (R14). -/
def memWrite (s : State) (addr width : Nat) (w : Word32) : Option State :=
  (windowOffset addr).bind fun off => hostWrite s off width w

end Sys2Proof.Machine
end

