-- ==== Sys2Proof/Machine/CodecCommands.lean ====
section
/-! DEFINITION. The point codec's commands COMPRESS (R216) and DECOMPRESS (R218), with their permissive pass-through
branches (R223). -/

namespace Sys2Proof.Machine

open Sys2Proof.Config

/-- `exec_compress` (R216). -/
def compressOutcome (pa : Triple) : CmdOutcome := .ok (compressFn pa)

/-- `exec_decompress` (R218). -/
def decompressOutcome (c : Curve) (pa : Triple) : CmdOutcome :=
  if pa.tag = 0x04 then .ok pa
  else if isCompressedTag pa.tag = false then .fail .decode
  else
    match recoverY c pa.x.toNat (tagParity pa.tag) with
    | .error e => .fail e
    | .ok y => .ok { tag := 0x04, x := pa.x, y := BitVec.ofNat 256 y }

/-- COMPRESS (R216): checks nothing. -/
def execCompress (s : State) : Host.Outcome State Fault Refusal :=
  .next (completeReady s (compressOutcome s.pa))

/-- DECOMPRESS (R218): recovers the full point. -/
def execDecompress (s : State) : Host.Outcome State Fault Refusal :=
  .next (completeReady s (decompressOutcome sm2 s.pa))

end Sys2Proof.Machine
end

