-- ==== Sys2Proof/Machine/FieldCommands.lean ====
section
/-! DEFINITION. The field commands FINV (R173) and FSQRT (R174). -/

namespace Sys2Proof.Machine

open Sys2Proof.Config

/-- `exec_finv` (R173): range before zero. -/
def finvOutcome (c : Curve) (pa : Triple) : CmdOutcome :=
  match fieldOperand c pa with
  | .error e => .fail e
  | .ok x => if x = 0 then .fail .noInv else .ok (fieldResult (finv c x))

/-- `exec_fsqrt` (R174): tag, then range, then the root. -/
def fsqrtOutcome (c : Curve) (pa : Triple) : CmdOutcome :=
  if isCompressedTag pa.tag = false then .fail .decode
  else
    match fieldOperand c pa with
    | .error e => .fail e
    | .ok g =>
      match solveRoot c g (tagParity pa.tag) with
      | .error e => .fail e
      | .ok r => .ok (fieldResult r)

/-- FINV (R173): field inversion of `PA_X`. -/
def execFinv (s : State) : Host.Outcome State Fault Refusal :=
  .next (completeReady s (finvOutcome sm2 s.pa))

/-- FSQRT (R174): residue test and square root of `PA_X` with the parity of `PA_TAG`. -/
def execFsqrt (s : State) : Host.Outcome State Fault Refusal :=
  .next (completeReady s (fsqrtOutcome sm2 s.pa))

end Sys2Proof.Machine
end

