-- ==== Sys2Proof/Machine/PointCommands.lean ====
section
/-! DEFINITION. The point commands PCHK (R200), PADD (R201) and PDBL (R202). -/

namespace Sys2Proof.Machine

open Sys2Proof.Config

/-- `exec_pchk` (R200). -/
def pchkOutcome (c : Curve) (pa : Triple) : CmdOutcome :=
  match loadPoint c pa with
  | .error e => .fail e
  | .ok _ => .ok zeroTriple

/-- `exec_padd` (R201): the first operand's error wins. -/
def paddOutcome (c : Curve) (pa pb : Triple) : CmdOutcome :=
  match loadPoint c pa with
  | .error e => .fail e
  | .ok q =>
    match loadPoint c pb with
    | .error e => .fail e
    | .ok r => .ok (encodePoint (padd c q r))

/-- `exec_pdbl` (R202). -/
def pdblOutcome (c : Curve) (pa : Triple) : CmdOutcome :=
  match loadPoint c pa with
  | .error e => .fail e
  | .ok q => .ok (encodePoint (pdbl c q))

/-- PCHK (R200): is `PA` a point of the curve. -/
def execPchk (s : State) : Host.Outcome State Fault Refusal :=
  .next (completeReady s (pchkOutcome sm2 s.pa))

/-- PADD (R201): `PA + PB`. -/
def execPadd (s : State) : Host.Outcome State Fault Refusal :=
  .next (completeReady s (paddOutcome sm2 s.pa s.pb))

/-- PDBL (R202): `2·PA`. -/
def execPdbl (s : State) : Host.Outcome State Fault Refusal :=
  .next (completeReady s (pdblOutcome sm2 s.pa))

end Sys2Proof.Machine
end

