-- ==== Sys2Proof/Machine/Ladder.lean ====
section
/-! DEFINITION. The ladder (R235), double-and-add (R237), and scalars (R239, R242). -/

namespace Sys2Proof.Machine

open Sys2Proof.Config

/-- The loop of `ladder` (R235) with the iterations `i - 1` down to 0 still to run: swap, add, double, swap. -/
def ladderLoop (c : Curve) (k : Nat) : Nat → Point → Point → Point × Point
  | 0, r0, r1 => (r0, r1)
  | i + 1, r0, r1 =>
    let s := cswap (k.testBit i) r0 r1
    let sum := padd c s.1 s.2
    let dbl := pdbl c s.1
    let t := cswap (k.testBit i) dbl sum
    ladderLoop c k i t.1 t.2

/-- `ladder` (R235): all 256 bits of `k`, most significant first. -/
def ladder (c : Curve) (k : Nat) (q : Point) : Point := (ladderLoop c k ladderBits .inf q).1

/-- The loop of `dbl_and_add` (R237). -/
def dblAndAddLoop (c : Curve) (k : Nat) (q : Point) : Nat → Point → Point
  | 0, r => r
  | i + 1, r =>
    let d := pdbl c r
    dblAndAddLoop c k q i (if k.testBit i then padd c d q else d)

/-- `dbl_and_add` (R237). No command uses it; a statement compares the ladder with it. -/
def dblAndAdd (c : Curve) (k : Nat) (q : Point) : Point := dblAndAddLoop c k q ladderBits .inf

/-- `valid_scalar` (R239): `1 ≤ d ≤ n − 1`. -/
def validScalar (c : Curve) (d : Nat) : Bool := decide (1 ≤ d) && decide (d < c.n)

/-- `rand_scalar` (R242): `(r mod (n − 1)) + 1`. -/
def randScalar (c : Curve) (r : Nat) : Nat := r % randModulus c + 1

end Sys2Proof.Machine
end

