-- ==== Sys2Proof/Machine/ScalarCommands.lean ====
section
/-! DEFINITION. The scalar commands SMUL (R240), PUBKEY (R241) and KEYGEN (R243). -/

namespace Sys2Proof.Machine

open Sys2Proof.Config

/-- `exec_smul` (R240): the scalar is not validated. -/
def smulOutcome (c : Curve) (k : U256) (pa : Triple) : CmdOutcome :=
  match loadPoint c pa with
  | .error e => .fail e
  | .ok q => .ok (encodePoint (ladder c k.toNat q))

/-- `exec_pubkey` (R241). -/
def pubkeyOutcome (c : Curve) (k : U256) : CmdOutcome :=
  if validScalar c k.toNat = false then .fail .scalar
  else .ok (encodePoint (ladder c k.toNat (basePoint c)))

/-- `exec_keygen` after the draw (R243): a failed draw is `ENTROPY`, never another value (R247, R310). -/
def keygenOutcome (c : Curve) (d : Draw) : CmdOutcome :=
  if d.ok = false then .fail .entropy
  else
    let k := randScalar c d.r.toNat
    .okK (encodePoint (ladder c k (basePoint c))) (BitVec.ofNat 256 k)

/-- SMUL (R240): `K·PA`. -/
def execSmul (s : State) : Host.Outcome State Fault Refusal :=
  .next (completeReady s (smulOutcome sm2 s.k s.pa))

/-- PUBKEY (R241): `K·G` for a private scalar `K`. -/
def execPubkey (s : State) : Host.Outcome State Fault Refusal :=
  .next (completeReady s (pubkeyOutcome sm2 s.k))

/-- KEYGEN (R243): one draw, after the common checks only (R144, R246). -/
def execKeygen (s : State) : Host.Outcome State Fault Refusal :=
  if s.status.ready then
    match entropyDraw s with
    | none => .fault .entropySilent
    | some (d, t) => .next (complete t (keygenOutcome sm2 d))
  else .next (takeError s .notReady)

end Sys2Proof.Machine
end

