-- ==== Sys2Proof/Machine/System.lean ====
section
/-! DEFINITION. The one system command, INIT (R145). -/

namespace Sys2Proof.Machine

/-- INIT (R145): computes nothing, sets `READY`, writes `PR <- (0, 0, 0)`, whatever `READY` was. -/
def execInit (s : State) : Host.Outcome State Fault Refusal := .next (completeInit s)

end Sys2Proof.Machine
end

