-- ==== Sys2Proof/Machine/Dispatch.lean ====
section
/-! DEFINITION. One arm per command: what the engine's completion step does for it (R142, R143). -/

namespace Sys2Proof.Machine

/-- The completion step of a command (R142, R143). -/
def exec (i : Instr) (s : State) : Host.Outcome State Fault Refusal :=
  match i with
  | .init => Sys2Proof.Machine.execInit s
  | .pubkey => Sys2Proof.Machine.execPubkey s
  | .keygen => Sys2Proof.Machine.execKeygen s
  | .compress => Sys2Proof.Machine.execCompress s
  | .decompress => Sys2Proof.Machine.execDecompress s
  | .pchk => Sys2Proof.Machine.execPchk s
  | .smul => Sys2Proof.Machine.execSmul s
  | .padd => Sys2Proof.Machine.execPadd s
  | .pdbl => Sys2Proof.Machine.execPdbl s
  | .finv => Sys2Proof.Machine.execFinv s
  | .fsqrt => Sys2Proof.Machine.execFsqrt s

end Sys2Proof.Machine
end

