-- ==== Sys2Proof/Machine/Step.lean ====
section
/-! DEFINITION. One step of the machine: one slot of the schedule (R30, R80). -/

namespace Sys2Proof.Machine

/-- The engine's slot (R30, R142): enabled exactly when `BUSY = 1`; then the completion of the running command, `ILLEGAL`
for a word that is no command (R104, R143). Not enabled, the slot passes (log 5). -/
def engineStep (s : State) : Host.Outcome State Fault Refusal :=
  if s.status.busy then
    match decode (fetchWord s) with
    | .ok i => exec i s
    | .error _ => .next (takeError s .illegal)
  else .next s

/-- One step: the next slot of the schedule, in its order (R80); when the schedule is at its end the engine has the slot
(R348: an enabled engine step is eventually taken; log 2). -/
def step (s : State) : Host.Outcome State Fault Refusal :=
  match s.inputs with
  | [] => engineStep s
  | .engine :: rest => engineStep { s with inputs := rest }
  | .host t :: rest => .next (transact { s with inputs := rest } t)
  | .reset :: rest => .next (resetEvent { s with inputs := rest })

/-- `s` with the command word `w` accepted (R140) and the engine's slot next, so that the next step completes exactly it.
It stands for the host's admitted write of `CMD` (log 6). -/
def State.withFetchWord (s : State) (nbits w : Nat) : State :=
  { accept s (BitVec.ofNat 32 (w % 2 ^ nbits)) with inputs := .engine :: s.inputs }

end Sys2Proof.Machine
end

