-- ==== Sys2Proof/Machine/HostCodec.lean ====
section
/-! DEFINITION. The codec functions of the host software (R266 to R270). They are NOT hardware and no part of State or `step`
(R6, R265; log 12): pure functions over characters. The calls of the block are in `Machine/HostCalls.lean`. -/

namespace Sys2Proof.Machine

/-- The source's error kinds (R276); a block code without a named kind keeps its number. -/
inductive HostError where
  | decodeError
  | invalidScalar
  | invalidPoint
  | blockCode (code : BitVec 4)
  /-- The block refused an access of the call (R308). What the platform makes of that is open (U11); that the call ends
  there is the model's choice (DESIGN CHOICE, log 12). -/
  | accessRefused
deriving DecidableEq, Repr

/-- A hex digit's value: `0-9`, `a-f`, `A-F`; none for any other character (R266, D31). -/
def hexValue (ch : Char) : Option Nat :=
  if '0' ≤ ch ∧ ch ≤ '9' then some (ch.toNat - 48)
  else if 'a' ≤ ch ∧ ch ≤ 'f' then some (ch.toNat - 87)
  else if 'A' ≤ ch ∧ ch ≤ 'F' then some (ch.toNat - 55)
  else none

/-- The lowercase digit of a value below 16 (R267). -/
def hexChar (v : Nat) : Char := if v < 10 then Char.ofNat (48 + v) else Char.ofNat (87 + v)

/-- Digit pairs to bytes; an even number of digits (R266). -/
def hexPairs : List Char → Except HostError (List (BitVec 8))
  | [] => .ok []
  | [_] => .error .decodeError
  | hi :: lo :: rest =>
    match hexValue hi, hexValue lo, hexPairs rest with
    | some x, some y, .ok bytes => .ok (BitVec.ofNat 8 (16 * x + y) :: bytes)
    | _, _, _ => .error .decodeError

/-- `hexToBytes` (R266, C1): an odd-length string gets one leading zero; a character that is no hex digit fails. -/
def hexToBytes (hex : List Char) : Except HostError (List (BitVec 8)) :=
  if hex.length % 2 = 1 then hexPairs ('0' :: hex) else hexPairs hex

/-- `bytesToHex` (R267): two lowercase digits a byte. -/
def bytesToHex (bytes : List (BitVec 8)) : List Char :=
  bytes.flatMap fun b => [hexChar (b.toNat / 16), hexChar (b.toNat % 16)]

/-- `utf8ToHex` (R268). -/
def utf8ToHex (text : List Char) : List Char :=
  bytesToHex ((text.flatMap String.utf8EncodeChar).map UInt8.toBitVec)

/-- `hexToUtf8` (R269): fails on bytes that are not UTF-8. -/
def hexToUtf8 (hex : List Char) : Except HostError (List Char) :=
  match hexToBytes hex with
  | .error e => .error e
  | .ok bytes =>
    match (List.toByteArray (bytes.map UInt8.ofBitVec)).utf8Decode? with
    | some text => .ok text.toList
    | none => .error .decodeError

/-- `leftPad` (R270). -/
def leftPad (hex : List Char) (width : Nat) : List Char := List.replicate (width - hex.length) '0' ++ hex

/-- `be256` of a byte string (R12, R108). -/
def be256 (bytes : List (BitVec 8)) : Nat := bytes.foldl (fun v b => v * 256 + b.toNat) 0

/-- The 32 bytes of a 256-bit value, most significant first (R12). -/
def bytesOf (v : U256) : List (BitVec 8) := (List.range 32).map fun j => v.extractLsb' (248 - 8 * j) 8

/-- `hex(v)`: 64 lowercase digits (R16). -/
def hex256 (v : U256) : List Char := bytesToHex (bytesOf v)

/-- A 256-bit value from hex digits. -/
def u256OfHex (hex : List Char) : Except HostError U256 :=
  match hexToBytes hex with
  | .error e => .error e
  | .ok bytes => .ok (BitVec.ofNat 256 (be256 bytes))

end Sys2Proof.Machine
end

