-- ==== Sys2Proof/Machine/HostScript.lean ====
section
/-! DEFINITION. The host script (R112 to R114), played line by line: a line's transactions can depend on what was read
(`WAIT`, `MOVPT`), so a script is a run and not a fixed list. Every transaction is a slot played by `step`. This is the host's
notation, not the block's state (log 11). -/

namespace Sys2Proof.Machine

/-- A point register group of a script line (R33, R113). -/
inductive Group where
  | pa
  | pb
  | pr
deriving DecidableEq, Repr

/-- The lines of R112 and R113. `wait` and `call` say how many reads may find `BUSY = 1` before the engine's step is taken
(R141: any number). `engine` is no line of the spec's script: it is a slot for the engine between two lines (DESIGN CHOICE, log 11). -/
inductive ScriptLine where
  | wr (r : Reg) (i : Nat) (w : Word32)
  | rd (r : Reg) (i : Nat)
  | wrAt (off : Nat) (w : Word32)
  | rdAt (off : Nat)
  | cmd (m : Instr)
  | wait (polls : Nat)
  | call (m : Instr) (polls : Nat)
  | ld256 (r : Reg) (v : U256)
  | rd256 (r : Reg)
  | ldpt (g : Group) (t : Triple)
  | rdpt (g : Group)
  | movpt (g : Group)
  | reset
  | entropy (d : Config.Draw)
  | engine
deriving DecidableEq, Repr

/-- `<P>_TAG` (R113). -/
def groupTag : Group → Reg
  | .pa => .paTag
  | .pb => .pbTag
  | .pr => .prTag

/-- `<P>_X` (R113). -/
def groupX : Group → Reg
  | .pa => .paX
  | .pb => .pbX
  | .pr => .prX

/-- `<P>_Y` (R113). -/
def groupY : Group → Reg
  | .pa => .paY
  | .pb => .pbY
  | .pr => .prY

/-- `WR <reg>[<i>], <word>`: offset `offset(<reg>) + 4·i` (R112, R147). -/
def wrSlot (r : Reg) (i : Nat) (w : Word32) : Input := .host (.write (regOffset r + 4 * i) 32 w)

/-- `RD <reg>[<i>]` (R112, R146). -/
def rdSlot (r : Reg) (i : Nat) : Input := .host (.read (regOffset r + 4 * i) 32)

/-- `LD256`: eight writes, word 0 first (R113). -/
def ld256Slots (r : Reg) (v : U256) : List Input := (List.range 8).map fun i => wrSlot r i (wordOf v i)

/-- `RD256`: eight reads, word 0 first (R113). -/
def rd256Slots (r : Reg) : List Input := (List.range 8).map fun i => rdSlot r i

/-- `LDPT` (R113). -/
def ldptSlots (g : Group) (t : Triple) : List Input :=
  wrSlot (groupTag g) 0 (t.tag.setWidth 32) :: (ld256Slots (groupX g) t.x ++ ld256Slots (groupY g) t.y)

/-- `RDPT` (R113). -/
def rdptSlots (g : Group) : List Input :=
  rdSlot (groupTag g) 0 :: (rd256Slots (groupX g) ++ rd256Slots (groupY g))

/-- `CMD <MNEMONIC>` (R113). -/
def cmdSlot (m : Instr) : Input := wrSlot .cmd 0 (encode m)

/-- The value of `RD256`: `w[0] ‖ … ‖ w[7]` (R12, R113). -/
def valueOfWords (ws : List Word32) : Nat := ws.foldl (fun v w => v * 2 ^ 32 + w.toNat) 0

/-- One slot a script has played, and for a transaction what it returned (R114). -/
structure Played where
  slot : Input
  answer : Option Answer
deriving DecidableEq, Repr

/-- A piece of script: from the block's state, the slots played in order and the block's state after; none where the block
hangs (U13). -/
abbrev ScriptRun : Type := State → Option (List Played × State)

/-- Plays nothing. -/
def playNothing : ScriptRun := fun s => some ([], s)

/-- One piece, then another that may depend on what the first read. -/
def playThen (m : ScriptRun) (f : List Played → ScriptRun) : ScriptRun := fun s =>
  match m s with
  | none => none
  | some (ps, t) =>
    match f ps t with
    | none => none
    | some (qs, u) => some (ps ++ qs, u)

/-- What a slot returned: only a transaction returns anything (R72, R73). -/
def answerTo (x : Input) (t : State) : Option Answer :=
  match x with
  | .host _ => t.answer
  | .engine => none
  | .reset => none

/-- One slot, ahead of whatever else is scheduled. -/
def playSlot (x : Input) : ScriptRun := fun s =>
  match step { s with inputs := x :: s.inputs } with
  | .next t => some ([{ slot := x, answer := answerTo x t }], t)
  | .fault _ => none
  | .refused _ => none

/-- Slots one after another. A refused transaction does not end a script (R112: such a line is only marked). Nothing comes
between them: where the completion falls among transactions is open (U14, R141), and that the engine's step never falls inside
the expansion of one line (`LD256`, `RD256`, `LDPT`, `RDPT`, `MOVPT`) is the model's choice (DESIGN CHOICE, log 11). -/
def playSlots : List Input → ScriptRun
  | [] => playNothing
  | x :: rest => playThen (playSlot x) fun _ => playSlots rest

/-- The words read, in order; a refused read has none (R72). -/
def wordsRead (ps : List Played) : List Word32 :=
  ps.filterMap fun p =>
    match p.answer with
    | some (.word w) => some w
    | some .wrote => none
    | some .refused => none
    | none => none

/-- The word read last says `BUSY = 1` (R113 `WAIT`: bit 1). -/
def readBusy (ps : List Played) : Bool := ((wordsRead ps).getLastD 0).getLsbD 1

/-- `WAIT` (R113, R148): `RD STATUS` until the word read has `BUSY = 0`. At most `polls` reads come before the engine's step,
and the first that finds `BUSY = 0` is the last; after the engine's step one more read does. -/
def playWait : Nat → ScriptRun
  | 0 => playSlots [.engine, rdSlot .status 0]
  | n + 1 => playThen (playSlot (rdSlot .status 0)) fun ps => if readBusy ps then playWait n else playNothing

/-- The value of `RDPT`: the tag, X and Y of the 17 words read; none where a read was refused and has no value (R72). -/
def tripleRead (ps : List Played) : Option Triple :=
  let ws := wordsRead ps
  if ws.length = 17 then
    some {
      tag := (ws.headD 0).setWidth 8
      x := BitVec.ofNat 256 (valueOfWords ((ws.drop 1).take 8))
      y := BitVec.ofNat 256 (valueOfWords (ws.drop 9)) }
  else none

/-- `LDPT` with the values an `RDPT` read; without them there is nothing to write (DESIGN CHOICE, log 11). -/
def playCopy (g : Group) (ps : List Played) : ScriptRun :=
  match tripleRead ps with
  | some t => playSlots (ldptSlots g t)
  | none => playNothing

/-- `ENTROPY` (R113): what the port will answer to the next draw. It takes the place of an answer already stated for that
draw, and those stated for later draws stay (DESIGN CHOICE, log 11). -/
def stateNextDraw (s : State) (d : Config.Draw) : State := { s with entropy := .answers d :: s.entropy.tail }

/-- One line (R112, R113). -/
def playLine : ScriptLine → ScriptRun
  | .wr r i w => playSlot (wrSlot r i w)
  | .rd r i => playSlot (rdSlot r i)
  | .wrAt off w => playSlot (.host (.write off 32 w))
  | .rdAt off => playSlot (.host (.read off 32))
  | .cmd m => playSlot (cmdSlot m)
  | .wait polls => playWait polls
  | .call m polls => playThen (playSlot (cmdSlot m)) fun _ => playWait polls
  | .ld256 r v => playSlots (ld256Slots r v)
  | .rd256 r => playSlots (rd256Slots r)
  | .ldpt g t => playSlots (ldptSlots g t)
  | .rdpt g => playSlots (rdptSlots g)
  | .movpt g => playThen (playSlots (rdptSlots .pr)) (playCopy g)
  | .reset => playSlot .reset
  | .entropy d => fun s => some ([], stateNextDraw s d)
  | .engine => playSlot .engine

/-- A script: its lines in order (R112). -/
def playScript : List ScriptLine → ScriptRun
  | [] => playNothing
  | line :: rest => playThen (playLine line) fun _ => playScript rest

/-- The encoding of a played script (R114): its transactions after expansion, in order, each with what it returned. -/
def transactionsOf (ps : List Played) : List (Txn × Option Answer) :=
  ps.filterMap fun p =>
    match p.slot with
    | .host x => some (x, p.answer)
    | .engine => none
    | .reset => none

end Sys2Proof.Machine
end

