-- ==== Sys2Proof/Machine/HostCalls.lean ====
section
/-! DEFINITION. The host software's calls of the block (R271 to R276), by the host script of R112 and R113, as R265 says: every
access is a transaction of the window, played by `step`. The software has no state of its own; a call takes the block's state
and gives back the state it leaves. It is NOT hardware (R6, R265; log 12). -/

namespace Sys2Proof.Machine

/-- A piece of host software: from the block's state, the value or error the caller gets and the block's state after; none
where the block hangs (U13). -/
abbrev HostRun (α : Type) : Type := State → Option (Except HostError α × State)

/-- Ends with a value, making no transaction. -/
def hostReturn {α : Type} (r : Except HostError α) : HostRun α := fun s => some (r, s)

/-- One piece after another; an error ends the call at once (R276: propagation is immediate). -/
def hostBind {α β : Type} (m : HostRun α) (f : α → HostRun β) : HostRun β := fun s =>
  match m s with
  | none => none
  | some (.error e, t) => some (.error e, t)
  | some (.ok a, t) => f a t

/-- The words that a script reads (R112, R113). The caller holds the block (R87, R277), so the script's slots come ahead of
whatever else is scheduled; a refused access ends the call (log 12). -/
def playWords (lines : List ScriptLine) : HostRun (List Word32) := fun s =>
  match playScript lines s with
  | none => none
  | some (ps, t) =>
    some (if ps.any (fun p => p.answer == some .refused) then .error .accessRefused else .ok (wordsRead ps), t)

/-- The value of `RD256` of a register (R113). -/
def readValue (r : Reg) : HostRun U256 :=
  hostBind (playWords [.rd256 r]) fun ws => hostReturn (.ok (BitVec.ofNat 256 (valueOfWords ws)))

/-- `CALL <MNEMONIC>` (R113): the `CMD` write, then `WAIT`, whose value is the last `STATUS` word read. How many reads find
`BUSY = 1` first is open (R141, U14): `polls`, an argument. -/
def callBlock (m : Instr) (polls : Nat) : HostRun Word32 :=
  hostBind (playWords [.cmd m]) fun _ =>
  hostBind (playWords [.wait polls]) fun ws => hostReturn (.ok (ws.getLastD 0))

/-- How an error code of the block reaches the caller (R273 to R276). -/
def hostError (code : BitVec 4) : HostError :=
  if code = 1 then .decodeError
  else if code = 2 then .invalidScalar
  else if code = 3 then .invalidPoint
  else .blockCode code

/-- `CALL`, then the outcome in the word `WAIT` returned: bit 3 `ERR`, the code in bits 7:4 (R148). -/
def callChecked (m : Instr) (polls : Nat) : HostRun Unit :=
  hostBind (callBlock m polls) fun w =>
    hostReturn (if w.getLsbD 3 then .error (hostError (w.extractLsb' 4 4)) else .ok ())

/-- `"04" ‖ hex(PR_X) ‖ hex(PR_Y)` (R273 to R275). -/
def uncompressedHex (x y : U256) : List Char := ['0', '4'] ++ hex256 x ++ hex256 y

/-- Reads `PR_X` and `PR_Y` and gives the uncompressed encoding (R273 to R275). -/
def readPublicHex : HostRun (List Char) :=
  hostBind (readValue .prX) fun x => hostBind (readValue .prY) fun y => hostReturn (.ok (uncompressedHex x y))

/-- The value of a constant register as the window shows it, with no transaction (R38). -/
def readConstant (s : State) (r : Reg) : Nat :=
  valueOfWords ((List.range 8).map fun i => (hostRead s (regOffset r + 4 * i) 32).getD 0)

/-- `getCurve()` (R150, R271): no hardware action. The host-visible form of the curve object is the seven constant registers,
and the record of their values stands for the handle, whose form the spec leaves open (N7; DESIGN CHOICE, log 19). -/
def getCurve (s : State) : Config.Curve where
  p := readConstant s .cP
  a := readConstant s .cA
  b := readConstant s .cB
  gx := readConstant s .cGX
  gy := readConstant s .cGY
  n := readConstant s .cN
  h := readConstant s .cH

/-- `RD256` of the seven constant registers (R145, R271). -/
def readCurve : HostRun Config.Curve :=
  hostBind (readValue .cP) fun p =>
  hostBind (readValue .cA) fun a =>
  hostBind (readValue .cB) fun b =>
  hostBind (readValue .cGX) fun gx =>
  hostBind (readValue .cGY) fun gy =>
  hostBind (readValue .cN) fun n =>
  hostBind (readValue .cH) fun h =>
    hostReturn (.ok { p := p.toNat, a := a.toNat, b := b.toNat, gx := gx.toNat, gy := gy.toNat, n := n.toNat, h := h.toNat })

/-- `initCurve()` (R271): `CALL INIT`, then the three return values, read from the `C_*` registers. The state it leaves has
`READY` set, so that other calls can follow. The types of the three values are the model's choice (N7 leaves the types and
formats of BasePoint and Order open; DESIGN CHOICE, log 19): the whole record, a `Point`, a `Nat`. -/
def initCurve (polls : Nat) : HostRun (Config.Curve × Point × Nat) :=
  hostBind (callChecked .init polls) fun _ =>
  hostBind readCurve fun c => hostReturn (.ok (c, basePoint c, c.n))

/-- `compress(point)` (R272): the prefix test first; a `"04"` string must be 130 hex characters; then `LDPT PA`,
`CALL COMPRESS`, and the result's tag and X. -/
def compressString (polls : Nat) (point : List Char) : HostRun (List Char) :=
  if point.take 2 ≠ ['0', '4'] then hostReturn (.ok point)
  else if point.length ≠ 130 then hostReturn (.error .decodeError)
  else
    match u256OfHex ((point.drop 2).take 64), u256OfHex (point.drop 66) with
    | .ok x, .ok y =>
      hostBind (playWords [.ldpt .pa { tag := 0x04, x := x, y := y }]) fun _ =>
      hostBind (callChecked .compress polls) fun _ =>
      hostBind (playWords [.rd .prTag 0]) fun tag =>
      hostBind (readValue .prX) fun rx =>
        hostReturn (.ok (bytesToHex (tag.map fun w => w.extractLsb' 0 8) ++ hex256 rx))
    | _, _ => hostReturn (.error .decodeError)

/-- `decompress(point)` (R273): `"04"` strings unchanged; else 66 hex characters, the tag and X into `PA`,
`CALL DECOMPRESS`, and the uncompressed encoding. -/
def decompressString (polls : Nat) (point : List Char) : HostRun (List Char) :=
  if point.take 2 = ['0', '4'] then hostReturn (.ok point)
  else if point.length ≠ 66 then hostReturn (.error .decodeError)
  else
    match u256OfHex (point.take 2), u256OfHex (point.drop 2) with
    | .ok tag, .ok x =>
      hostBind (playWords [.wr .paTag 0 (tag.setWidth 32), .ld256 .paX x]) fun _ =>
      hostBind (callChecked .decompress polls) fun _ => readPublicHex
    | _, _ => hostReturn (.error .decodeError)

/-- `generateKeyPair()` (R274): `CALL KEYGEN`, then the private key from `K` and the public key from `PR`. -/
def generateKeyPair (polls : Nat) : HostRun (List Char × List Char) :=
  hostBind (callChecked .keygen polls) fun _ =>
  hostBind (readValue .k) fun k =>
  hostBind readPublicHex fun pub => hostReturn (.ok (hex256 k, pub))

/-- `derivePublicKey(privateKeyHex)` (R275): valid hex, else `DecodeError`; more than 64 digits fails in the host without a
call; else `LD256 K`, `CALL PUBKEY`, and the uncompressed encoding. -/
def derivePublicKey (polls : Nat) (hex : List Char) : HostRun (List Char) :=
  match u256OfHex (leftPad hex 64) with
  | .error e => hostReturn (.error e)
  | .ok k =>
    if 64 < hex.length then hostReturn (.error .invalidScalar)
    else
      hostBind (playWords [.ld256 .k k]) fun _ =>
      hostBind (callChecked .pubkey polls) fun _ => readPublicHex

end Sys2Proof.Machine
end

