-- ==== Sys2Proof/Machine/Pipeline.lean ====
section
/-! DEFINITION. The point-double and point-add pipelines as R197 lists them, step by step over their temporaries. They are
hidden (R41, R175): the meanings use `pdbl` and `padd` of R195 and R196, and statements tie the pipelines to those. -/

namespace Sys2Proof.Machine

open Sys2Proof.Config

/-- The point-double pipeline (R197, left column), entered with `y ≠ 0`. -/
def doublePipeline (c : Curve) (x y : Nat) : Nat × Nat :=
  let t1 := fsqr c x
  let t2 := fadd c t1 t1
  let t3 := fadd c t2 t1
  let t4 := fadd c t3 c.a
  let t5 := fadd c y y
  let t6 := finv c t5
  let lam := fmul c t4 t6
  let t7 := fsqr c lam
  let t8 := fsub c t7 x
  let x3 := fsub c t8 x
  let t9 := fsub c x x3
  let t10 := fmul c lam t9
  let y3 := fsub c t10 y
  (x3, y3)

/-- The point-add pipeline (R197, right column), entered with `x1 ≠ x2`. -/
def addPipeline (c : Curve) (x1 y1 x2 y2 : Nat) : Nat × Nat :=
  let u1 := fsub c y2 y1
  let u2 := fsub c x2 x1
  let u3 := finv c u2
  let lam := fmul c u1 u3
  let u4 := fsqr c lam
  let u5 := fsub c u4 x1
  let x3 := fsub c u5 x2
  let u6 := fsub c x1 x3
  let u7 := fmul c lam u6
  let y3 := fsub c u7 y1
  (x3, y3)

end Sys2Proof.Machine
end

