-- ==== Sys2Proof/Machine/Sequencer.lean ====
section
/-! DEFINITION. The engine's hidden sequencer during a scalar multiplication (R40, R238), as a machine of its own. It is
not part of State (R41): the whole schedule lies inside the one completion step (R142, R238). -/

namespace Sys2Proof.Machine

open Sys2Proof.Config

/-- The phases of one iteration and the end (R238). -/
inductive Phase where
  | swap1
  | add
  | dbl
  | swap2
  | out
deriving DecidableEq, Repr

/-- The sequencer's hidden state (R40, R41): phase, the 8-bit index `i`, the ladder points. -/
structure Sequencer where
  phase : Phase
  i : BitVec 8
  r0 : Point
  r1 : Point
deriving DecidableEq, Repr

/-- `LOAD` (R238): `R0 <- INF; R1 <- P; i <- 255`. -/
def sequencerLoad (q : Point) : Sequencer := { phase := .swap1, i := 255, r0 := .inf, r1 := q }

/-- One phase of `ITER(i)`, or rest in `OUT` (R238). -/
def sequencerStep (c : Curve) (k : U256) (q : Sequencer) : Sequencer :=
  let s := cswap (k.getLsbD q.i.toNat) q.r0 q.r1
  match q.phase with
  | .swap1 => { q with phase := .add, r0 := s.1, r1 := s.2 }
  | .add => { q with phase := .dbl, r1 := padd c q.r0 q.r1 }
  | .dbl => { q with phase := .swap2, r0 := pdbl c q.r0 }
  | .swap2 =>
    if q.i = 0 then { q with phase := .out, r0 := s.1, r1 := s.2 }
    else { phase := .swap1, i := q.i - 1, r0 := s.1, r1 := s.2 }
  | .out => q

/-- `m` phases. -/
def sequencerRun (c : Curve) (k : U256) : Nat → Sequencer → Sequencer
  | 0, q => q
  | m + 1, q => sequencerRun c k m (sequencerStep c k q)

end Sys2Proof.Machine
end

