-- ==== Sys2Proof/WellFormed.lean ====
section
/-! DEFINITION. The well-formedness checks of format `C` (R100, R101, R104). A command has no operand, so what can be
ill-formed is a command word: its `ZERO` field or its `OPCODE`. -/

namespace Sys2Proof

/-- The `OPCODE` column of R101. -/
def assignedOpcodes : List (BitVec 8) :=
  [0x01, 0x02, 0x03, 0x04, 0x05, 0x06, 0x10, 0x11, 0x12, 0x20, 0x21]

/-- Bits 31:8, `ZERO`, must be 0 (R100). -/
def zeroFieldClear (w : Word32) : Bool := w.extractLsb' 8 24 == 0

/-- Bits 7:0, `OPCODE`, must be in the opcode table (R101). -/
def opcodeAssigned (w : Word32) : Bool := assignedOpcodes.contains (w.extractLsb' 0 8)

/-- A command word that selects a command (R101, R104). -/
def wellFormedWord (w : Word32) : Bool := zeroFieldClear w && opcodeAssigned w

end Sys2Proof
end

