-- ==== Sys2Proof/Safety.lean ====
section
/-! DEFINITION. What counts as a safe state and a safe run: the `STATUS` invariants of R37 with what R95's list of readable
`STATUS` words adds, and no refused access (R345). -/

namespace Sys2Proof.Safety

open Sys2Proof.Machine

/-- The latest host transaction was refused: "a model should treat a program that causes a refused access as having gone
wrong" (R345). -/
def refusedAccess (s : State) : Bool := s.answer == some .refused

/-- The states a run passes through, `m` steps long, have no refused access and no stop. -/
def safeRun : Nat → State → Bool
  | 0, s => !refusedAccess s
  | m + 1, s =>
    !refusedAccess s &&
      match step s with
      | .next t => safeRun m t
      | .fault _ => false
      | .refused _ => false

/-- R37 items (1) to (3), with what the lifecycle adds to each report: before the first accepted command nothing has been
written (3); a report of `DONE` comes from a legal command with `READY` set (R144); a report of `ERR` left `PR` zero (R304),
has a code of R301, is `ILLEGAL` exactly when the word is no command (R104), and is `NOTREADY` only before INIT and, of
legal words, always before INIT (R144). -/
structure ReportInv (s : State) : Prop where
  one_report : (s.status.busy = true → s.status.done = false ∧ s.status.err = false) ∧
    (s.status.done = true → s.status.err = false)
  code_iff_err : s.status.errcode ≠ 0 ↔ s.status.err = true
  silent_before_first : s.status.busy = false → s.status.done = false → s.status.err = false →
    s.status.ready = false ∧ s.cmd = 0 ∧ s.pr = zeroTriple
  done_needs_ready : s.status.done = true → s.status.ready = true ∧ ∃ i, decode s.cmd = .ok i
  err_zeroes : s.status.err = true → s.pr = zeroTriple
  err_code_known : s.status.err = true → s.status.errcode.toNat ≤ 8
  illegal_iff : s.status.err = true → (s.status.errcode = 5 ↔ ∀ i, decode s.cmd ≠ .ok i)
  notReady_iff : s.status.err = true → s.status.errcode ≠ 5 →
    (s.status.errcode = 6 ↔ s.status.ready = false)

/-- The words a read of `STATUS` can return in a run (95_test_vectors.md, end of 2.8, derived from R37, R140 to R144,
R302). -/
def statusWords : List Word32 :=
  [0x00000000, 0x00000002, 0x00000003, 0x00000005, 0x00000058, 0x00000068, 0x00000019, 0x00000029, 0x00000039,
    0x00000049, 0x00000059, 0x00000079, 0x00000089]

/-! ## The terms the statements use, written from the rules and not from the model's operations -/

/-- The "word" column of R101. -/
def commandWords : List Word32 :=
  [0x00000001, 0x00000002, 0x00000003, 0x00000004, 0x00000005, 0x00000006, 0x00000010, 0x00000011, 0x00000012,
    0x00000020, 0x00000021]

/-- `s` after a completion without error that puts `t` in `PR` (R142): nothing but `PR`, `DONE` and `BUSY` differs. -/
def doneWith (s : State) (t : Triple) : State :=
  { s with pr := t, status := { s.status with done := true, busy := false } }

/-- `s` after a completion with an error code (R304): nothing but `PR`, `ERR`, `ERRCODE` and `BUSY` differs. -/
def failedWith (s : State) (code : BitVec 4) : State :=
  { s with
    pr := { tag := 0, x := 0, y := 0 },
    status := { s.status with err := true, errcode := code, busy := false } }

/-- `Aff(x, y)` of the SM2 curve: canonical coordinates with `y² ≡ x³ + a·x + b (mod p)` (R18, R190). -/
abbrev IsCurvePair (x y : Nat) : Prop :=
  x < sm2.p ∧ y < sm2.p ∧ y ^ 2 % sm2.p = (x ^ 3 + sm2.a * x + sm2.b) % sm2.p

/-- An arithmetic operand a command accepts (R193): infinity, or a finite uncompressed point of the curve. -/
abbrev GoodOperand (t : Triple) : Prop :=
  t.tag = 0x00 ∨ t.tag = 0x04 ∧ IsCurvePair t.x.toNat t.y.toNat

/-- An arithmetic operand a command rejects, and with which code (R193): 1 `DECODE` for the tag, 3 `POINT` for the pair. -/
abbrev OperandFails (t : Triple) (code : BitVec 4) : Prop :=
  t.tag ≠ 0x00 ∧ t.tag ≠ 0x04 ∧ code = 1 ∨ t.tag = 0x04 ∧ ¬ IsCurvePair t.x.toNat t.y.toNat ∧ code = 3

/-- The point an accepted operand stands for (R106, R193). -/
def pointOf (t : Triple) : Point := if t.tag = 0x00 then .inf else .aff t.x.toNat t.y.toNat

/-- What an accepted operand reads as when a command gives it back (R194): `(0, 0, 0)` for infinity. -/
def normalOperand (t : Triple) : Triple := if t.tag = 0x00 then { tag := 0, x := 0, y := 0 } else t

/-- What the rules assume of a `CURVE` record, the six items of R8: the hypotheses of a claim over any record. The record of
this hardware is `sm2`, which is to meet them (`Obligations.CurveConstantsMeetTheConstraints`). -/
structure CurveConstraints (c : Config.Curve) : Prop where
  /-- (1) -/
  p_prime : Nat.Prime c.p ∧ 3 < c.p ∧ c.p < 2 ^ 256
  /-- (2) -/
  p_mod_four : c.p % 4 = 3
  /-- (3) -/
  nonsingular : c.a < c.p ∧ c.b < c.p ∧ (4 * c.a ^ 3 + 27 * c.b ^ 2) % c.p ≠ 0
  /-- (4) -/
  base_on_curve : c.gx < c.p ∧ c.gy < c.p ∧ c.gy ^ 2 % c.p = (c.gx ^ 3 + c.a * c.gx + c.b) % c.p
  /-- (5) -/
  base_order : Nat.Prime c.n ∧ 2 < c.n ∧ c.n < 2 ^ 256 ∧ nTimes c c.n (basePoint c) = .inf ∧ basePoint c ≠ .inf
  /-- (6): the curve has exactly `n` points, infinity among them. -/
  cofactor_one : c.h = 1 ∧ Nat.card { q : Point // isPoint c q = true } = c.n

/-- `r` is the square root of `g` with the wanted parity (R170). -/
abbrev IsRoot (g r : Nat) (odd : Bool) : Prop :=
  r < sm2.p ∧ r * r % sm2.p = g ∧ (r % 2 = 1 ↔ odd = true)

/-- The parity a compressed tag asks for: `0x03` is odd (R106, R222). -/
def wantsOdd (t : Triple) : Bool := t.tag == 0x03

/-- The answer the entropy port gives the next draw (R246): free; none where the port never answers (U13). -/
def nextAnswer (s : State) : Option Config.Draw :=
  match s.entropy with
  | [] => some (Config.entropyAnswer s.draws)
  | .answers d :: _ => some d
  | .silent :: _ => none

/-- `s` after one draw: only the port's side has moved on. -/
def afterDraw (s : State) : State := { s with entropy := s.entropy.tail, draws := s.draws + 1 }

/-- Two states agree on what a command reads (the "reads" column of R102). -/
def sameOperands (i : Instr) (s t : State) : Prop :=
  match i with
  | .init => True
  | .pubkey => s.k = t.k
  | .keygen => nextAnswer s = nextAnswer t
  | .compress => s.pa = t.pa
  | .decompress => s.pa = t.pa
  | .pchk => s.pa = t.pa
  | .smul => s.k = t.k ∧ s.pa = t.pa
  | .padd => s.pa = t.pa ∧ s.pb = t.pb
  | .pdbl => s.pa = t.pa
  | .finv => s.pa.x = t.pa.x
  | .fsqrt => s.pa.tag = t.pa.tag ∧ s.pa.x = t.pa.x

/-- The codes a command can raise (the table of R302). -/
def raisable : Instr → List (BitVec 4)
  | .init => []
  | .pubkey => [2, 6]
  | .keygen => [4, 6]
  | .compress => [6]
  | .decompress => [1, 3, 6]
  | .pchk => [1, 3, 6]
  | .smul => [1, 3, 6]
  | .padd => [1, 3, 6]
  | .pdbl => [1, 3, 6]
  | .finv => [6, 7, 8]
  | .fsqrt => [1, 3, 6, 7]

end Sys2Proof.Safety
end

