-- ==== Sys2Proof/Certificates/Slice0/Obligations.lean ====
section
/-! DEFINITION. The statements for the provers. Each docstring says which rule of spec/ it formalises. -/

open Sys2Proof Sys2Proof.Config Sys2Proof.Machine Sys2Proof.Safety

/-! ## Encoding -/

/-- R101, R103: a command word selects a command exactly when it equals the word of that row, whatever the word. -/
def Obligations.DecodeSelectsExactlyTheTableWords : Prop :=
  ∀ w : Word32,
    (decode w = .ok .init ↔ w = 0x00000001) ∧
    (decode w = .ok .pubkey ↔ w = 0x00000002) ∧
    (decode w = .ok .keygen ↔ w = 0x00000003) ∧
    (decode w = .ok .compress ↔ w = 0x00000004) ∧
    (decode w = .ok .decompress ↔ w = 0x00000005) ∧
    (decode w = .ok .pchk ↔ w = 0x00000006) ∧
    (decode w = .ok .smul ↔ w = 0x00000010) ∧
    (decode w = .ok .padd ↔ w = 0x00000011) ∧
    (decode w = .ok .pdbl ↔ w = 0x00000012) ∧
    (decode w = .ok .finv ↔ w = 0x00000020) ∧
    (decode w = .ok .fsqrt ↔ w = 0x00000021) ∧
    ((∃ e, decode w = .error e) ↔ w ∉ commandWords)

/-- R100, R101: decode and encode agree in both directions: every command's word decodes to it, no other word does, and
the words that decode are exactly the well-formed ones. -/
def Obligations.DecodeAndEncodeAgree : Prop :=
  (∀ i : Instr, decode (encode i) = .ok i ∧ decodeTableWord 32 (encode i).toNat = some i) ∧
  (∀ (w : Word32) (i : Instr), decode w = .ok i → encode i = w) ∧
  (∀ w : Word32, wellFormedWord w = true ↔ ∃ i, decode w = .ok i)

/-- R101, R104: a few words written out from the opcode table decode to their commands, and near misses decode to none. A
sanity statement on fixed words. -/
def Obligations.WordsOfTheTableDecode : Prop :=
  decode 0x00000001 = .ok .init ∧ decode 0x00000003 = .ok .keygen ∧ decode 0x00000005 = .ok .decompress ∧
    decode 0x00000010 = .ok .smul ∧ decode 0x00000012 = .ok .pdbl ∧ decode 0x00000021 = .ok .fsqrt ∧
    (∃ e, decode 0x00000102 = .error e) ∧ (∃ e, decode 0x00000007 = .error e)

/-! ## The register window -/

/-- R72: which reads are admitted, the word each admitted read returns, and that a read changes nothing of the block, only
the answer the host holds. The offsets are those of R71. -/
def Obligations.HostReadFollowsTheRegisterMap : Prop :=
  ∀ s : State,
    (∀ off width, (∃ w, hostRead s off width = some w) ↔
      width = 32 ∧ off % 4 = 0 ∧
        (off ≤ 0x004 ∨ (0x100 ≤ off ∧ off < 0x1E0) ∨
          (s.status.busy = false ∧ ((0x010 ≤ off ∧ off < 0x01C) ∨ (0x020 ≤ off ∧ off < 0x100))))) ∧
    hostRead s 0x000 32 = some s.cmd ∧
    hostRead s 0x004 32 = some ((0 : BitVec 24) ++ s.status.errcode ++ BitVec.ofBool s.status.err ++
      BitVec.ofBool s.status.done ++ BitVec.ofBool s.status.busy ++ BitVec.ofBool s.status.ready) ∧
    (s.status.busy = false →
      hostRead s 0x010 32 = some ((0 : BitVec 24) ++ s.pa.tag) ∧
      hostRead s 0x014 32 = some ((0 : BitVec 24) ++ s.pb.tag) ∧
      hostRead s 0x018 32 = some ((0 : BitVec 24) ++ s.pr.tag)) ∧
    (s.status.busy = false → ∀ i, i < 8 →
      hostRead s (0x020 + 4 * i) 32 = some (s.k.extractLsb' (224 - 32 * i) 32) ∧
      hostRead s (0x040 + 4 * i) 32 = some (s.pa.x.extractLsb' (224 - 32 * i) 32) ∧
      hostRead s (0x060 + 4 * i) 32 = some (s.pa.y.extractLsb' (224 - 32 * i) 32) ∧
      hostRead s (0x080 + 4 * i) 32 = some (s.pb.x.extractLsb' (224 - 32 * i) 32) ∧
      hostRead s (0x0A0 + 4 * i) 32 = some (s.pb.y.extractLsb' (224 - 32 * i) 32) ∧
      hostRead s (0x0C0 + 4 * i) 32 = some (s.pr.x.extractLsb' (224 - 32 * i) 32) ∧
      hostRead s (0x0E0 + 4 * i) 32 = some (s.pr.y.extractLsb' (224 - 32 * i) 32)) ∧
    (∀ i, i < 8 →
      hostRead s (0x100 + 4 * i) 32 = some ((BitVec.ofNat 256 sm2.p).extractLsb' (224 - 32 * i) 32) ∧
      hostRead s (0x120 + 4 * i) 32 = some ((BitVec.ofNat 256 sm2.a).extractLsb' (224 - 32 * i) 32) ∧
      hostRead s (0x140 + 4 * i) 32 = some ((BitVec.ofNat 256 sm2.b).extractLsb' (224 - 32 * i) 32) ∧
      hostRead s (0x160 + 4 * i) 32 = some ((BitVec.ofNat 256 sm2.gx).extractLsb' (224 - 32 * i) 32) ∧
      hostRead s (0x180 + 4 * i) 32 = some ((BitVec.ofNat 256 sm2.gy).extractLsb' (224 - 32 * i) 32) ∧
      hostRead s (0x1A0 + 4 * i) 32 = some ((BitVec.ofNat 256 sm2.n).extractLsb' (224 - 32 * i) 32) ∧
      hostRead s (0x1C0 + 4 * i) 32 = some ((BitVec.ofNat 256 sm2.h).extractLsb' (224 - 32 * i) 32)) ∧
    (∀ off width, { transact s (.read off width) with answer := s.answer } = s)

/-- R73, R140: which writes are admitted, what each admitted write does and leaves alone (that of `CMD` is the
acceptance), and that a refused write changes nothing of the block. -/
def Obligations.HostWriteFollowsTheRegisterMap : Prop :=
  ∀ (s : State) (w : Word32),
    (∀ off width, (∃ t, hostWrite s off width w = some t) ↔
      width = 32 ∧ off % 4 = 0 ∧ s.status.busy = false ∧
        (off = 0x000 ∨ off = 0x010 ∨ off = 0x014 ∨ (0x020 ≤ off ∧ off < 0x0C0))) ∧
    (s.status.busy = false →
      hostWrite s 0x000 32 w =
        some { s with cmd := w, status := { ready := s.status.ready, busy := true, done := false, err := false, errcode := 0 } } ∧
      hostWrite s 0x010 32 w = some { s with pa := { s.pa with tag := w.extractLsb' 0 8 } } ∧
      hostWrite s 0x014 32 w = some { s with pb := { s.pb with tag := w.extractLsb' 0 8 } } ∧
      ∀ i, i < 8 → ∀ new : U256 → U256,
        (∀ v, (new v).extractLsb' (224 - 32 * i) 32 = w ∧
          ∀ j, j < 8 → j ≠ i → (new v).extractLsb' (224 - 32 * j) 32 = v.extractLsb' (224 - 32 * j) 32) →
        hostWrite s (0x020 + 4 * i) 32 w = some { s with k := new s.k } ∧
        hostWrite s (0x040 + 4 * i) 32 w = some { s with pa := { s.pa with x := new s.pa.x } } ∧
        hostWrite s (0x060 + 4 * i) 32 w = some { s with pa := { s.pa with y := new s.pa.y } } ∧
        hostWrite s (0x080 + 4 * i) 32 w = some { s with pb := { s.pb with x := new s.pb.x } } ∧
        hostWrite s (0x0A0 + 4 * i) 32 w = some { s with pb := { s.pb with y := new s.pb.y } }) ∧
    (∀ off width, hostWrite s off width w = none →
      { transact s (.write off width w) with answer := s.answer } = s)

/-- R72, R73, R79: what a host's transaction gives the host and does to the block: an admitted read answers the word of
`HostRead` and changes nothing else; an admitted write takes the state of `HostWrite` and answers that it was done; a refused
access answers the refusal and changes nothing else. That the answer is kept in a field is the model's choice (log 3). -/
def Obligations.TransactionsAnswerTheHost : Prop :=
  ∀ (s : State) (off width : Nat) (w : Word32),
    (∀ r, hostRead s off width = some r → transact s (.read off width) = { s with answer := some (.word r) }) ∧
    (hostRead s off width = none → transact s (.read off width) = { s with answer := some .refused }) ∧
    (∀ t, hostWrite s off width w = some t → transact s (.write off width w) = { t with answer := some .wrote }) ∧
    (hostWrite s off width w = none → transact s (.write off width w) = { s with answer := some .refused })

/-- R113 (`LD256`), R114, R74: eight writes, most significant word first, load a 256-bit operand register of an idle block
with the value and change nothing else of the block: as a script line, with these transactions, and as eight slots ahead of any
schedule (the schedule and the answer field are the model's, logs 2 and 3). -/
def Obligations.LoadScriptLoadsTheRegister : Prop :=
  ∀ (s : State) (v : U256), s.status.busy = false →
    ∀ x ∈ [(Reg.k, { s with k := v }), (Reg.paX, { s with pa := { s.pa with x := v } }),
        (Reg.paY, { s with pa := { s.pa with y := v } }), (Reg.pbX, { s with pb := { s.pb with x := v } }),
        (Reg.pbY, { s with pb := { s.pb with y := v } })],
      (∃ ps, playScript [.ld256 x.1 v] s = some (ps, { x.2 with answer := some .wrote }) ∧
        transactionsOf ps = (List.range 8).map fun i =>
          (Txn.write (regOffset x.1 + 4 * i) 32 (v.extractLsb' (224 - 32 * i) 32), some Answer.wrote)) ∧
      Host.Core.run Sys2Proof.core 8 { s with inputs := ld256Slots x.1 v ++ s.inputs } =
        .next { x.2 with answer := some .wrote }

/-- R113, R148, the lines whose transactions depend on what was read, and `ENTROPY`. `MOVPT` on an idle block: 17 reads, then
17 writes of the three values read, so the destination holds `PR`. `WAIT`, for any number of polls: on an idle block one read;
on a running one the reads that find `BUSY = 1`, the engine's step, and one read that finds `BUSY = 0`, which is the last.
`ENTROPY`, wherever it stands in a script: when it is reached, and not before, the port's answer to the next draw is the one
stated, and nothing of the block changes. Model's choice: the answer field, the polls as an argument, that the engine's
step never falls inside a line but `WAIT`, and that a `MOVPT` on a running block, whose reads are all refused for that reason and
have no value, writes nothing (logs 3 and 11). -/
def Obligations.ScriptLinesFollowTheirRule : Prop :=
  ∀ s : State,
    (s.status.busy = false → ∀ x ∈ [(Group.pa, { s with pa := s.pr }), (Group.pb, { s with pb := s.pr })],
      ∃ ps, playScript [.movpt x.1] s = some (ps, { x.2 with answer := some .wrote }) ∧
        ps.length = 34 ∧ ps.map Played.slot = rdptSlots .pr ++ ldptSlots x.1 s.pr ∧
        ∀ p ∈ ps, p.answer ≠ some .refused) ∧
    (s.status.busy = true → ∀ g, ∃ ps,
      playScript [.movpt g] s = some (ps, { s with answer := some .refused }) ∧ ps.map Played.slot = rdptSlots .pr ∧
        ∀ p ∈ ps, p.answer = some .refused) ∧
    (s.status.busy = false → ∀ polls, ∃ ps,
      playScript [.wait polls] s = some (ps, { s with answer := some (.word (statusWord s.status)) }) ∧
        wordsRead ps = [statusWord s.status]) ∧
    (s.status.busy = true → ∀ polls t, engineStep s = .next t → ∃ ps,
      playScript [.wait polls] s = some (ps, { t with answer := some (.word (statusWord t.status)) }) ∧
        wordsRead ps = List.replicate polls (statusWord s.status) ++ [statusWord t.status] ∧
        (statusWord s.status).getLsbD 1 = true ∧ (statusWord t.status).getLsbD 1 = false) ∧
    (∀ lines ps t d, playScript lines s = some (ps, t) → ∃ u,
      playScript (lines ++ [.entropy d]) s = some (ps, u) ∧ u = { t with entropy := u.entropy } ∧ nextAnswer u = some d)

/-- R12, R74: the eight words of a 256-bit value, most significant first, give the value back. -/
def Obligations.WordsComposeTheValue : Prop :=
  ∀ v : U256, valueOfWords ((List.range 8).map (wordOf v)) = v.toNat

/-- R37 item (5), R141: while `BUSY = 1` no transaction of the host changes anything of the block, and every write is
refused. -/
def Obligations.BusyPhaseKeepsTheHostOut : Prop :=
  ∀ (s : State) (x : Txn), s.status.busy = true →
    ∃ a, transact s x = { s with answer := some a } ∧ (∀ off width w, x = .write off width w → a = .refused)

/-- R308: a refused access has no effect on the block, running or idle; the refusal itself is kept as the host's answer
(log 3). -/
def Obligations.RefusedAccessHasNoEffect : Prop :=
  ∀ (s : State) (x : Txn), (transact s x).answer = some .refused →
    transact s x = { s with answer := some .refused }

/-- R14, R70: the window at the platform's addresses: `MemRead(BASE + off)` is `HostRead(off)` and `MemWrite` is `HostWrite`.
That both answer none at an address outside the window is the model's choice (log 10): R88 says nothing about such an
access. -/
def Obligations.WindowSitsAtBase : Prop :=
  base % 4096 = 0 ∧
  ∀ (s : State) (width : Nat) (w : Word32),
    (∀ off, off < 4096 → memRead s (base + off) width = hostRead s off width ∧
      memWrite s (base + off) width w = hostWrite s off width w) ∧
    (∀ addr, addr < base ∨ base + 4096 ≤ addr → memRead s addr width = none ∧ memWrite s addr width w = none)

/-! ## The life of a command -/

/-- R142: the step in the busy phase runs the command that `CMD` decodes to, on the state with the engine's slot taken
from the schedule (the schedule is the model's, log 2). -/
def Obligations.StepRunsTheDecodedCommand : Prop :=
  ∀ (s : State) (i : Instr), s.status.busy = true → decode s.cmd = .ok i →
    (s.inputs = [] → step s = exec i s) ∧
    (∀ rest, s.inputs = .engine :: rest → step s = exec i { s with inputs := rest })

/-- Model's choice (logs 2, 5 and 8; R30, R80): the other slots of the schedule. A host slot is that transaction, a reset
slot is the reset event, and the engine's slot with no command running passes. -/
def Obligations.StepPlaysOneSlot : Prop :=
  ∀ s : State,
    (∀ x rest, s.inputs = .host x :: rest → step s = .next (transact { s with inputs := rest } x)) ∧
    (∀ rest, s.inputs = .reset :: rest → step s = .next (resetEvent { s with inputs := rest })) ∧
    (s.status.busy = false → s.inputs = [] → step s = .next s) ∧
    (∀ rest, s.status.busy = false → s.inputs = .engine :: rest → step s = .next { s with inputs := rest })

/-- R140, R142, over the model's schedule (logs 2 and 3): a call in two steps. The write of any word to `CMD` while idle
is accepted, legal or not, with exactly the writes of R140; then, for a command's word, the engine's slot is `exec`
of that command on the accepted state. -/
def Obligations.CallIsAcceptanceThenExec : Prop :=
  ∀ (s : State) (w : Word32) (rest : List Input), s.status.busy = false →
    s.inputs = .host (.write 0 32 w) :: .engine :: rest →
    ∃ a, step s = .next a ∧
      a = { s with
        cmd := w, status := { ready := s.status.ready, busy := true, done := false, err := false, errcode := 0 },
        inputs := .engine :: rest, answer := some .wrote } ∧
      ∀ i, decode w = .ok i → step a = exec i { a with inputs := rest }

/-- R104: an illegal word written to `CMD` while idle is accepted like any other, and the engine's step completes it as
`ILLEGAL`, before INIT as after it: nothing computed, no draw, `READY` and `K` kept, `PR` zero. -/
def Obligations.IllegalWordCompletesAsIllegal : Prop :=
  ∀ (s : State) (w : Word32), s.status.busy = false → w ∉ commandWords →
    ∃ a, hostWrite s 0x000 32 w = some a ∧
      a = { s with
        cmd := w, status := { ready := s.status.ready, busy := true, done := false, err := false, errcode := 0 } } ∧
      engineStep a = .next { s with
        cmd := w, pr := { tag := 0, x := 0, y := 0 },
        status := { ready := s.status.ready, busy := false, done := false, err := true, errcode := 5 } }

/-- R144: the common checks in their order. Legality first, whatever `READY` is; then every command but INIT needs `READY`
and without it completes as `NOTREADY`, reading no operand and drawing nothing. -/
def Obligations.CommonChecksInOrder : Prop :=
  ∀ s : State,
    (s.status.busy = true → (∀ i, decode s.cmd ≠ .ok i) → engineStep s = .next (failedWith s 5)) ∧
    (s.status.ready = false → ∀ i, i ≠ .init → exec i s = .next (failedWith s 6)) ∧
    (s.status.busy = true → s.status.ready = false → ∀ i, i ≠ .init → decode s.cmd = .ok i →
      engineStep s = .next (failedWith s 6))

/-- R145: INIT completes in every state; it sets `READY` and `DONE`, writes `PR <- (0, 0, 0)` and nothing else. -/
def Obligations.InitSetsReady : Prop :=
  ∀ s : State, exec .init s = .next { s with
    pr := { tag := 0, x := 0, y := 0 }, status := { s.status with ready := true, done := true, busy := false } }

/-! ## Field commands -/

/-- R173: FINV after INIT: `RANGE` for `PA_X ≥ p`, `NOINV` for 0, otherwise it completes with the one inverse of `PA_X`
modulo `p` in `PR_X`; nothing else is read or written. -/
def Obligations.FinvFollowsItsRule : Prop :=
  encode .finv = 0x00000020 ∧ ∀ s : State,
    (s.status.ready = false → exec .finv s = .next (failedWith s 6)) ∧
    (s.status.ready = true →
      (sm2.p ≤ s.pa.x.toNat → exec .finv s = .next (failedWith s 7)) ∧
      (s.pa.x.toNat = 0 → exec .finv s = .next (failedWith s 8)) ∧
      (0 < s.pa.x.toNat → s.pa.x.toNat < sm2.p →
        ∃ z : U256, exec .finv s = .next (doneWith s { tag := 0, x := z, y := 0 }) ∧
          z.toNat < sm2.p ∧ s.pa.x.toNat * z.toNat % sm2.p = 1))

/-- R174: FSQRT after INIT: `DECODE` for a tag other than `0x02` and `0x03`, then `RANGE` for `PA_X ≥ p`; otherwise it
completes with the square root of the wanted parity where there is one, and with `POINT` where there is none. -/
def Obligations.FsqrtFollowsItsRule : Prop :=
  encode .fsqrt = 0x00000021 ∧ ∀ s : State,
    (s.status.ready = false → exec .fsqrt s = .next (failedWith s 6)) ∧
    (s.status.ready = true →
      (s.pa.tag ≠ 0x02 → s.pa.tag ≠ 0x03 → exec .fsqrt s = .next (failedWith s 1)) ∧
      (s.pa.tag = 0x02 ∨ s.pa.tag = 0x03 →
        (sm2.p ≤ s.pa.x.toNat → exec .fsqrt s = .next (failedWith s 7)) ∧
        (s.pa.x.toNat < sm2.p →
          (∀ r, IsRoot s.pa.x.toNat r (wantsOdd s.pa) →
            exec .fsqrt s = .next (doneWith s { tag := 0, x := BitVec.ofNat 256 r, y := 0 })) ∧
          ((¬ ∃ r, IsRoot s.pa.x.toNat r (wantsOdd s.pa)) → exec .fsqrt s = .next (failedWith s 3)))))

/-- R161 to R165: on canonical operands the primitives are the ring operations of the integers modulo `p`, with canonical
results; negation of a non-zero element flips the parity. -/
def Obligations.FieldPrimitivesAreModular : Prop :=
  ∀ x y, x < sm2.p → y < sm2.p →
    (fadd sm2 x y < sm2.p ∧ fadd sm2 x y = if x + y < sm2.p then x + y else x + y - sm2.p) ∧
    (fsub sm2 x y < sm2.p ∧ fadd sm2 (fsub sm2 x y) y = x) ∧
    (fneg sm2 x < sm2.p ∧ fadd sm2 x (fneg sm2 x) = 0 ∧ (x ≠ 0 → fneg sm2 x % 2 = 1 - x % 2)) ∧
    (fmul sm2 x y < sm2.p ∧ ((fmul sm2 x y : Nat) : ZMod sm2.p) = x * y) ∧
    (fsqr sm2 x = fmul sm2 x x ∧ fsqr sm2 x < sm2.p ∧ ((fsqr sm2 x : Nat) : ZMod sm2.p) = (x : ZMod sm2.p) ^ 2 ∧
      fsqr sm2 x = fsqr sm2 (fneg sm2 x))

/-- R167: `finv` gives the unique inverse of a non-zero element and 0 for 0. -/
def Obligations.FinvIsTheUniqueInverse : Prop :=
  (∀ x, 0 < x → x < sm2.p →
    0 < finv sm2 x ∧ finv sm2 x < sm2.p ∧ fmul sm2 x (finv sm2 x) = 1 ∧
      ∀ z, z < sm2.p → fmul sm2 x z = 1 → z = finv sm2 x) ∧
  finv sm2 0 = 0 ∧ finv sm2 1 = 1 ∧ finv sm2 (sm2.p - 1) = sm2.p - 1 ∧ finv sm2 2 = (sm2.p + 1) / 2

/-- R168, R169: the candidate squares to `g` when `g` is a square and to `fneg g` when it is not; the square-back test,
being a square, and Euler's criterion agree; `p − 1` always fails. -/
def Obligations.ResidueTestIsExact : Prop :=
  (∀ g, g < sm2.p →
    (qrTest sm2 g (fsqrtCand sm2 g) = true ↔ ∃ r, r < sm2.p ∧ fsqr sm2 r = g) ∧
    (isQr sm2 g = true ↔ ∃ r, r < sm2.p ∧ fsqr sm2 r = g) ∧
    ((¬ ∃ r, r < sm2.p ∧ fsqr sm2 r = g) →
      fsqr sm2 (fsqrtCand sm2 g) = fneg sm2 g ∧ fexp sm2 g (eulerExponent sm2) = sm2.p - 1)) ∧
  fsqrtCand sm2 0 = 0 ∧ fsqrtCand sm2 1 = 1 ∧ isQr sm2 (sm2.p - 1) = false

/-! ## Points -/

/-- R8 items (1) to (6), for the constants of R9: primality, the discriminant, the base point and its order, and that the
curve has exactly `n` points, infinity among them. -/
def Obligations.CurveConstantsMeetTheConstraints : Prop := CurveConstraints sm2

/-- R199 items (1) to (3): the points of the curve are closed under `padd`, `pdbl` and `pneg`, and with `padd` they are a
commutative group with identity `INF` and inverse `pneg`; doubling is adding to itself. -/
def Obligations.PointsFormACommutativeGroup : Prop :=
  (∀ q r, isPoint sm2 q = true → isPoint sm2 r = true →
    isPoint sm2 (padd sm2 q r) = true ∧ isPoint sm2 (pdbl sm2 q) = true ∧ isPoint sm2 (pneg sm2 q) = true ∧
      padd sm2 q r = padd sm2 r q ∧ pdbl sm2 q = padd sm2 q q ∧
      padd sm2 .inf q = q ∧ padd sm2 q .inf = q ∧ padd sm2 q (pneg sm2 q) = .inf) ∧
  (∀ q r t, isPoint sm2 q = true → isPoint sm2 r = true → isPoint sm2 t = true →
    padd sm2 (padd sm2 q r) t = padd sm2 q (padd sm2 r t))

/-- R199 item (4), R237: a multiple of a point of the curve depends on the scalar only modulo `n`, and is infinity exactly
when the point is or `n` divides the scalar; so for the ladder too. -/
def Obligations.EveryPointHasOrderN : Prop :=
  ∀ q, isPoint sm2 q = true →
    (∀ k, nTimes sm2 k q = nTimes sm2 (k % sm2.n) q) ∧
    (∀ k, nTimes sm2 k q = .inf ↔ q = .inf ∨ sm2.n ∣ k) ∧
    (∀ k, k < 2 ^ 256 → ladder sm2 k q = nTimes sm2 (k % sm2.n) q)

/-- R197: the two pipelines, step by step, compute the general branches of `pdbl` and `padd`. -/
def Obligations.PipelinesComputeTheGroupLaw : Prop :=
  (∀ x y, x < sm2.p → y < sm2.p → y ≠ 0 →
    pdbl sm2 (.aff x y) = .aff (doublePipeline sm2 x y).1 (doublePipeline sm2 x y).2) ∧
  (∀ x1 y1 x2 y2, x1 < sm2.p → y1 < sm2.p → x2 < sm2.p → y2 < sm2.p → x1 ≠ x2 →
    padd sm2 (.aff x1 y1) (.aff x2 y2) =
      .aff (addPipeline sm2 x1 y1 x2 y2).1 (addPipeline sm2 x1 y1 x2 y2).2)

/-- R200: PCHK: `DECODE` for a tag other than `0x00` and `0x04`, `POINT` for a pair out of range or off the curve,
otherwise it completes; `PR` is zero either way. -/
def Obligations.PchkFollowsItsRule : Prop :=
  encode .pchk = 0x00000006 ∧ ∀ s : State,
    (s.status.ready = false → exec .pchk s = .next (failedWith s 6)) ∧
    (s.status.ready = true →
      (∀ code, OperandFails s.pa code → exec .pchk s = .next (failedWith s code)) ∧
      (GoodOperand s.pa → exec .pchk s = .next (doneWith s { tag := 0, x := 0, y := 0 })))

/-- R199 item (5) at the machine: after INIT, PCHK rejects every pair with `Y = 0`, whatever its X, so no operand a
command accepts has order two. -/
def Obligations.NoPointHasOrderTwo : Prop :=
  ∀ s : State, s.status.ready = true → s.pa.tag = 0x04 → s.pa.y = 0 → exec .pchk s = .next (failedWith s 3)

/-- R201: PADD: the error of `PA` first, then that of `PB`; infinity as an operand gives the other operand; opposite
points give infinity; equal points give what PDBL gives; two points with different X complete with the third point
of the chord, reflected. -/
def Obligations.PaddFollowsItsRule : Prop :=
  encode .padd = 0x00000011 ∧ ∀ s : State,
    (s.status.ready = false → exec .padd s = .next (failedWith s 6)) ∧
    (s.status.ready = true →
      (∀ code, OperandFails s.pa code → exec .padd s = .next (failedWith s code)) ∧
      (∀ code, GoodOperand s.pa → OperandFails s.pb code → exec .padd s = .next (failedWith s code)) ∧
      (GoodOperand s.pa → GoodOperand s.pb →
        (s.pa.tag = 0x00 → exec .padd s = .next (doneWith s (normalOperand s.pb))) ∧
        (s.pb.tag = 0x00 → exec .padd s = .next (doneWith s (normalOperand s.pa))) ∧
        (s.pa.tag = 0x04 → s.pb.tag = 0x04 →
          (s.pa.x = s.pb.x → s.pa.y ≠ s.pb.y →
            exec .padd s = .next (doneWith s { tag := 0, x := 0, y := 0 })) ∧
          (s.pa.x = s.pb.x → s.pa.y = s.pb.y → exec .padd s = exec .pdbl s) ∧
          (s.pa.x ≠ s.pb.x → ∃ x3 y3 : U256, ∃ lam : ZMod sm2.p,
            exec .padd s = .next (doneWith s { tag := 0x04, x := x3, y := y3 }) ∧
            IsCurvePair x3.toNat y3.toNat ∧
            lam * ((s.pb.x.toNat : ZMod sm2.p) - s.pa.x.toNat) = s.pb.y.toNat - s.pa.y.toNat ∧
            (x3.toNat : ZMod sm2.p) = lam ^ 2 - s.pa.x.toNat - s.pb.x.toNat ∧
            (y3.toNat : ZMod sm2.p) = lam * (s.pa.x.toNat - x3.toNat) - s.pa.y.toNat))))

/-- R202: PDBL: the operand's error; infinity gives infinity; a finite point completes with the second point of its
tangent, reflected, whatever the point: none has `Y = 0` (R199 item 5). -/
def Obligations.PdblFollowsItsRule : Prop :=
  encode .pdbl = 0x00000012 ∧ ∀ s : State,
    (s.status.ready = false → exec .pdbl s = .next (failedWith s 6)) ∧
    (s.status.ready = true →
      (∀ code, OperandFails s.pa code → exec .pdbl s = .next (failedWith s code)) ∧
      (s.pa.tag = 0x00 → exec .pdbl s = .next (doneWith s { tag := 0, x := 0, y := 0 })) ∧
      (s.pa.tag = 0x04 → IsCurvePair s.pa.x.toNat s.pa.y.toNat → ∃ x3 y3 : U256, ∃ lam : ZMod sm2.p,
        exec .pdbl s = .next (doneWith s { tag := 0x04, x := x3, y := y3 }) ∧
        IsCurvePair x3.toNat y3.toNat ∧
        lam * (2 * (s.pa.y.toNat : ZMod sm2.p)) = 3 * (s.pa.x.toNat : ZMod sm2.p) ^ 2 + sm2.a ∧
        (x3.toNat : ZMod sm2.p) = lam ^ 2 - 2 * s.pa.x.toNat ∧
        (y3.toNat : ZMod sm2.p) = lam * (s.pa.x.toNat - x3.toNat) - s.pa.y.toNat))

/-! ## The point codec -/

/-- R216: COMPRESS: tag `0x04` becomes `0x02` or `0x03` by the parity of `PA_Y`, with `PA_X` and a zero `Y`; any other tag
passes through with all three fields; nothing is checked. -/
def Obligations.CompressFollowsItsRule : Prop :=
  encode .compress = 0x00000004 ∧ ∀ s : State,
    (s.status.ready = false → exec .compress s = .next (failedWith s 6)) ∧
    (s.status.ready = true →
      (s.pa.tag ≠ 0x04 → exec .compress s = .next (doneWith s s.pa)) ∧
      (s.pa.tag = 0x04 → s.pa.y.toNat % 2 = 0 →
        exec .compress s = .next (doneWith s { tag := 0x02, x := s.pa.x, y := 0 })) ∧
      (s.pa.tag = 0x04 → s.pa.y.toNat % 2 = 1 →
        exec .compress s = .next (doneWith s { tag := 0x03, x := s.pa.x, y := 0 })))

/-- R218: DECOMPRESS: tag `0x04` passes through unchecked; a tag other than `0x02`, `0x03`, `0x04` is `DECODE`;
otherwise the point with that X and that parity where there is one, and `POINT` where there is none or `PA_X ≥ p`.
`PA_Y` is ignored. -/
def Obligations.DecompressFollowsItsRule : Prop :=
  encode .decompress = 0x00000005 ∧ ∀ s : State,
    (s.status.ready = false → exec .decompress s = .next (failedWith s 6)) ∧
    (s.status.ready = true →
      (s.pa.tag = 0x04 → exec .decompress s = .next (doneWith s s.pa)) ∧
      (s.pa.tag ≠ 0x02 → s.pa.tag ≠ 0x03 → s.pa.tag ≠ 0x04 → exec .decompress s = .next (failedWith s 1)) ∧
      (s.pa.tag = 0x02 ∨ s.pa.tag = 0x03 →
        (∀ y, IsCurvePair s.pa.x.toNat y → (y % 2 = 1 ↔ wantsOdd s.pa = true) →
          exec .decompress s = .next (doneWith s { tag := 0x04, x := s.pa.x, y := BitVec.ofNat 256 y })) ∧
        ((¬ ∃ y, IsCurvePair s.pa.x.toNat y ∧ (y % 2 = 1 ↔ wantsOdd s.pa = true)) →
          exec .decompress s = .next (failedWith s 3))))

/-- R219: the round trip. COMPRESS of a finite point of the curve, the result moved to `PA`, then DECOMPRESS, gives the
point back, both completing without error. -/
def Obligations.CompressThenDecompressIsIdentity : Prop :=
  ∀ s : State, s.status.ready = true → s.pa.tag = 0x04 → IsCurvePair s.pa.x.toNat s.pa.y.toNat →
    ∃ t u, exec .compress s = .next t ∧ exec .decompress { t with pa := t.pr } = .next u ∧
      u.pr = s.pa ∧ t.status.done = true ∧ u.status.done = true ∧ u.status.err = s.status.err

/-- R220: compressing twice is compressing once, and a successful result of DECOMPRESS decompresses to itself. -/
def Obligations.CodecIsIdempotent : Prop :=
  (∀ t : Triple, compressFn (compressFn t) = compressFn t) ∧
  (∀ pa t : Triple, decompressOutcome sm2 pa = .ok t → decompressOutcome sm2 t = .ok t)

/-! ## Scalar multiplication -/

/-- R237: for every scalar and every point of the curve the ladder gives the sum of that many copies of the point, which
is also what left-to-right double-and-add gives; of the base point it depends on the scalar only modulo `n`. -/
def Obligations.LadderIsTheScalarMultiple : Prop :=
  (∀ k q, k < 2 ^ 256 → isPoint sm2 q = true →
    ladder sm2 k q = nTimes sm2 k q ∧ dblAndAdd sm2 k q = nTimes sm2 k q ∧ isPoint sm2 (ladder sm2 k q) = true) ∧
  (∀ k, k < 2 ^ 256 → ladder sm2 k (basePoint sm2) = nTimes sm2 (k % sm2.n) (basePoint sm2))

/-- R236, R238: the sequencer keeps the ladder's invariant: after `j` iterations, four phases each, `R0 = k_i·P` and `R1
= (k_i + 1)·P` with `k_i` the top `j` bits of the scalar; it is at `SWAP1` of the next iteration, and in `OUT` after
256. -/
def Obligations.SequencerKeepsTheLadderInvariant : Prop :=
  ∀ (k : U256) (q : Point) (j : Nat), isPoint sm2 q = true → j ≤ 256 →
    (sequencerRun sm2 k (4 * j) (sequencerLoad q)).r0 = nTimes sm2 (k.toNat / 2 ^ (256 - j)) q ∧
    (sequencerRun sm2 k (4 * j) (sequencerLoad q)).r1 = nTimes sm2 (k.toNat / 2 ^ (256 - j) + 1) q ∧
    (j < 256 → (sequencerRun sm2 k (4 * j) (sequencerLoad q)).phase = .swap1 ∧
      (sequencerRun sm2 k (4 * j) (sequencerLoad q)).i.toNat = 255 - j) ∧
    (j = 256 → (sequencerRun sm2 k (4 * j) (sequencerLoad q)).phase = .out)

/-- R236, R238, one iteration from any state of the sequencer that meets the ladder's invariant, reached or not: at `SWAP1`
with index `i`, `R0 = k_(i+1)·P` and `R1 = (k_(i+1) + 1)·P` become, four phases later, `R0 = k_i·P` and `R1 = (k_i + 1)·P`, at
`SWAP1` of index `i - 1`, or in `OUT` after index 0. -/
def Obligations.SequencerIterationKeepsTheInvariant : Prop :=
  ∀ (k : U256) (q : Point) (t : Sequencer), isPoint sm2 q = true → t.phase = .swap1 →
    t.r0 = nTimes sm2 (k.toNat / 2 ^ (t.i.toNat + 1)) q → t.r1 = nTimes sm2 (k.toNat / 2 ^ (t.i.toNat + 1) + 1) q →
    (sequencerRun sm2 k 4 t).r0 = nTimes sm2 (k.toNat / 2 ^ t.i.toNat) q ∧
    (sequencerRun sm2 k 4 t).r1 = nTimes sm2 (k.toNat / 2 ^ t.i.toNat + 1) q ∧
    (t.i ≠ 0 → (sequencerRun sm2 k 4 t).phase = .swap1 ∧ (sequencerRun sm2 k 4 t).i = t.i - 1) ∧
    (t.i = 0 → (sequencerRun sm2 k 4 t).phase = .out)

/-- R235, R238: over any curve record and from any point, the sequencer's 1024 phases end in `OUT` with the ladder's
result in `R0`. -/
def Obligations.SequencerRunsTheLadder : Prop :=
  ∀ (c : Curve) (k : U256) (q : Point),
    (sequencerRun c k 1024 (sequencerLoad q)).phase = .out ∧
    (sequencerRun c k 1024 (sequencerLoad q)).i = 0 ∧
    (sequencerRun c k 1024 (sequencerLoad q)).r0 = ladder c k.toNat q

/-- R240: SMUL: the operand's error; otherwise it completes with `K·PA`, for every `K`, as the sum of `K` copies of the
point. -/
def Obligations.SmulFollowsItsRule : Prop :=
  encode .smul = 0x00000010 ∧ ∀ s : State,
    (s.status.ready = false → exec .smul s = .next (failedWith s 6)) ∧
    (s.status.ready = true →
      (∀ code, OperandFails s.pa code → exec .smul s = .next (failedWith s code)) ∧
      (GoodOperand s.pa →
        exec .smul s = .next (doneWith s (encodePoint (nTimes sm2 s.k.toNat (pointOf s.pa))))))

/-- R241, R245: PUBKEY: `SCALAR` for 0 and for `K ≥ n`; otherwise it completes with `K·G`, which is a finite point of the
curve. -/
def Obligations.PubkeyFollowsItsRule : Prop :=
  encode .pubkey = 0x00000002 ∧ ∀ s : State,
    (s.status.ready = false → exec .pubkey s = .next (failedWith s 6)) ∧
    (s.status.ready = true →
      (s.k.toNat = 0 ∨ sm2.n ≤ s.k.toNat → exec .pubkey s = .next (failedWith s 2)) ∧
      (1 ≤ s.k.toNat → s.k.toNat ≤ sm2.n - 1 → ∃ x y : U256,
        exec .pubkey s = .next (doneWith s { tag := 0x04, x := x, y := y }) ∧
        IsCurvePair x.toNat y.toNat ∧ .aff x.toNat y.toNat = nTimes sm2 s.k.toNat (basePoint sm2)))

/-- R243, R246: KEYGEN: no draw before INIT; one draw after it, and for every answer of the port: `ENTROPY` with `K` kept
when the draw fails, otherwise `K = (r mod (n − 1)) + 1`, a valid scalar, and `PR = K·G`, a finite point of the curve. -/
def Obligations.KeygenFollowsItsRule : Prop :=
  encode .keygen = 0x00000003 ∧ ∀ s : State,
    (s.status.ready = false → exec .keygen s = .next (failedWith s 6)) ∧
    (s.status.ready = true → ∀ d, nextAnswer s = some d →
      (d.ok = false → exec .keygen s = .next (failedWith (afterDraw s) 4)) ∧
      (d.ok = true → ∃ k x y : U256,
        exec .keygen s = .next { doneWith (afterDraw s) { tag := 0x04, x := x, y := y } with k := k } ∧
        k.toNat = d.r.toNat % (sm2.n - 1) + 1 ∧ 1 ≤ k.toNat ∧ k.toNat ≤ sm2.n - 1 ∧
        IsCurvePair x.toNat y.toNat ∧ .aff x.toNat y.toNat = nTimes sm2 k.toNat (basePoint sm2)))

/-- U13, R348 (model's choice, log 4): exec has no next state, by a fault or a refusal, exactly for KEYGEN after INIT where
the entropy port never answers; the stop is then the fault `entropySilent`. -/
def Obligations.OnlyASilentPortStops : Prop :=
  ∀ (i : Instr) (s : State),
    ((∀ t, exec i s ≠ .next t) ↔ i = .keygen ∧ s.status.ready = true ∧ nextAnswer s = none) ∧
    (i = .keygen → s.status.ready = true → nextAnswer s = none → exec i s = .fault .entropySilent)

/-- R244: a PUBKEY run on the `K` left by a successful KEYGEN reproduces the `PR` of that KEYGEN. -/
def Obligations.PubkeyReproducesKeygen : Prop :=
  ∀ (s t : State), s.status.ready = true → s.status.err = false → exec .keygen s = .next t → t.status.err = false →
    ∃ u, exec .pubkey t = .next u ∧ u.pr = t.pr ∧ u.k = t.k ∧ u.status.done = true ∧ u.status.err = false

/-! ## What completions write, read and raise -/

/-- R44, R102: the frame of every command. A completion never writes `CMD`, `PA`, `PB`, the schedule or the host's
answer; it ends the busy phase; `K` changes only by KEYGEN, `READY` only by INIT; it either reports `DONE`, or
reports `ERR` with `PR` zero, `K` and `READY` kept; a draw is made by KEYGEN with `READY` and by nothing else. -/
def Obligations.CompletionFrame : Prop :=
  ∀ (i : Instr) (s t : State), exec i s = .next t →
    t.cmd = s.cmd ∧ t.pa = s.pa ∧ t.pb = s.pb ∧ t.inputs = s.inputs ∧ t.answer = s.answer ∧ t.status.busy = false ∧
    (i ≠ .keygen → t.k = s.k) ∧ (i ≠ .init → t.status.ready = s.status.ready) ∧
    ((t.status.done = true ∧ t.status.err = s.status.err ∧ t.status.errcode = s.status.errcode) ∨
      (t.status.err = true ∧ t.status.done = s.status.done ∧ t.pr = { tag := 0, x := 0, y := 0 } ∧ t.k = s.k ∧
        t.status.ready = s.status.ready)) ∧
    (i = .keygen ∧ s.status.ready = true → t.draws = s.draws + 1) ∧
    (¬ (i = .keygen ∧ s.status.ready = true) → t.draws = s.draws ∧ t.entropy = s.entropy)

/-- R304, R309: an error completion has no effect but the zeroed `PR` and the report; on the port's side a failed KEYGEN
has drawn. -/
def Obligations.ErrorsArePrecise : Prop :=
  ∀ (i : Instr) (s t : State), s.status.err = false → exec i s = .next t → t.status.err = true →
    ∃ code, t = failedWith s code ∨ (i = .keygen ∧ t = failedWith (afterDraw s) code)

/-- R302: a command raises only the codes of its row. -/
def Obligations.CommandsRaiseOnlyTheirCodes : Prop :=
  ∀ (i : Instr) (s t : State), s.status.err = false → exec i s = .next t → t.status.err = true →
    t.status.errcode ∈ raisable i

/-- R102, R143: what a completion leaves in `PR` and `STATUS`, and in `K` after KEYGEN, depends on nothing but `STATUS`
and the registers of the command's "reads" row: states that agree on these complete alike. -/
def Obligations.OutcomeDependsOnlyOnTheOperandsRead : Prop :=
  ∀ (i : Instr) (s t s' : State), s.status = t.status → sameOperands i s t → exec i s = .next s' →
    ∃ t', exec i t = .next t' ∧ t'.pr = s'.pr ∧ t'.status = s'.status ∧
      (i = .keygen → s'.status.err = false → t'.k = s'.k)

/-- R319: repeating a command other than KEYGEN with the same operands gives the same result and the same report. -/
def Obligations.RepeatingACommandRepeatsItsOutcome : Prop :=
  ∀ (i : Instr) (s t : State), i ≠ .keygen → s.status.busy = false → exec i (accept s (encode i)) = .next t →
    ∃ u, exec i (accept t (encode i)) = .next u ∧ u.pr = t.pr ∧ u.status = t.status ∧ u.k = t.k

/-! ## Every step -/

/-- R43, R341: what reset leaves, by name. -/
def Obligations.ResetStateValues : Prop :=
  State.reset.cmd = 0 ∧ statusWord State.reset.status = 0 ∧ State.reset.k = 0 ∧
    State.reset.pa = { tag := 0, x := 0, y := 0 } ∧ State.reset.pb = { tag := 0, x := 0, y := 0 } ∧
    State.reset.pr = { tag := 0, x := 0, y := 0 } ∧
    (∀ i, i < 8 →
      hostRead State.reset (0x100 + 4 * i) 32 = some (wordOf (BitVec.ofNat 256 sm2.p) i) ∧
      hostRead State.reset (0x120 + 4 * i) 32 = some (wordOf (BitVec.ofNat 256 sm2.a) i) ∧
      hostRead State.reset (0x140 + 4 * i) 32 = some (wordOf (BitVec.ofNat 256 sm2.b) i) ∧
      hostRead State.reset (0x160 + 4 * i) 32 = some (wordOf (BitVec.ofNat 256 sm2.gx) i) ∧
      hostRead State.reset (0x180 + 4 * i) 32 = some (wordOf (BitVec.ofNat 256 sm2.gy) i) ∧
      hostRead State.reset (0x1A0 + 4 * i) 32 = some (wordOf (BitVec.ofNat 256 sm2.n) i) ∧
      hostRead State.reset (0x1C0 + 4 * i) 32 = some (wordOf (BitVec.ofNat 256 sm2.h) i))

/-- R340, R342: the reset event takes any state, busy or not, to the reset values; a running command leaves no trace. The
environment's side (schedule, port) is the model's (log 8). -/
def Obligations.ResetFromAnyState : Prop :=
  ∀ (s : State) (rest : List Input), s.inputs = .reset :: rest →
    step s = .next { State.reset with inputs := rest, entropy := s.entropy, draws := s.draws }

/-- R37 with R104, R144, R304: every step keeps the report invariant. -/
def Obligations.StepKeepsReportInv : Prop :=
  ∀ s t : State, ReportInv s → step s = .next t → ReportInv t

/-- R37: the report invariant holds at reset. -/
def Obligations.ResetHasReportInv : Prop := ReportInv State.reset

/-- 95_test_vectors.md, end of 2.8: wherever the report invariant holds, a read of `STATUS` returns one of the thirteen
words listed there. -/
def Obligations.StatusReadsAsOneOfThirteenWords : Prop :=
  ∀ s : State, ReportInv s → ∃ w, hostRead s 0x004 32 = some w ∧ w ∈ statusWords

/-- R37 item (4), R46: `READY`, once set, stays set until reset, whatever the host and the engine do. -/
def Obligations.ReadyStaysUntilReset : Prop :=
  ∀ s t : State, s.status.ready = true → step s = .next t → (∀ rest, s.inputs ≠ .reset :: rest) →
    t.status.ready = true

/-- R348, over the model's schedule (log 2: at its end the engine has every slot), with a port that answers. Every accepted
command completes: where no reset is scheduled, within one step of the schedule's end there is a state that is the completion
of this command (the engine's step on the state as it was, but for the schedule and the answer the host holds), with `BUSY`
clear and `DONE` or `ERR` set. Where a reset may end it (R342), the busy phase ends as soon. -/
def Obligations.EveryAcceptedCommandCompletes : Prop :=
  ∀ s : State, s.status.busy = true → PortEvent.silent ∉ s.entropy →
    (Input.reset ∉ s.inputs →
      ∃ m t rest ans, m ≤ s.inputs.length + 1 ∧ Host.Core.run Sys2Proof.core m s = .next t ∧
        engineStep { s with inputs := rest, answer := ans } = .next t ∧
        t.status.busy = false ∧ (t.status.done = true ∨ t.status.err = true)) ∧
    (∃ m t, m ≤ s.inputs.length + 1 ∧ Host.Core.run Sys2Proof.core m s = .next t ∧ t.status.busy = false)

/-- R37, R300, R348, over the model's schedule (logs 2 and 4): along every run from reset over any schedule the report
invariant holds and the machine never stops, as long as the port answers. -/
def Obligations.RunsFromResetNeverStop : Prop :=
  ∀ (inputs : List Input) (entropy : List PortEvent) (m : Nat), PortEvent.silent ∉ entropy →
    ∃ t, Host.Core.run Sys2Proof.core m { State.reset with inputs := inputs, entropy := entropy } = .next t ∧ ReportInv t

/-! ## Host software beside the block -/

/-- R267, R266, R269, R270: the host's codec: bytes survive the trip through hex, text survives the trip through hex of
its UTF-8 bytes, and padding never shortens. -/
def Obligations.HostCodecRoundTrips : Prop :=
  (∀ bytes : List (BitVec 8), hexToBytes (bytesToHex bytes) = .ok bytes) ∧
  (∀ text : List Char, hexToUtf8 (utf8ToHex text) = .ok text) ∧
  (∀ (hex : List Char) (width : Nat), (leftPad hex width).length = max hex.length width)

/-- R265, R113 (`CALL`), R73: the host software's call of a command goes through the window. On a running block its first
write is refused, and nothing of the block changes; on an idle one, for any number of polls, the caller gets the `STATUS` word
of the completion and the block is left in the completed state; where the command hangs the call has no result. What the
caller gets from a refusal, and the answer field, are the model's choice (logs 3 and 12). -/
def Obligations.HostCallsGoThroughTheWindow : Prop :=
  ∀ (m : Instr) (polls : Nat) (s : State),
    (s.status.busy = true → callBlock m polls s = some (.error .accessRefused, { s with answer := some .refused })) ∧
    (s.status.busy = false →
      (∀ t, exec m (accept s (encode m)) = .next t →
        callBlock m polls s =
          some (.ok (statusWord t.status), { t with answer := some (.word (statusWord t.status)) })) ∧
      (∀ r, exec m (accept s (encode m)) = .fault r → callBlock m polls s = none))

/-- R271: `initCurve` on an idle block, for any number of polls: the record of the constants, the base point and the order,
and the block left with `READY` and `DONE` set, `PR` zero, and its other registers as they were. The types of the three values
are the model's choice (log 19), and so is the schedule (log 2). -/
def Obligations.InitCurveLeavesTheBlockReady : Prop :=
  ∀ (polls : Nat) (s : State), s.status.busy = false →
    ∃ ans, initCurve polls s = some (.ok (sm2, basePoint sm2, sm2.n),
      { s with
        cmd := 0x00000001, pr := { tag := 0, x := 0, y := 0 },
        status := { ready := true, busy := false, done := true, err := false, errcode := 0 }, answer := ans })
end

