-- ==== Sys2Proof/Laws/Field.lean ====
section
/-! SUPPORT. The field primitives: their results are canonical (R160), and in `ZMod p` they are the ring's operations. -/

namespace Sys2Proof.Machine

open Sys2Proof.Config

variable {c : Curve} {x y : Nat}

theorem fadd_lt (hp : 0 < c.p) : fadd c x y < c.p := Nat.mod_lt _ hp

theorem fsub_lt (hx : x < c.p) (hy : y < c.p) : fsub c x y < c.p := by
  unfold fsub; split <;> omega

theorem fneg_lt (hp : 0 < c.p) (hx : x < c.p) : fneg c x < c.p := fsub_lt hp hx

theorem fmul_lt (hp : 0 < c.p) : fmul c x y < c.p := Nat.mod_lt _ hp

theorem fsqr_lt (hp : 0 < c.p) : fsqr c x < c.p := fmul_lt hp

theorem rhs_lt (hp : 0 < c.p) : rhs c x < c.p := fadd_lt hp

theorem fadd_cast (x y : Nat) : ((fadd c x y : Nat) : ZMod c.p) = x + y := by simp [fadd]

theorem fsub_cast (hy : y ≤ c.p) (x : Nat) : ((fsub c x y : Nat) : ZMod c.p) = x - y := by
  unfold fsub
  split
  · rename_i h
    rw [Nat.cast_sub h]
  · rw [Nat.cast_sub (by omega)]
    simp

theorem fneg_cast (hx : x ≤ c.p) : ((fneg c x : Nat) : ZMod c.p) = -x := by
  simp [fneg, fsub_cast hx]

theorem fmul_cast (x y : Nat) : ((fmul c x y : Nat) : ZMod c.p) = x * y := by simp [fmul]

theorem fsqr_cast (x : Nat) : ((fsqr c x : Nat) : ZMod c.p) = x ^ 2 := by simp [fsqr, fmul_cast, sq]

theorem rhs_cast (x : Nat) : ((rhs c x : Nat) : ZMod c.p) = x ^ 3 + c.a * x + c.b := by
  simp only [rhs, fadd_cast, fmul_cast, fsqr_cast]
  ring

theorem mod_two_pow_succ (e i : Nat) :
    e % 2 ^ (i + 1) = 2 ^ i * (if e.testBit i then 1 else 0) + e % 2 ^ i := by
  rw [Nat.mod_pow_succ, Nat.testBit_eq_decide_div_mod_eq]
  have := Nat.mod_lt (e / 2 ^ i) (show 0 < 2 by omega)
  by_cases h : e / 2 ^ i % 2 = 1
  · simp [h, add_comm]
  · simp [show e / 2 ^ i % 2 = 0 by omega]

theorem fexpLoop_lt (x e : Nat) (hp : 0 < c.p) : ∀ i r, r < c.p → fexpLoop c x e i r < c.p
  | 0, _, hr => hr
  | i + 1, r, _ => by
    simp only [fexpLoop]
    exact fexpLoop_lt x e hp i _ (by split <;> exact fmul_lt hp)

/-- The value of the loop of `fexp`: the bits of `e` below `i` are still to be read. -/
theorem fexpLoop_cast (x e : Nat) :
    ∀ i r, ((fexpLoop c x e i r : Nat) : ZMod c.p) = (r : ZMod c.p) ^ 2 ^ i * (x : ZMod c.p) ^ (e % 2 ^ i)
  | 0, r => by simp [fexpLoop, Nat.mod_one]
  | i + 1, r => by
    simp only [fexpLoop]
    rw [fexpLoop_cast x e i, mod_two_pow_succ]
    cases e.testBit i
    · simp only [Bool.false_eq_true, if_false, mul_zero, zero_add, fsqr_cast]
      ring
    · simp only [if_true, mul_one, fsqr_cast, fmul_cast]
      ring

theorem fexp_lt (x e : Nat) (hp : 1 < c.p) : fexp c x e < c.p := fexpLoop_lt x e (by omega) _ _ hp

theorem fexp_cast (x : Nat) {e : Nat} (he : e < 2 ^ 256) :
    ((fexp c x e : Nat) : ZMod c.p) = (x : ZMod c.p) ^ e := by
  rw [fexp, fexpLoop_cast, ladderBits, Nat.mod_eq_of_lt he, Nat.cast_one, one_pow, one_mul]

/-- `fexp` is the power modulo `p` (R166). -/
theorem fexp_eq (x : Nat) {e : Nat} (hp : 1 < c.p) (he : e < 2 ^ 256) : fexp c x e = x ^ e % c.p := by
  have h : ((fexp c x e : Nat) : ZMod c.p) = ((x ^ e : Nat) : ZMod c.p) := by
    rw [fexp_cast x he, Nat.cast_pow]
  rw [ZMod.natCast_eq_natCast_iff', Nat.mod_eq_of_lt (fexp_lt x e hp)] at h
  exact h

end Sys2Proof.Machine
end

