-- ==== Sys2Proof/Laws/Primes.lean ====
section
/-! SUPPORT. The modulus `p` and the order `n` of R9 are prime (R8, items 1 and 5), by Lucas's test down a tree of
factorisations of `q - 1`. -/

namespace Sys2Proof.Machine

open Sys2Proof.Config

/-- A curve record used only for its modulus, so that `fexp` computes powers modulo `q`. -/
def powMod (q x e : Nat) : Nat := fexp { sm2 with p := q } x e

theorem powMod_cast {q x e : Nat} (he : e < 2 ^ 256) : ((powMod q x e : Nat) : ZMod q) = (x : ZMod q) ^ e :=
  fexp_cast (c := { sm2 with p := q }) x he

/-- Lucas's test with the computed powers: `fs` lists the prime factors of `q - 1`. -/
theorem prime_of_lucas (q x : Nat) (fs : List Nat) (hq : 2 ≤ q ∧ q - 1 < 2 ^ 256) (hfs : fs.Forall Nat.Prime)
    (hprod : fs.prod = q - 1) (h1 : powMod q x (q - 1) = 1)
    (h2 : ∀ f ∈ fs, powMod q x ((q - 1) / f) ≠ 1) : q.Prime := by
  have : NeZero q := ⟨by omega⟩
  have hf := List.forall_iff_forall_mem.1 hfs
  refine lucas_primality q (x : ZMod q) ?_ ?_
  · rw [← powMod_cast hq.2, h1, Nat.cast_one]
  · intro r hr hdvd
    rw [← hprod] at hdvd
    obtain ⟨f, hfm, hrf⟩ := (hr.prime.dvd_prod_iff).1 hdvd
    have hrf' : r = f := (Nat.prime_dvd_prime_iff_eq hr (hf f hfm)).1 hrf
    subst hrf'
    intro hone
    refine h2 r hfm ?_
    rw [← powMod_cast (lt_of_le_of_lt (Nat.div_le_self _ _) hq.2)] at hone
    have hlt : powMod q x ((q - 1) / r) < q := fexp_lt (c := { sm2 with p := q }) x _ (by show 1 < q; omega)
    have h := (ZMod.natCast_eq_natCast_iff' _ 1 q).1 (by rw [hone, Nat.cast_one])
    rwa [Nat.mod_eq_of_lt hlt, Nat.mod_eq_of_lt (by omega)] at h

theorem prime_3079049 : Nat.Prime 3079049 := by
  refine prime_of_lucas _ 3 [2, 2, 2, 7, 54983] (by decide +kernel) ?_ (by decide +kernel) (by decide +kernel) (by decide +kernel)
  exact ⟨by norm_num, by norm_num, by norm_num, by norm_num, by norm_num⟩

theorem prime_6158099 : Nat.Prime 6158099 := by
  refine prime_of_lucas _ 2 [2, 3079049] (by decide +kernel) ?_ (by decide +kernel) (by decide +kernel) (by decide +kernel)
  exact ⟨by norm_num, prime_3079049⟩

theorem prime_8214737 : Nat.Prime 8214737 := by
  refine prime_of_lucas _ 3 [2, 2, 2, 2, 67, 79, 97] (by decide +kernel) ?_ (by decide +kernel) (by decide +kernel) (by decide +kernel)
  exact ⟨by norm_num, by norm_num, by norm_num, by norm_num, by norm_num, by norm_num, by norm_num⟩

theorem prime_9061163 : Nat.Prime 9061163 := by
  refine prime_of_lucas _ 2 [2, 11, 71, 5801] (by decide +kernel) ?_ (by decide +kernel) (by decide +kernel) (by decide +kernel)
  exact ⟨by norm_num, by norm_num, by norm_num, by norm_num⟩

theorem prime_10042883 : Nat.Prime 10042883 := by
  refine prime_of_lucas _ 2 [2, 1013, 4957] (by decide +kernel) ?_ (by decide +kernel) (by decide +kernel) (by decide +kernel)
  exact ⟨by norm_num, by norm_num, by norm_num⟩

theorem prime_17965699 : Nat.Prime 17965699 := by
  refine prime_of_lucas _ 2 [2, 3, 71, 181, 233] (by decide +kernel) ?_ (by decide +kernel) (by decide +kernel) (by decide +kernel)
  exact ⟨by norm_num, by norm_num, by norm_num, by norm_num, by norm_num⟩

theorem prime_107615843 : Nat.Prime 107615843 := by
  refine prime_of_lucas _ 2 [2, 43, 103, 12149] (by decide +kernel) ?_ (by decide +kernel) (by decide +kernel) (by decide +kernel)
  exact ⟨by norm_num, by norm_num, by norm_num, by norm_num⟩

theorem prime_117774739 : Nat.Prime 117774739 := by
  refine prime_of_lucas _ 2 [2, 3, 3, 59, 110899] (by decide +kernel) ?_ (by decide +kernel) (by decide +kernel) (by decide +kernel)
  exact ⟨by norm_num, by norm_num, by norm_num, by norm_num, by norm_num⟩

theorem prime_1413296869 : Nat.Prime 1413296869 := by
  refine prime_of_lucas _ 6 [2, 2, 3, 117774739] (by decide +kernel) ?_ (by decide +kernel) (by decide +kernel) (by decide +kernel)
  exact ⟨by norm_num, by norm_num, by norm_num, prime_117774739⟩

theorem prime_2566129871 : Nat.Prime 2566129871 := by
  refine prime_of_lucas _ 7 [2, 5, 3049, 84163] (by decide +kernel) ?_ (by decide +kernel) (by decide +kernel) (by decide +kernel)
  exact ⟨by norm_num, by norm_num, by norm_num, by norm_num⟩

theorem prime_3017783777 : Nat.Prime 3017783777 := by
  refine prime_of_lucas _ 3 [2, 2, 2, 2, 2, 7, 7, 337, 5711] (by decide +kernel) ?_ (by decide +kernel) (by decide +kernel) (by decide +kernel)
  exact ⟨by norm_num, by norm_num, by norm_num, by norm_num, by norm_num, by norm_num, by norm_num, by norm_num, by norm_num⟩

theorem prime_348253387243 : Nat.Prime 348253387243 := by
  refine prime_of_lucas _ 3 [2, 3, 61, 5303, 179429] (by decide +kernel) ?_ (by decide +kernel) (by decide +kernel) (by decide +kernel)
  exact ⟨by norm_num, by norm_num, by norm_num, by norm_num, by norm_num⟩

theorem prime_2368433183657 : Nat.Prime 2368433183657 := by
  refine prime_of_lucas _ 3 [2, 2, 2, 41, 719, 10042883] (by decide +kernel) ?_ (by decide +kernel) (by decide +kernel) (by decide +kernel)
  exact ⟨by norm_num, by norm_num, by norm_num, by norm_num, by norm_num, prime_10042883⟩

theorem prime_4641351449027 : Nat.Prime 4641351449027 := by
  refine prime_of_lucas _ 2 [2, 769, 3017783777] (by decide +kernel) ?_ (by decide +kernel) (by decide +kernel) (by decide +kernel)
  exact ⟨by norm_num, by norm_num, prime_3017783777⟩

theorem prime_5636460199499 : Nat.Prime 5636460199499 := by
  refine prime_of_lucas _ 2 [2, 31, 79, 127, 9061163] (by decide +kernel) ?_ (by decide +kernel) (by decide +kernel) (by decide +kernel)
  exact ⟨by norm_num, by norm_num, by norm_num, by norm_num, prime_9061163⟩

theorem prime_101456283590983 : Nat.Prime 101456283590983 := by
  refine prime_of_lucas _ 3 [2, 3, 3, 5636460199499] (by decide +kernel) ?_ (by decide +kernel) (by decide +kernel) (by decide +kernel)
  exact ⟨by norm_num, by norm_num, by norm_num, prime_5636460199499⟩

theorem prime_417514796639753 : Nat.Prime 417514796639753 := by
  refine prime_of_lucas _ 3 [2, 2, 2, 7, 367, 2473, 8214737] (by decide +kernel) ?_ (by decide +kernel) (by decide +kernel) (by decide +kernel)
  exact ⟨by norm_num, by norm_num, by norm_num, by norm_num, by norm_num, by norm_num, prime_8214737⟩

theorem prime_3258964060712033 : Nat.Prime 3258964060712033 := by
  refine prime_of_lucas _ 3 [2, 2, 2, 2, 2, 43, 2368433183657] (by decide +kernel) ?_ (by decide +kernel) (by decide +kernel) (by decide +kernel)
  exact ⟨by norm_num, by norm_num, by norm_num, by norm_num, by norm_num, by norm_num, prime_2368433183657⟩

theorem prime_4773264379806847 : Nat.Prime 4773264379806847 := by
  refine prime_of_lucas _ 3 [2, 3, 7, 11, 823, 34511, 363761] (by decide +kernel) ?_ (by decide +kernel) (by decide +kernel) (by decide +kernel)
  exact ⟨by norm_num, by norm_num, by norm_num, by norm_num, by norm_num, by norm_num, by norm_num⟩

theorem prime_66013261729388519804782124120027 : Nat.Prime 66013261729388519804782124120027 := by
  refine prime_of_lucas _ 2 [2, 13, 1213, 71209, 6158099, 4773264379806847] (by decide +kernel) ?_ (by decide +kernel) (by decide +kernel) (by decide +kernel)
  exact ⟨by norm_num, by norm_num, by norm_num, by norm_num, prime_6158099, prime_4773264379806847⟩

theorem prime_18120927127286907576013935251791662753637 : Nat.Prime 18120927127286907576013935251791662753637 := by
  refine prime_of_lucas _ 6 [2, 2, 3, 3, 17965699, 107615843, 2566129871, 101456283590983] (by decide +kernel) ?_ (by decide +kernel) (by decide +kernel) (by decide +kernel)
  exact ⟨by norm_num, by norm_num, by norm_num, by norm_num, prime_17965699, prime_107615843, prime_2566129871, prime_101456283590983⟩

theorem prime_125197554539772723432468576818475380947471091418362477724521 : Nat.Prime 125197554539772723432468576818475380947471091418362477724521 := by
  refine prime_of_lucas _ 3 [2, 2, 2, 5, 53, 3258964060712033, 18120927127286907576013935251791662753637] (by decide +kernel) ?_ (by decide +kernel) (by decide +kernel) (by decide +kernel)
  exact ⟨by norm_num, by norm_num, by norm_num, by norm_num, by norm_num, prime_3258964060712033, prime_18120927127286907576013935251791662753637⟩

theorem sm2_n_prime_lit : Nat.Prime 115792089210356248756420345214020892766061623724957744567843809356293439045923 := by
  refine prime_of_lucas _ 3 [2, 3, 7759, 14057, 1413296869, 125197554539772723432468576818475380947471091418362477724521] (by decide +kernel) ?_ (by decide +kernel) (by decide +kernel) (by decide +kernel)
  exact ⟨by norm_num, by norm_num, by norm_num, by norm_num, prime_1413296869, prime_125197554539772723432468576818475380947471091418362477724521⟩

theorem sm2_p_prime_lit : Nat.Prime 115792089210356248756420345214020892766250353991924191454421193933289684991999 := by
  refine prime_of_lucas _ 13 [2, 43, 30223, 348253387243, 4641351449027, 417514796639753, 66013261729388519804782124120027] (by decide +kernel) ?_ (by decide +kernel) (by decide +kernel) (by decide +kernel)
  exact ⟨by norm_num, by norm_num, by norm_num, prime_348253387243, prime_4641351449027, prime_417514796639753, prime_66013261729388519804782124120027⟩

/-- R8 item 1. -/
theorem sm2_p_prime : Nat.Prime sm2.p := sm2_p_prime_lit

/-- R8 item 5. -/
theorem sm2_n_prime : Nat.Prime sm2.n := sm2_n_prime_lit

end Sys2Proof.Machine
end

