-- ==== Sys2Proof/Laws/Cubic.lean ====
section
/-! SUPPORT. The cubic `x³ + a·x + b` has no root modulo `p` (R8 items 5 and 6; R199 item 5): modulo the cubic, `x^p - x` is
invertible, while every residue is a root of it. -/

namespace Sys2Proof.Machine

open Sys2Proof.Config

/-- A polynomial of degree below 3, by its coefficients from the constant up. -/
structure Quad where
  c0 : Nat
  c1 : Nat
  c2 : Nat
deriving DecidableEq, Repr

/-- The product modulo the cubic. -/
def quadMul (c : Curve) (u v : Quad) : Quad :=
  let d3 := u.c1 * v.c2 + u.c2 * v.c1
  let d4 := u.c2 * v.c2
  { c0 := (u.c0 * v.c0 + (c.p - c.b) * d3) % c.p,
    c1 := (u.c0 * v.c1 + u.c1 * v.c0 + (c.p - c.a) * d3 + (c.p - c.b) * d4) % c.p,
    c2 := (u.c0 * v.c2 + u.c1 * v.c1 + u.c2 * v.c0 + (c.p - c.a) * d4) % c.p }

/-- `r^(2^i) · x^(e mod 2^i)` modulo the cubic. -/
def quadPow (c : Curve) (e : Nat) : Nat → Quad → Quad
  | 0, r => r
  | i + 1, r =>
    let q := quadMul c r r
    quadPow c e i (if e.testBit i then quadMul c q { c0 := 0, c1 := 1, c2 := 0 } else q)

/-- The value at a residue. -/
def quadEval (c : Curve) (u : Quad) (x : ZMod c.p) : ZMod c.p := u.c0 + u.c1 * x + u.c2 * x ^ 2

theorem quadEval_mul {c : Curve} (ha : c.a ≤ c.p) (hb : c.b ≤ c.p) (u v : Quad) {x : ZMod c.p}
    (hx : x ^ 3 + c.a * x + c.b = 0) : quadEval c (quadMul c u v) x = quadEval c u x * quadEval c v x := by
  simp only [quadEval, quadMul, ZMod.natCast_mod, Nat.cast_add, Nat.cast_mul, Nat.cast_sub ha, Nat.cast_sub hb,
    ZMod.natCast_self]
  linear_combination
    (-(u.c1 * v.c2 + u.c2 * v.c1 : ZMod c.p) - u.c2 * v.c2 * x) * hx

theorem quadEval_pow {c : Curve} (ha : c.a ≤ c.p) (hb : c.b ≤ c.p) (e : Nat) {x : ZMod c.p}
    (hx : x ^ 3 + c.a * x + c.b = 0) :
    ∀ i r, quadEval c (quadPow c e i r) x = quadEval c r x ^ 2 ^ i * x ^ (e % 2 ^ i)
  | 0, r => by simp [quadPow, Nat.mod_one]
  | i + 1, r => by
    have h1 : quadEval c { c0 := 0, c1 := 1, c2 := 0 } x = x := by simp [quadEval]
    simp only [quadPow]
    rw [quadEval_pow ha hb e hx i, mod_two_pow_succ]
    cases e.testBit i
    · simp only [Bool.false_eq_true, if_false, mul_zero, zero_add, quadEval_mul ha hb _ _ hx]
      ring
    · simp only [if_true, mul_one, quadEval_mul ha hb _ _ hx, h1]
      ring

/-- The inverse of `x^p - x` modulo the cubic. -/
def quadWitness : Quad where
  c0 := 106557179798172127300574136655860231618341984660982404479791742557385015191369
  c1 := 84996361976986330174717689059298811725079258493181573729141059899368768071857
  c2 := 35585630630933897022180037835235642085639273520660122098341330484096648951663

theorem quadWitness_spec :
    let r := quadPow sm2 sm2.p 256 { c0 := 1, c1 := 0, c2 := 0 }
    quadMul sm2 quadWitness { r with c1 := r.c1 + (sm2.p - 1) } = { c0 := 1, c1 := 0, c2 := 0 } := by
  decide +kernel

/-- No residue is a root of the cubic. -/
theorem cubic_ne_zero (x : ZMod sm2.p) : x ^ 3 + sm2.a * x + sm2.b ≠ 0 := by
  intro hx
  have : Fact sm2.p.Prime := ⟨sm2_p_prime⟩
  have ha : sm2.a ≤ sm2.p := by decide
  have hb : sm2.b ≤ sm2.p := by decide
  have hpow := quadEval_pow ha hb sm2.p hx 256 { c0 := 1, c1 := 0, c2 := 0 }
  have hspec := congrArg (fun u => quadEval sm2 u x) quadWitness_spec
  generalize quadPow sm2 sm2.p 256 { c0 := 1, c1 := 0, c2 := 0 } = r at hpow hspec
  rw [Nat.mod_eq_of_lt (show sm2.p < 2 ^ 256 by decide), ZMod.pow_card] at hpow
  rw [quadEval_mul ha hb _ _ hx] at hspec
  have hp1 : ((sm2.p - 1 : Nat) : ZMod sm2.p) = -1 := by
    rw [Nat.cast_sub (by decide), ZMod.natCast_self]
    simp
  simp only [quadEval, Nat.cast_add, hp1, Nat.cast_zero, Nat.cast_one] at hpow hspec
  have h0 : (r.c0 : ZMod sm2.p) + (r.c1 + -1) * x + r.c2 * x ^ 2 = 0 := by
    linear_combination hpow
  rw [h0] at hspec
  simp at hspec

/-- The right-hand side of the curve equation is never 0 (R199 item 5). -/
theorem rhs_ne_zero (x : Nat) : rhs sm2 x ≠ 0 := by
  intro h
  have := rhs_cast (c := sm2) x
  rw [h, Nat.cast_zero] at this
  exact cubic_ne_zero _ this.symm

end Sys2Proof.Machine
end

