-- ==== Sys2Proof/Laws/Group.lean ====
section
/-! SUPPORT. The engine's points beside the group of nonsingular points that Mathlib builds over `ZMod p`: `padd`, `pdbl` and
`pneg` (R195, R196, R203) are that group's operations on the points they represent. -/

namespace Sys2Proof.Machine

open Sys2Proof.Config

/-- What R8 items (1) to (3) ask of a curve record, as far as the group law needs it. -/
structure CurveOk (c : Curve) : Prop where
  two_lt : 2 < c.p
  lt : c.p < 2 ^ 256
  disc : 4 * (c.a : ZMod c.p) ^ 3 + 27 * (c.b : ZMod c.p) ^ 2 ≠ 0

/-- The curve `y² = x³ + a·x + b` over `ZMod p`. -/
def affineCurve (c : Curve) : WeierstrassCurve.Affine (ZMod c.p) :=
  { a₁ := 0, a₂ := 0, a₃ := 0, a₄ := c.a, a₆ := c.b }

variable {c : Curve} [Fact c.p.Prime]

/-- An engine's point stands for a point of `affineCurve`: infinity for zero, canonical coordinates for their residues. -/
def Represents (c : Curve) [Fact c.p.Prime] : Point → (affineCurve c).Point → Prop
  | .inf, .zero => True
  | .aff x y, .some X Y _ => x < c.p ∧ y < c.p ∧ (x : ZMod c.p) = X ∧ (y : ZMod c.p) = Y
  | _, _ => False

theorem cast_inj_of_lt {x y : Nat} (hx : x < c.p) (hy : y < c.p) : (x : ZMod c.p) = y ↔ x = y := by
  rw [ZMod.natCast_eq_natCast_iff', Nat.mod_eq_of_lt hx, Nat.mod_eq_of_lt hy]

/-- `finv` is the inverse of the field, 0 for 0 (R167). -/
theorem finv_cast (hc : CurveOk c) (x : Nat) : ((finv c x : Nat) : ZMod c.p) = (x : ZMod c.p)⁻¹ := by
  have h2 := hc.two_lt
  have hlt := hc.lt
  rw [finv, fexp_cast x (show invExponent c < 2 ^ 256 by unfold invExponent; omega)]
  by_cases hx : (x : ZMod c.p) = 0
  · rw [hx, inv_zero, zero_pow (by unfold invExponent; omega)]
  · refine eq_inv_of_mul_eq_one_left ?_
    rw [← pow_succ, show invExponent c + 1 = c.p - 1 by unfold invExponent; omega]
    exact ZMod.pow_card_sub_one_eq_one hx

theorem two_ne_zero_of_ok (hc : CurveOk c) : (2 : ZMod c.p) ≠ 0 := by
  intro h
  have h' : ((2 : Nat) : ZMod c.p) = ((0 : Nat) : ZMod c.p) := by simpa using h
  have := hc.two_lt
  rw [cast_inj_of_lt this (by omega)] at h'
  omega

theorem affineCurve_disc (hc : CurveOk c) : (affineCurve c).Δ ≠ 0 := by
  have : (affineCurve c).Δ = -(2 ^ 4) * (4 * (c.a : ZMod c.p) ^ 3 + 27 * (c.b : ZMod c.p) ^ 2) := by
    simp only [affineCurve, WeierstrassCurve.Δ, WeierstrassCurve.b₂, WeierstrassCurve.b₄, WeierstrassCurve.b₆,
      WeierstrassCurve.b₈]
    ring
  rw [this]
  exact mul_ne_zero (neg_ne_zero.2 (pow_ne_zero _ (two_ne_zero_of_ok hc))) hc.disc

theorem onCurve_iff (x y : Nat) :
    onCurve c x y = true ↔ (y : ZMod c.p) ^ 2 = (x : ZMod c.p) ^ 3 + c.a * x + c.b := by
  have hp : 0 < c.p := (Fact.out : c.p.Prime).pos
  rw [onCurve, beq_iff_eq, ← cast_inj_of_lt (fsqr_lt hp) (rhs_lt hp), fsqr_cast, rhs_cast]

theorem nonsingular_iff (hc : CurveOk c) (x y : Nat) :
    (affineCurve c).Nonsingular (x : ZMod c.p) y ↔ onCurve c x y = true := by
  rw [← WeierstrassCurve.Affine.equation_iff_nonsingular_of_Δ_ne_zero (W := affineCurve c) (affineCurve_disc hc),
    WeierstrassCurve.Affine.equation_iff, onCurve_iff]
  simp [affineCurve]

/-- Every `Point` of R190 represents a point of the group. -/
theorem exists_represents (hc : CurveOk c) {q : Point} (h : isPoint c q = true) : ∃ P, Represents c q P := by
  cases q with
  | inf => exact ⟨.zero, trivial⟩
  | aff x y =>
    simp only [isPoint, Bool.and_eq_true, decide_eq_true_eq] at h
    exact ⟨.some _ _ ((nonsingular_iff hc x y).2 h.2), h.1.1, h.1.2, rfl, rfl⟩

/-- What represents a point of the group is a `Point` of R190. -/
theorem isPoint_of_represents (hc : CurveOk c) {q : Point} {P : (affineCurve c).Point} (h : Represents c q P) :
    isPoint c q = true := by
  cases q <;> cases P <;> simp only [Represents] at h
  · rfl
  · rename_i x y X Y hn
    obtain ⟨hx, hy, rfl, rfl⟩ := h
    simp [isPoint, hx, hy, (nonsingular_iff hc x y).1 hn]

/-- A point of the group has one representative. -/
theorem represents_unique {q r : Point} {P : (affineCurve c).Point} (hq : Represents c q P) (hr : Represents c r P) :
    q = r := by
  cases q <;> cases r <;> cases P <;> simp only [Represents] at hq hr
  · rfl
  · rename_i x y x' y' X Y hn
    obtain ⟨hx, hy, rfl, rfl⟩ := hq
    obtain ⟨hx', hy', e1, e2⟩ := hr
    rw [(cast_inj_of_lt hx' hx).1 e1, (cast_inj_of_lt hy' hy).1 e2]

/-- A `Point` represents one point of the group. -/
theorem represents_functional {q : Point} {P Q : (affineCurve c).Point} (hP : Represents c q P)
    (hQ : Represents c q Q) : P = Q := by
  cases q <;> cases P <;> cases Q <;> simp only [Represents] at hP hQ
  · rfl
  · obtain ⟨-, -, rfl, rfl⟩ := hP
    obtain ⟨-, -, rfl, rfl⟩ := hQ
    rfl

theorem represents_inf {P : (affineCurve c).Point} (h : Represents c .inf P) : P = 0 := by
  cases P <;> simp only [Represents] at h
  rfl

theorem represents_zero {q : Point} (h : Represents c q 0) : q = .inf := by
  cases q
  · rfl
  · exact h.elim

/-- `pneg` is the group's negation (R203). -/
theorem represents_pneg {q : Point} {P : (affineCurve c).Point} (h : Represents c q P) :
    Represents c (pneg c q) (-P) := by
  have hp : 0 < c.p := (Fact.out : c.p.Prime).pos
  cases q <;> cases P <;> simp only [Represents] at h
  · trivial
  · rename_i x y X Y hn
    obtain ⟨hx, hy, rfl, rfl⟩ := h
    refine ⟨hx, fneg_lt hp hy, rfl, ?_⟩
    rw [fneg_cast hy.le]
    simp [WeierstrassCurve.Affine.negY, affineCurve]

/-- The group law's coordinates from a slope, in the order the engine computes them (R195, R196). -/
theorem represents_slope {x1 y1 x2 lam : Nat} (hx1 : x1 < c.p) (hy1 : y1 < c.p) (hx2 : x2 < c.p)
    {L : ZMod c.p} (hl : (lam : ZMod c.p) = L)
    (hn : (affineCurve c).Nonsingular ((affineCurve c).addX (x1 : ZMod c.p) x2 L)
      ((affineCurve c).addY (x1 : ZMod c.p) x2 y1 L)) :
    Represents c
      (.aff (fsub c (fsub c (fsqr c lam) x1) x2)
        (fsub c (fmul c lam (fsub c x1 (fsub c (fsub c (fsqr c lam) x1) x2))) y1))
      (.some _ _ hn) := by
  have hp : 0 < c.p := (Fact.out : c.p.Prime).pos
  have hx3 : fsub c (fsub c (fsqr c lam) x1) x2 < c.p := fsub_lt (fsub_lt (fsqr_lt hp) hx1) hx2
  have e3 : ((fsub c (fsub c (fsqr c lam) x1) x2 : Nat) : ZMod c.p) = L ^ 2 - x1 - x2 := by
    rw [fsub_cast hx2.le, fsub_cast hx1.le, fsqr_cast, hl]
  refine ⟨hx3, fsub_lt (fmul_lt hp) hy1, ?_, ?_⟩
  · rw [e3]
    simp [WeierstrassCurve.Affine.addX, affineCurve]
  · rw [fsub_cast hy1.le, fmul_cast, fsub_cast hx3.le, e3, hl]
    simp only [WeierstrassCurve.Affine.addY, WeierstrassCurve.Affine.negAddY, WeierstrassCurve.Affine.negY,
      WeierstrassCurve.Affine.addX, affineCurve]
    ring

/-- `pdbl` is adding a point to itself in the group (R195). -/
theorem represents_pdbl (hc : CurveOk c) {q : Point} {P : (affineCurve c).Point} (h : Represents c q P) :
    Represents c (pdbl c q) (P + P) := by
  cases q <;> cases P <;> simp only [Represents] at h
  · trivial
  · rename_i x y X Y hn
    obtain ⟨hx, hy, rfl, rfl⟩ := h
    have hneg : (affineCurve c).negY (x : ZMod c.p) y = -(y : ZMod c.p) := by
      simp [WeierstrassCurve.Affine.negY, affineCurve]
    by_cases h0 : y = 0
    · subst h0
      rw [WeierstrassCurve.Affine.Point.add_self_of_Y_eq (by rw [hneg]; simp)]
      simp only [pdbl, if_true]
      trivial
    · have hy0 : (y : ZMod c.p) ≠ 0 := by
        intro h
        exact h0 ((cast_inj_of_lt hy (Fact.out : c.p.Prime).pos).1 (by simpa using h))
      have hne : (y : ZMod c.p) ≠ (affineCurve c).negY (x : ZMod c.p) y := by
        rw [hneg]
        intro h
        have : (2 : ZMod c.p) * y = 0 := by linear_combination h
        rcases mul_eq_zero.1 this with h | h
        · exact two_ne_zero_of_ok hc h
        · exact hy0 h
      rw [WeierstrassCurve.Affine.Point.add_self_of_Y_ne hne]
      simp only [pdbl, if_neg h0]
      refine represents_slope hx hy hx ?_ _
      rw [WeierstrassCurve.Affine.slope_of_Y_ne rfl hne, hneg, fmul_cast, finv_cast hc, fadd_cast, fadd_cast, fmul_cast,
        fsqr_cast, div_eq_mul_inv]
      simp [affineCurve]

/-- `padd` is the group's addition (R196). -/
theorem represents_padd (hc : CurveOk c) {q r : Point} {P Q : (affineCurve c).Point} (hP : Represents c q P)
    (hQ : Represents c r Q) : Represents c (padd c q r) (P + Q) := by
  cases q with
  | inf =>
    rw [represents_inf hP, zero_add]
    exact hQ
  | aff x1 y1 =>
    cases r with
    | inf =>
      rw [represents_inf hQ, add_zero]
      exact hP
    | aff x2 y2 =>
      by_cases hx : x1 = x2
      · by_cases hy : y1 = y2
        · subst hx hy
          rw [represents_functional hQ hP]
          simpa only [padd, if_true] using represents_pdbl hc hP
        · cases P <;> cases Q <;> simp only [Represents] at hP hQ
          rename_i X1 Y1 hn1 X2 Y2 hn2
          obtain ⟨hx1, hy1, rfl, rfl⟩ := hP
          obtain ⟨hx2, hy2, rfl, rfl⟩ := hQ
          have hxc : (x1 : ZMod c.p) = x2 := by rw [hx]
          have hYne : (y1 : ZMod c.p) ≠ y2 := fun e => hy ((cast_inj_of_lt hy1 hy2).1 e)
          rcases WeierstrassCurve.Affine.Y_eq_of_X_eq hn1.1 hn2.1 hxc with e | e
          · exact (hYne e).elim
          · rw [WeierstrassCurve.Affine.Point.add_of_Y_eq hxc e]
            simp only [padd, if_pos hx, if_neg hy]
            trivial
      · cases P <;> cases Q <;> simp only [Represents] at hP hQ
        rename_i X1 Y1 hn1 X2 Y2 hn2
        obtain ⟨hx1, hy1, rfl, rfl⟩ := hP
        obtain ⟨hx2, hy2, rfl, rfl⟩ := hQ
        have hxc : (x1 : ZMod c.p) ≠ x2 := fun e => hx ((cast_inj_of_lt hx1 hx2).1 e)
        rw [WeierstrassCurve.Affine.Point.add_of_X_ne hxc]
        simp only [padd, if_neg hx]
        refine represents_slope hx1 hy1 hx2 ?_ _
        rw [WeierstrassCurve.Affine.slope_of_X_ne hxc, fmul_cast, finv_cast hc, fsub_cast hy1.le, fsub_cast hx1.le,
          ← neg_sub (y1 : ZMod c.p), ← neg_sub (x1 : ZMod c.p), inv_neg, neg_mul_neg, div_eq_mul_inv]

/-- The record of R9 meets the hypotheses (R8, items 1 to 3). -/
theorem sm2_ok : CurveOk sm2 where
  two_lt := by decide
  lt := by decide
  disc := by
    have h : ((4 * sm2.a ^ 3 + 27 * sm2.b ^ 2 : Nat) : ZMod sm2.p) ≠ 0 := by
      rw [Ne, ZMod.natCast_eq_zero_iff]
      decide +kernel
    simpa using h

end Sys2Proof.Machine
end

