-- ==== Sys2Proof/Laws/Operands.lean ====
section
/-! SUPPORT. What the operand forms and the root solver can answer (R110, R170, R193, R217), each said once. -/

namespace Sys2Proof.Machine

open Sys2Proof.Config

/-- Everything an accepted arithmetic operand says (R193). -/
theorem loadPoint_ok {c : Curve} {t : Triple} {q : Point} (h : loadPoint c t = .ok q) :
    (t.tag = 0x00 ∧ q = .inf) ∨
      (t.tag = 0x04 ∧ q = .aff t.x.toNat t.y.toNat ∧ isPoint c q = true) := by
  unfold loadPoint at h
  split at h
  · exact .inl ⟨‹_›, by simpa using h.symm⟩
  · split at h
    · cases h
    · split at h
      · cases h
      · split at h
        · cases h
        · rename_i h0 h4 hr hc
          cases h
          refine .inr ⟨by simpa using h4, rfl, ?_⟩
          simp only [isPoint, Bool.and_eq_true, decide_eq_true_eq]
          exact ⟨by omega, by simpa using hc⟩

/-- Everything a rejected arithmetic operand says (R193): the tag decides between the two codes. -/
theorem loadPoint_error {c : Curve} {t : Triple} {e : Err} (h : loadPoint c t = .error e) :
    (e = .decode ∧ t.tag ≠ 0x00 ∧ t.tag ≠ 0x04) ∨
      (e = .point ∧ t.tag = 0x04 ∧ isPoint c (.aff t.x.toNat t.y.toNat) = false) := by
  unfold loadPoint at h
  split at h
  · cases h
  · split at h
    · exact .inl ⟨by simpa using h.symm, ‹_›, ‹_›⟩
    · rename_i h4
      have h4 : t.tag = 0x04 := by simpa using h4
      split at h
      · rename_i hr
        refine .inr ⟨by simpa using h.symm, h4, ?_⟩
        simp only [isPoint, Bool.and_eq_false_iff, decide_eq_false_iff_not]
        omega
      · split at h
        · rename_i hc
          exact .inr ⟨by simpa using h.symm, h4, by simp [isPoint, hc]⟩
        · cases h

/-- The field operand: below `p`, or `RANGE` (R173, R174). -/
theorem fieldOperand_cases (c : Curve) (t : Triple) :
    (t.x.toNat < c.p ∧ fieldOperand c t = .ok t.x.toNat) ∨ (c.p ≤ t.x.toNat ∧ fieldOperand c t = .error .range) := by
  unfold fieldOperand
  split
  · exact .inr ⟨‹_›, rfl⟩
  · exact .inl ⟨by omega, rfl⟩

/-- Everything `solve_root` can answer (R170). -/
theorem solveRoot_cases (c : Curve) (g : Nat) (par : Bool) :
    (qrTest c g (fsqrtCand c g) = false ∧ solveRoot c g par = .error .point) ∨
    (qrTest c g (fsqrtCand c g) = true ∧ parity (fsqrtCand c g) = par ∧ solveRoot c g par = .ok (fsqrtCand c g)) ∨
    (qrTest c g (fsqrtCand c g) = true ∧ parity (fsqrtCand c g) ≠ par ∧ fsqrtCand c g = 0 ∧
      solveRoot c g par = .error .point) ∨
    (qrTest c g (fsqrtCand c g) = true ∧ parity (fsqrtCand c g) ≠ par ∧ fsqrtCand c g ≠ 0 ∧
      solveRoot c g par = .ok (fneg c (fsqrtCand c g))) := by
  simp only [solveRoot]
  generalize fsqrtCand c g = r
  by_cases h1 : qrTest c g r = true
  · by_cases h2 : parity r = par
    · exact .inr (.inl ⟨h1, h2, by simp [h1, h2]⟩)
    · by_cases h3 : r = 0
      · exact .inr (.inr (.inl ⟨h1, h2, h3, by rw [if_neg (by simp [h1]), if_neg h2, if_pos h3]⟩))
      · exact .inr (.inr (.inr ⟨h1, h2, h3, by simp [h1, h2, h3]⟩))
  · have h1 : qrTest c g r = false := by simpa using h1
    exact .inl ⟨h1, by simp [h1]⟩

/-- `solve_root` fails only with `POINT` (R170). -/
theorem solveRoot_error {c : Curve} {g : Nat} {par : Bool} {e : Err} (h : solveRoot c g par = .error e) :
    e = .point := by
  rcases solveRoot_cases c g par with ⟨-, hs⟩ | ⟨-, -, hs⟩ | ⟨-, -, -, hs⟩ | ⟨-, -, -, hs⟩ <;> rw [hs] at h <;> cases h <;> rfl

/-- `recover_y` fails only with `POINT` (R217). -/
theorem recoverY_error {c : Curve} {x : Nat} {par : Bool} {e : Err} (h : recoverY c x par = .error e) :
    e = .point := by
  unfold recoverY at h
  split at h
  · cases h; rfl
  · exact solveRoot_error h

end Sys2Proof.Machine
end

