-- ==== Sys2Proof/Laws/State.lean ====
section
/-! SUPPORT. What each named update of the state leaves in each field: one lemma a field, true by rfl, so that no later
proof unfolds a record update. -/

namespace Sys2Proof.Machine

@[simp] theorem accept_cmd (s : State) (w : Word32) : (accept s w).cmd = w := rfl
@[simp] theorem accept_status (s : State) (w : Word32) : (accept s w).status = statusAccepted s.status := rfl
@[simp] theorem accept_k (s : State) (w : Word32) : (accept s w).k = s.k := rfl
@[simp] theorem accept_pa (s : State) (w : Word32) : (accept s w).pa = s.pa := rfl
@[simp] theorem accept_pb (s : State) (w : Word32) : (accept s w).pb = s.pb := rfl
@[simp] theorem accept_pr (s : State) (w : Word32) : (accept s w).pr = s.pr := rfl
@[simp] theorem accept_inputs (s : State) (w : Word32) : (accept s w).inputs = s.inputs := rfl
@[simp] theorem accept_answer (s : State) (w : Word32) : (accept s w).answer = s.answer := rfl
@[simp] theorem accept_entropy (s : State) (w : Word32) : (accept s w).entropy = s.entropy := rfl
@[simp] theorem accept_draws (s : State) (w : Word32) : (accept s w).draws = s.draws := rfl

@[simp] theorem takeError_cmd (s : State) (e : Err) : (takeError s e).cmd = s.cmd := rfl
@[simp] theorem takeError_status (s : State) (e : Err) : (takeError s e).status = statusFailed s.status e := rfl
@[simp] theorem takeError_k (s : State) (e : Err) : (takeError s e).k = s.k := rfl
@[simp] theorem takeError_pa (s : State) (e : Err) : (takeError s e).pa = s.pa := rfl
@[simp] theorem takeError_pb (s : State) (e : Err) : (takeError s e).pb = s.pb := rfl
@[simp] theorem takeError_pr (s : State) (e : Err) : (takeError s e).pr = zeroTriple := rfl
@[simp] theorem takeError_inputs (s : State) (e : Err) : (takeError s e).inputs = s.inputs := rfl
@[simp] theorem takeError_answer (s : State) (e : Err) : (takeError s e).answer = s.answer := rfl
@[simp] theorem takeError_entropy (s : State) (e : Err) : (takeError s e).entropy = s.entropy := rfl
@[simp] theorem takeError_draws (s : State) (e : Err) : (takeError s e).draws = s.draws := rfl

@[simp] theorem completeInit_cmd (s : State) : (completeInit s).cmd = s.cmd := rfl
@[simp] theorem completeInit_status (s : State) : (completeInit s).status = statusReady (statusDone s.status) := rfl
@[simp] theorem completeInit_k (s : State) : (completeInit s).k = s.k := rfl
@[simp] theorem completeInit_pa (s : State) : (completeInit s).pa = s.pa := rfl
@[simp] theorem completeInit_pb (s : State) : (completeInit s).pb = s.pb := rfl
@[simp] theorem completeInit_pr (s : State) : (completeInit s).pr = zeroTriple := rfl
@[simp] theorem completeInit_inputs (s : State) : (completeInit s).inputs = s.inputs := rfl
@[simp] theorem completeInit_answer (s : State) : (completeInit s).answer = s.answer := rfl
@[simp] theorem completeInit_entropy (s : State) : (completeInit s).entropy = s.entropy := rfl
@[simp] theorem completeInit_draws (s : State) : (completeInit s).draws = s.draws := rfl

@[simp] theorem resetEvent_cmd (s : State) : (resetEvent s).cmd = 0 := rfl
@[simp] theorem resetEvent_status (s : State) : (resetEvent s).status = State.reset.status := rfl
@[simp] theorem resetEvent_k (s : State) : (resetEvent s).k = 0 := rfl
@[simp] theorem resetEvent_pa (s : State) : (resetEvent s).pa = zeroTriple := rfl
@[simp] theorem resetEvent_pb (s : State) : (resetEvent s).pb = zeroTriple := rfl
@[simp] theorem resetEvent_pr (s : State) : (resetEvent s).pr = zeroTriple := rfl
@[simp] theorem resetEvent_inputs (s : State) : (resetEvent s).inputs = s.inputs := rfl
@[simp] theorem resetEvent_answer (s : State) : (resetEvent s).answer = none := rfl
@[simp] theorem resetEvent_entropy (s : State) : (resetEvent s).entropy = s.entropy := rfl
@[simp] theorem resetEvent_draws (s : State) : (resetEvent s).draws = s.draws := rfl

@[simp] theorem complete_ok_cmd (s : State) (t : Triple) : (complete s (.ok t)).cmd = s.cmd := rfl
@[simp] theorem complete_ok_status (s : State) (t : Triple) : (complete s (.ok t)).status = statusDone s.status := rfl
@[simp] theorem complete_ok_k (s : State) (t : Triple) : (complete s (.ok t)).k = s.k := rfl
@[simp] theorem complete_ok_pa (s : State) (t : Triple) : (complete s (.ok t)).pa = s.pa := rfl
@[simp] theorem complete_ok_pb (s : State) (t : Triple) : (complete s (.ok t)).pb = s.pb := rfl
@[simp] theorem complete_ok_pr (s : State) (t : Triple) : (complete s (.ok t)).pr = t := rfl
@[simp] theorem complete_ok_inputs (s : State) (t : Triple) : (complete s (.ok t)).inputs = s.inputs := rfl
@[simp] theorem complete_ok_answer (s : State) (t : Triple) : (complete s (.ok t)).answer = s.answer := rfl
@[simp] theorem complete_ok_entropy (s : State) (t : Triple) : (complete s (.ok t)).entropy = s.entropy := rfl
@[simp] theorem complete_ok_draws (s : State) (t : Triple) : (complete s (.ok t)).draws = s.draws := rfl

@[simp] theorem complete_okK_cmd (s : State) (t : Triple) (k : U256) : (complete s (.okK t k)).cmd = s.cmd := rfl
@[simp] theorem complete_okK_status (s : State) (t : Triple) (k : U256) : (complete s (.okK t k)).status = statusDone s.status := rfl
@[simp] theorem complete_okK_k (s : State) (t : Triple) (k : U256) : (complete s (.okK t k)).k = k := rfl
@[simp] theorem complete_okK_pa (s : State) (t : Triple) (k : U256) : (complete s (.okK t k)).pa = s.pa := rfl
@[simp] theorem complete_okK_pb (s : State) (t : Triple) (k : U256) : (complete s (.okK t k)).pb = s.pb := rfl
@[simp] theorem complete_okK_pr (s : State) (t : Triple) (k : U256) : (complete s (.okK t k)).pr = t := rfl
@[simp] theorem complete_okK_inputs (s : State) (t : Triple) (k : U256) : (complete s (.okK t k)).inputs = s.inputs := rfl
@[simp] theorem complete_okK_answer (s : State) (t : Triple) (k : U256) : (complete s (.okK t k)).answer = s.answer := rfl
@[simp] theorem complete_okK_entropy (s : State) (t : Triple) (k : U256) : (complete s (.okK t k)).entropy = s.entropy := rfl
@[simp] theorem complete_okK_draws (s : State) (t : Triple) (k : U256) : (complete s (.okK t k)).draws = s.draws := rfl

@[simp] theorem complete_fail (s : State) (e : Err) : complete s (.fail e) = takeError s e := rfl

@[simp] theorem statusAccepted_ready (st : Status) : (statusAccepted st).ready = st.ready := rfl
@[simp] theorem statusAccepted_busy (st : Status) : (statusAccepted st).busy = true := rfl
@[simp] theorem statusAccepted_done (st : Status) : (statusAccepted st).done = false := rfl
@[simp] theorem statusAccepted_err (st : Status) : (statusAccepted st).err = false := rfl
@[simp] theorem statusAccepted_errcode (st : Status) : (statusAccepted st).errcode = 0 := rfl

@[simp] theorem statusDone_ready (st : Status) : (statusDone st).ready = st.ready := rfl
@[simp] theorem statusDone_busy (st : Status) : (statusDone st).busy = false := rfl
@[simp] theorem statusDone_done (st : Status) : (statusDone st).done = true := rfl
@[simp] theorem statusDone_err (st : Status) : (statusDone st).err = st.err := rfl
@[simp] theorem statusDone_errcode (st : Status) : (statusDone st).errcode = st.errcode := rfl

@[simp] theorem statusFailed_ready (st : Status) (e : Err) : (statusFailed st e).ready = st.ready := rfl
@[simp] theorem statusFailed_busy (st : Status) (e : Err) : (statusFailed st e).busy = false := rfl
@[simp] theorem statusFailed_done (st : Status) (e : Err) : (statusFailed st e).done = st.done := rfl
@[simp] theorem statusFailed_err (st : Status) (e : Err) : (statusFailed st e).err = true := rfl
@[simp] theorem statusFailed_errcode (st : Status) (e : Err) : (statusFailed st e).errcode = errCode e := rfl

@[simp] theorem statusReady_ready (st : Status) : (statusReady st).ready = true := rfl
@[simp] theorem statusReady_busy (st : Status) : (statusReady st).busy = st.busy := rfl
@[simp] theorem statusReady_done (st : Status) : (statusReady st).done = st.done := rfl
@[simp] theorem statusReady_err (st : Status) : (statusReady st).err = st.err := rfl
@[simp] theorem statusReady_errcode (st : Status) : (statusReady st).errcode = st.errcode := rfl

end Sys2Proof.Machine
end

