-- ==== Sys2Proof/Laws/Window.lean ====
section
/-! SUPPORT. The window's small lemmas: the words of a 256-bit register (R12, R73), where an offset lies (R71), and once
everything a host access can do. -/

namespace Sys2Proof.Machine

open Sys2Proof.Config

/-- A written word reads back. -/
theorem wordOf_setWord_same (v : U256) (i : Nat) (w : Word32) (hi : i < 8) : wordOf (setWord v i w) i = w := by
  ext j hj
  simp only [wordOf, setWord, BitVec.getElem_extractLsb', BitVec.getLsbD_or, BitVec.getLsbD_and, BitVec.getLsbD_not,
    BitVec.getLsbD_shiftLeft, BitVec.getLsbD_setWidth, BitVec.getLsbD_allOnes]
  have h1 : 224 - 32 * i + j < 256 := by omega
  have h2 : 224 - 32 * i + j - (224 - 32 * i) = j := by omega
  have h3 : ¬ 224 - 32 * i + j < 224 - 32 * i := by omega
  simp [h1, h2, h3, hj, show j < 256 by omega]

/-- The other words keep their value. -/
theorem wordOf_setWord_other (v : U256) (i j : Nat) (w : Word32) (hi : i < 8) (hj : j < 8) (h : j ≠ i) :
    wordOf (setWord v i w) j = wordOf v j := by
  ext m hm
  simp only [wordOf, setWord, BitVec.getElem_extractLsb', BitVec.getLsbD_or, BitVec.getLsbD_and, BitVec.getLsbD_not,
    BitVec.getLsbD_shiftLeft, BitVec.getLsbD_setWidth, BitVec.getLsbD_allOnes]
  have h1 : 224 - 32 * j + m < 256 := by omega
  by_cases hlt : 224 - 32 * j + m < 224 - 32 * i
  · simp [h1, hlt]
  · have h32 : ¬ 224 - 32 * j + m - (224 - 32 * i) < 32 := by omega
    have hz : w.getLsbD (224 - 32 * j + m - (224 - 32 * i)) = false := BitVec.getLsbD_of_ge _ _ (by omega)
    simp [h1, hlt, h32, hz]

/-- Two 256-bit values with the same eight words are equal. -/
theorem eq_of_words {u v : U256} (h : ∀ i, i < 8 → wordOf u i = wordOf v i) : u = v := by
  ext j hj
  have hw := congrArg (fun x : Word32 => x.getLsbD (j % 32)) (h (7 - j / 32) (by omega))
  simp only [wordOf, BitVec.getLsbD_extractLsb'] at hw
  have e : 224 - 32 * (7 - j / 32) + j % 32 = j := by omega
  rw [e] at hw
  simpa [Nat.mod_lt j (show 0 < 32 by omega), BitVec.getLsbD_eq_getElem hj] using hw

/-- Where an offset lies: a word of the register the map gives (R71). -/
theorem locate_some {off : Nat} {r : Reg} {i : Nat} (h : locate off = some (r, i)) :
    off = regOffset r + 4 * i ∧ i < regWords r := by
  unfold locate at h
  split at h
  · rename_i h4
    rw [Option.map_eq_some_iff] at h
    obtain ⟨q, hq, he⟩ := h
    have hp := List.find?_some hq
    simp only [Bool.and_eq_true, decide_eq_true_eq] at hp
    cases he
    have h0 : regOffset r % 4 = 0 := by cases r <;> rfl
    omega
  · cases h

/-- The map finds each word of each register (R71). -/
theorem locate_word (r : Reg) (i : Nat) (h : i < regWords r) : locate (regOffset r + 4 * i) = some (r, i) := by
  cases r <;> simp only [regWords] at h <;> interval_cases i <;> rfl

/-- Everything an admitted read says (R72). -/
theorem hostRead_some {s : State} {off width : Nat} {w : Word32} (h : hostRead s off width = some w) :
    ∃ r i, width = 32 ∧ off = regOffset r + 4 * i ∧ i < regWords r ∧
      (s.status.busy = false ∨ regReadableBusy r = true) ∧ w = regWord s i r := by
  unfold hostRead at h
  split at h
  · rename_i hw
    split at h
    · cases h
    · rename_i r i hl
      split at h
      · cases h
      · rename_i hb
        obtain ⟨h1, h2⟩ := locate_some hl
        refine ⟨r, i, hw.1, h1, h2, ?_, (Option.some.inj h).symm⟩
        cases hs : s.status.busy <;> simp_all
  · cases h

/-- Everything an admitted write says (R73). -/
theorem hostWrite_some {s t : State} {off width : Nat} {w : Word32} (h : hostWrite s off width w = some t) :
    ∃ r i, width = 32 ∧ off = regOffset r + 4 * i ∧ i < regWords r ∧ s.status.busy = false ∧
      writeReg s i w r = some t := by
  unfold hostWrite at h
  split at h
  · rename_i hw
    split at h
    · cases h
    · rename_i r i hl
      split at h
      · cases h
      · rename_i hb
        obtain ⟨h1, h2⟩ := locate_some hl
        exact ⟨r, i, hw.1, h1, h2, by simpa using hb, h⟩
  · cases h

/-- An offset of the map lies in the window. -/
theorem regOffset_lt_window (r : Reg) (i : Nat) (h : i < regWords r) : regOffset r + 4 * i < windowSize := by
  cases r <;> simp only [regWords] at h <;> simp only [regOffset, windowSize] <;> omega

/-- A read of a word of a register, where it is admitted (R72). -/
theorem hostRead_word (s : State) (r : Reg) (i : Nat) (h : i < regWords r)
    (hb : s.status.busy = false ∨ regReadableBusy r = true) :
    hostRead s (regOffset r + 4 * i) 32 = some (regWord s i r) := by
  have := regOffset_lt_window r i h
  rcases hb with hb | hb <;> simp [hostRead, locate_word r i h, this, hb]

/-- A write of a word of a register with no command running (R73). -/
theorem hostWrite_word (s : State) (r : Reg) (i : Nat) (w : Word32) (h : i < regWords r)
    (hb : s.status.busy = false) : hostWrite s (regOffset r + 4 * i) 32 w = writeReg s i w r := by
  have := regOffset_lt_window r i h
  simp [hostWrite, locate_word r i h, this, hb]

end Sys2Proof.Machine
end

