-- ==== Sys2Proof/Laws/Step.lean ====
section
/-! SUPPORT. Once everything a shared operation, a command and a step can do; later proofs cite these and unfold nothing. -/

namespace Sys2Proof.Machine

open Sys2Proof.Config

/-- Everything a draw can do (R246). -/
theorem entropyDraw_some {s t : State} {d : Draw} (h : entropyDraw s = some (d, t)) :
    t = { s with entropy := s.entropy.tail, draws := s.draws + 1 } ∧
      (s.entropy = [] ∧ d = entropyAnswer s.draws ∨ s.entropy.head? = some (.answers d)) := by
  unfold entropyDraw at h
  split at h
  · rename_i he
    cases h
    exact ⟨by simp [he], .inl ⟨he, rfl⟩⟩
  · rename_i d' rest he
    cases h
    exact ⟨by simp [he], .inr (by simp [he])⟩
  · cases h

/-- An outcome that does not write `K` and does not raise the codes of the common checks (R143, R144). -/
def CmdOutcome.own : CmdOutcome → Prop
  | .ok _ => True
  | .okK _ _ => False
  | .fail e => e ≠ .illegal ∧ e ≠ .notReady

theorem own_of_loadPoint_error {c : Curve} {t : Triple} {e : Err} (h : loadPoint c t = .error e) :
    (CmdOutcome.fail e).own := by
  rcases loadPoint_error h with ⟨rfl, -⟩ | ⟨rfl, -⟩ <;> simp [CmdOutcome.own]

theorem own_of_solveRoot_error {c : Curve} {g : Nat} {par : Bool} {e : Err} (h : solveRoot c g par = .error e) :
    (CmdOutcome.fail e).own := by
  rw [solveRoot_error h]
  simp [CmdOutcome.own]

theorem pubkeyOutcome_own (c : Curve) (k : U256) : (pubkeyOutcome c k).own := by
  unfold pubkeyOutcome
  split <;> simp [CmdOutcome.own]

theorem compressOutcome_own (t : Triple) : (compressOutcome t).own := trivial

theorem decompressOutcome_own (c : Curve) (t : Triple) : (decompressOutcome c t).own := by
  unfold decompressOutcome
  split
  · trivial
  · split
    · simp [CmdOutcome.own]
    · split
      · rename_i h
        rw [recoverY_error h]
        simp [CmdOutcome.own]
      · trivial

theorem pchkOutcome_own (c : Curve) (t : Triple) : (pchkOutcome c t).own := by
  unfold pchkOutcome
  split
  · exact own_of_loadPoint_error ‹_›
  · trivial

theorem smulOutcome_own (c : Curve) (k : U256) (t : Triple) : (smulOutcome c k t).own := by
  unfold smulOutcome
  split
  · exact own_of_loadPoint_error ‹_›
  · trivial

theorem pdblOutcome_own (c : Curve) (t : Triple) : (pdblOutcome c t).own := by
  unfold pdblOutcome
  split
  · exact own_of_loadPoint_error ‹_›
  · trivial

theorem paddOutcome_own (c : Curve) (t u : Triple) : (paddOutcome c t u).own := by
  unfold paddOutcome
  split
  · exact own_of_loadPoint_error ‹_›
  · split
    · exact own_of_loadPoint_error ‹_›
    · trivial

theorem finvOutcome_own (c : Curve) (t : Triple) : (finvOutcome c t).own := by
  unfold finvOutcome
  rcases fieldOperand_cases c t with ⟨-, h⟩ | ⟨-, h⟩ <;> rw [h]
  · simp only
    split <;> simp [CmdOutcome.own]
  · simp [CmdOutcome.own]

theorem fsqrtOutcome_own (c : Curve) (t : Triple) : (fsqrtOutcome c t).own := by
  unfold fsqrtOutcome
  split
  · simp [CmdOutcome.own]
  · rcases fieldOperand_cases c t with ⟨-, h⟩ | ⟨-, h⟩ <;> rw [h]
    · simp only
      split
      · exact own_of_solveRoot_error ‹_›
      · trivial
    · simp [CmdOutcome.own]

/-- Everything a command can do: INIT completes; before INIT the others are `NOTREADY`; after it the command's own outcome
is completed, KEYGEN's after one draw (R142, R143, R144). -/
theorem exec_next {i : Instr} {s t : State} (h : exec i s = .next t) :
    (i = .init ∧ t = completeInit s) ∨
    (i ≠ .init ∧ s.status.ready = false ∧ t = takeError s .notReady) ∨
    (i ≠ .init ∧ i ≠ .keygen ∧ s.status.ready = true ∧ ∃ o, o.own ∧ t = complete s o) ∨
    (i = .keygen ∧ s.status.ready = true ∧ ∃ d u, entropyDraw s = some (d, u) ∧
      t = complete u (keygenOutcome sm2 d)) := by
  have key : ∀ o : CmdOutcome, o.own → completeReady s o = t → (i ≠ .init ∧ i ≠ .keygen) →
      (i ≠ .init ∧ s.status.ready = false ∧ t = takeError s .notReady) ∨
      (i ≠ .init ∧ i ≠ .keygen ∧ s.status.ready = true ∧ ∃ o, o.own ∧ t = complete s o) := by
    intro o ho hc hi
    cases hr : s.status.ready
    · exact .inl ⟨hi.1, rfl, by simpa [completeReady, hr] using hc.symm⟩
    · exact .inr ⟨hi.1, hi.2, rfl, o, ho, by simpa [completeReady, hr] using hc.symm⟩
  cases i
  case init => exact .inl ⟨rfl, by simpa [exec, execInit] using h.symm⟩
  case keygen =>
    simp only [exec, execKeygen] at h
    split at h
    · rename_i hr
      split at h
      · cases h
      · rename_i d u hd
        exact .inr (.inr (.inr ⟨rfl, hr, d, u, hd, by simpa using h.symm⟩))
    · rename_i hr
      exact .inr (.inl ⟨by simp, by simpa using hr, by simpa using h.symm⟩)
  case pubkey => exact .inr ((key _ (pubkeyOutcome_own _ _) (by simpa [exec, execPubkey] using h) (by simp)).imp id .inl)
  case compress => exact .inr ((key _ (compressOutcome_own _) (by simpa [exec, execCompress] using h) (by simp)).imp id .inl)
  case decompress => exact .inr ((key _ (decompressOutcome_own _ _) (by simpa [exec, execDecompress] using h) (by simp)).imp id .inl)
  case pchk => exact .inr ((key _ (pchkOutcome_own _ _) (by simpa [exec, execPchk] using h) (by simp)).imp id .inl)
  case smul => exact .inr ((key _ (smulOutcome_own _ _ _) (by simpa [exec, execSmul] using h) (by simp)).imp id .inl)
  case padd => exact .inr ((key _ (paddOutcome_own _ _ _) (by simpa [exec, execPadd] using h) (by simp)).imp id .inl)
  case pdbl => exact .inr ((key _ (pdblOutcome_own _ _) (by simpa [exec, execPdbl] using h) (by simp)).imp id .inl)
  case finv => exact .inr ((key _ (finvOutcome_own _ _) (by simpa [exec, execFinv] using h) (by simp)).imp id .inl)
  case fsqrt => exact .inr ((key _ (fsqrtOutcome_own _ _) (by simpa [exec, execFsqrt] using h) (by simp)).imp id .inl)

/-- A command never refuses, and stops only where the entropy port never answers (U13). -/
theorem exec_stop {i : Instr} {s : State} (h : ∀ t, exec i s ≠ .next t) :
    i = .keygen ∧ s.status.ready = true ∧ entropyDraw s = none ∧ exec i s = .fault .entropySilent := by
  cases i
  case keygen =>
    simp only [exec, execKeygen] at h ⊢
    split at h
    · rename_i hr
      split at h
      · rename_i hd
        simp [hr, hd]
      · exact absurd rfl (h _)
    · exact absurd rfl (h _)
  all_goals exact absurd rfl (h _)

/-- Everything an admitted transaction can do, and what a refused one does (R72, R73, R79). -/
theorem transact_cases (s : State) (t : Txn) :
    (∃ a, transact s t = { s with answer := some a }) ∨
    (∃ r i w u, s.status.busy = false ∧ i < regWords r ∧ t = .write (regOffset r + 4 * i) 32 w ∧
      writeReg s i w r = some u ∧ transact s t = { u with answer := some .wrote }) := by
  cases t with
  | read off width =>
    refine .inl ?_
    simp only [transact]
    split
    · exact ⟨_, rfl⟩
    · exact ⟨_, rfl⟩
  | write off width w =>
    simp only [transact]
    split
    · rename_i u hu
      obtain ⟨r, i, h1, h2, h3, h4, h5⟩ := hostWrite_some hu
      subst h1 h2
      exact .inr ⟨r, i, w, u, h4, h3, rfl, h5, rfl⟩
    · exact .inl ⟨_, rfl⟩

/-- Everything the engine's slot can do (R142, R104). -/
theorem engineStep_next {s t : State} (h : engineStep s = .next t) :
    (s.status.busy = false ∧ t = s) ∨
    (s.status.busy = true ∧ (∀ i, decode s.cmd ≠ .ok i) ∧ t = takeError s .illegal) ∨
    (s.status.busy = true ∧ ∃ i, decode s.cmd = .ok i ∧ exec i s = .next t) := by
  simp only [engineStep, fetchWord] at h
  split at h
  · rename_i hb
    split at h
    · rename_i i hd
      exact .inr (.inr ⟨hb, i, hd, h⟩)
    · rename_i e hd
      exact .inr (.inl ⟨hb, by simp [hd], by simpa using h.symm⟩)
  · rename_i hb
    exact .inl ⟨by simpa using hb, by simpa using h.symm⟩

/-- Everything a step can do: it plays the next slot of the schedule (R80). -/
theorem step_next {s t : State} (h : step s = .next t) :
    (s.inputs = [] ∧ engineStep s = .next t) ∨
    (∃ rest, s.inputs = .engine :: rest ∧ engineStep { s with inputs := rest } = .next t) ∨
    (∃ x rest, s.inputs = .host x :: rest ∧ t = transact { s with inputs := rest } x) ∨
    (∃ rest, s.inputs = .reset :: rest ∧ t = resetEvent { s with inputs := rest }) := by
  unfold step at h
  split at h
  · rename_i he
    exact .inl ⟨he, h⟩
  · rename_i rest he
    exact .inr (.inl ⟨rest, he, h⟩)
  · rename_i x rest he
    exact .inr (.inr (.inl ⟨x, rest, he, by simpa using h.symm⟩))
  · rename_i rest he
    exact .inr (.inr (.inr ⟨rest, he, by simpa using h.symm⟩))

end Sys2Proof.Machine
end

