-- ==== Sys2Proof/Laws/HostScript.lean ====
section
/-! SUPPORT. What each kind of slot of a host script does, said once; that a command touches neither the schedule nor the
answer the host holds; and that a script without an `ENTROPY` line is a run of the machine over its own slots. -/

namespace Sys2Proof.Machine

/-! ## The part of the state no command touches -/

/-- `s` with another schedule and another answer held by the host. -/
def withEdge (s : State) (xs : List Input) (a : Option Answer) : State := { s with inputs := xs, answer := a }

/-- `s` with another answer held by the host. -/
def withAnswer (s : State) (a : Option Answer) : State := { s with answer := a }

@[simp] theorem withEdge_cmd (s : State) (xs : List Input) (a : Option Answer) : (withEdge s xs a).cmd = s.cmd := rfl
@[simp] theorem withEdge_status (s : State) (xs : List Input) (a : Option Answer) :
    (withEdge s xs a).status = s.status := rfl
@[simp] theorem withEdge_inputs (s : State) (xs : List Input) (a : Option Answer) : (withEdge s xs a).inputs = xs := rfl
@[simp] theorem withEdge_answer (s : State) (xs : List Input) (a : Option Answer) : (withEdge s xs a).answer = a := rfl
@[simp] theorem withEdge_withEdge (s : State) (xs ys : List Input) (a b : Option Answer) :
    withEdge (withEdge s xs a) ys b = withEdge s ys b := rfl

@[simp] theorem withAnswer_cmd (s : State) (a : Option Answer) : (withAnswer s a).cmd = s.cmd := rfl
@[simp] theorem withAnswer_status (s : State) (a : Option Answer) : (withAnswer s a).status = s.status := rfl
@[simp] theorem withAnswer_answer (s : State) (a : Option Answer) : (withAnswer s a).answer = a := rfl
@[simp] theorem withAnswer_inputs (s : State) (a : Option Answer) : (withAnswer s a).inputs = s.inputs := rfl
@[simp] theorem withAnswer_withAnswer (s : State) (a b : Option Answer) : withAnswer (withAnswer s a) b = withAnswer s b := rfl

/-- The outcome with another schedule and answer. -/
def outcomeWithEdge (xs : List Input) (a : Option Answer) :
    Host.Outcome State Fault Refusal → Host.Outcome State Fault Refusal
  | .next t => .next (withEdge t xs a)
  | .fault r => .fault r
  | .refused r => .refused r

theorem complete_withEdge (s : State) (xs : List Input) (a : Option Answer) (o : CmdOutcome) :
    complete (withEdge s xs a) o = withEdge (complete s o) xs a := by cases o <;> rfl

theorem completeReady_withEdge (s : State) (xs : List Input) (a : Option Answer) (o : CmdOutcome) :
    completeReady (withEdge s xs a) o = withEdge (completeReady s o) xs a := by
  unfold completeReady
  rw [withEdge_status]
  split
  · exact complete_withEdge s xs a o
  · rfl

theorem entropyDraw_withEdge (s : State) (xs : List Input) (a : Option Answer) :
    entropyDraw (withEdge s xs a) = (entropyDraw s).map fun p => (p.1, withEdge p.2 xs a) := by
  obtain ⟨_, _, _, _, _, _, _, _, e, _⟩ := s
  simp only [entropyDraw, withEdge]
  split <;> simp_all

/-- A command neither reads nor writes the schedule and the answer the host holds. -/
theorem exec_withEdge (i : Instr) (s : State) (xs : List Input) (a : Option Answer) :
    exec i (withEdge s xs a) = outcomeWithEdge xs a (exec i s) := by
  cases i
  case init => rfl
  case keygen =>
    simp only [exec, execKeygen, withEdge_status, entropyDraw_withEdge]
    split
    · cases entropyDraw s with
      | none => rfl
      | some p => exact congrArg Host.Outcome.next (complete_withEdge _ xs a _)
    · rfl
  all_goals exact congrArg Host.Outcome.next (completeReady_withEdge s xs a _)

theorem engineStep_withEdge (s : State) (xs : List Input) (a : Option Answer) :
    engineStep (withEdge s xs a) = outcomeWithEdge xs a (engineStep s) := by
  have hd : decode (fetchWord (withEdge s xs a)) = decode (fetchWord s) := rfl
  unfold engineStep
  by_cases hb : s.status.busy = true
  · have hb' : (withEdge s xs a).status.busy = true := hb
    rw [if_pos hb, if_pos hb', hd]
    cases decode (fetchWord s) with
    | ok i => exact exec_withEdge i s xs a
    | error e => rfl
  · have hb' : ¬ (withEdge s xs a).status.busy = true := hb
    rw [if_neg hb, if_neg hb']
    rfl

/-- The engine's slot neither reads nor writes the answer the host holds. -/
theorem engineStep_withAnswer {s t : State} (h : engineStep s = .next t) (hi : t.inputs = s.inputs) (a : Option Answer) :
    engineStep (withAnswer s a) = .next (withAnswer t a) := by
  have he := engineStep_withEdge s s.inputs a
  rw [h] at he
  exact he.trans (congrArg Host.Outcome.next (congrArg (fun xs => withEdge t xs a) hi.symm))

/-- The engine's slot leaves the schedule and the answer the host holds. -/
theorem engineStep_edge {s t : State} (h : engineStep s = .next t) : t.inputs = s.inputs ∧ t.answer = s.answer := by
  have he := engineStep_withEdge s s.inputs s.answer
  rw [show withEdge s s.inputs s.answer = s from rfl, h] at he
  have ht : t = withEdge t s.inputs s.answer := Host.Outcome.next.inj he
  have h1 : t.inputs = (withEdge t s.inputs s.answer).inputs := congrArg State.inputs ht
  have h2 : t.answer = (withEdge t s.inputs s.answer).answer := congrArg State.answer ht
  exact ⟨h1, h2⟩

theorem hostRead_withInputs (s : State) (xs : List Input) (off width : Nat) :
    hostRead (withEdge s xs s.answer) off width = hostRead s off width := by
  have hw (i : Nat) (r : Reg) : regWord (withEdge s xs s.answer) i r = regWord s i r := by cases r <;> rfl
  simp only [hostRead, hw, withEdge_status]

theorem hostWrite_withInputs (s : State) (xs : List Input) (off width : Nat) (w : Word32) :
    hostWrite (withEdge s xs s.answer) off width w = (hostWrite s off width w).map fun t => withEdge t xs t.answer := by
  have hw (i : Nat) (r : Reg) :
      writeReg (withEdge s xs s.answer) i w r = (writeReg s i w r).map fun t => withEdge t xs t.answer := by cases r <;> rfl
  unfold hostWrite
  split
  · split
    · rfl
    · rw [withEdge_status, hw]
      split <;> rfl
  · rfl

/-- A transaction neither reads nor writes the schedule. -/
theorem transact_withInputs (s : State) (xs : List Input) (x : Txn) :
    transact (withEdge s xs s.answer) x = withEdge (transact s x) xs (transact s x).answer := by
  cases x with
  | read off width =>
    simp only [transact, hostRead_withInputs]
    split <;> rfl
  | write off width w =>
    simp only [transact, hostWrite_withInputs]
    cases hostWrite s off width w <;> rfl

/-- One slot ahead of a schedule: what it does depends on the slot alone, and the schedule stays (R80). -/
theorem step_withInputs (s : State) (x : Input) (xs : List Input) :
    step (withEdge s (x :: xs) s.answer) =
      match x with
      | .host y => .next (withEdge (transact s y) xs (transact s y).answer)
      | .engine => outcomeWithEdge xs s.answer (engineStep s)
      | .reset => .next (withEdge (resetEvent s) xs none) := by
  cases x with
  | host y => exact congrArg Host.Outcome.next (transact_withInputs s xs y)
  | engine => exact engineStep_withEdge s xs s.answer
  | reset => rfl

/-! ## One slot of a script -/

/-- A slot of a host transaction (R72, R73). -/
theorem playSlot_host (x : Txn) (s : State) :
    playSlot (.host x) s = some ([{ slot := .host x, answer := (transact s x).answer }], transact s x) := rfl

/-- A read of a register's word, where it is admitted (R72). -/
theorem playSlot_read (s : State) (r : Reg) (i : Nat) (h : i < regWords r)
    (hb : s.status.busy = false ∨ regReadableBusy r = true) :
    playSlot (rdSlot r i) s =
      some ([{ slot := rdSlot r i, answer := some (.word (regWord s i r)) }], withAnswer s (some (.word (regWord s i r)))) := by
  have ht : transact s (.read (regOffset r + 4 * i) 32) = withAnswer s (some (.word (regWord s i r))) := by
    simp only [transact, hostRead_word s r i h hb]
    rfl
  rw [rdSlot, playSlot_host, ht]
  rfl

/-- A read of `STATUS` is admitted in every state (R79). -/
theorem playSlot_status (s : State) :
    playSlot (rdSlot .status 0) s =
      some ([{ slot := rdSlot .status 0, answer := some (.word (statusWord s.status)) }],
        withAnswer s (some (.word (statusWord s.status)))) :=
  playSlot_read s .status 0 (by decide) (.inr rfl)

/-- A read of an operand or result register on a running block: refused (R79). -/
theorem playSlot_read_busy (s : State) (r : Reg) (i : Nat) (h : i < regWords r) (hb : s.status.busy = true)
    (hr : regReadableBusy r = false) :
    playSlot (rdSlot r i) s = some ([{ slot := rdSlot r i, answer := some .refused }], withAnswer s (some .refused)) := by
  have hn : hostRead s (regOffset r + 4 * i) 32 = none := by
    simp [hostRead, locate_word r i h, regOffset_lt_window r i h, hb, hr]
  have ht : transact s (.read (regOffset r + 4 * i) 32) = withAnswer s (some .refused) := by
    simp only [transact, hn]
    rfl
  rw [rdSlot, playSlot_host, ht]
  rfl

/-- A write of a register's word on an idle block, where the register can be written (R73). -/
theorem playSlot_write {s t : State} {r : Reg} {i : Nat} {w : Word32} (h : i < regWords r) (hb : s.status.busy = false)
    (hw : writeReg s i w r = some t) :
    playSlot (wrSlot r i w) s = some ([{ slot := wrSlot r i w, answer := some .wrote }], withAnswer t (some .wrote)) := by
  have ht : transact s (.write (regOffset r + 4 * i) 32 w) = withAnswer t (some .wrote) := by
    simp only [transact, hostWrite_word s r i w h hb, hw]
    rfl
  rw [wrSlot, playSlot_host, ht]
  rfl

/-- A write on a running block: refused (R73). -/
theorem playSlot_write_busy (s : State) (r : Reg) (i : Nat) (w : Word32) (hb : s.status.busy = true) :
    playSlot (wrSlot r i w) s = some ([{ slot := wrSlot r i w, answer := some .refused }], withAnswer s (some .refused)) := by
  have hw : hostWrite s (regOffset r + 4 * i) 32 w = none := by
    rw [Option.eq_none_iff_forall_not_mem]
    intro t ht
    obtain ⟨-, -, -, -, -, hb', -⟩ := hostWrite_some ht
    rw [hb] at hb'
    cases hb'
  have ht : transact s (.write (regOffset r + 4 * i) 32 w) = withAnswer s (some .refused) := by
    simp only [transact, hw]
    rfl
  rw [wrSlot, playSlot_host, ht]
  rfl

/-- The engine's slot of a script (R142). -/
theorem playSlot_engine {s t : State} (h : engineStep s = .next t) :
    playSlot .engine s = some ([{ slot := .engine, answer := none }], t) := by
  have hs : step { s with inputs := .engine :: s.inputs } = .next t := h
  simp only [playSlot, hs, answerTo]

/-- Where the command hangs, so does the script (U13). -/
theorem playSlot_engine_fault {s : State} {r : Fault} (h : engineStep s = .fault r) : playSlot .engine s = none := by
  have hs : step { s with inputs := .engine :: s.inputs } = .fault r := h
  simp only [playSlot, hs]

/-! ## Pieces of script -/

theorem playThen_some {m : ScriptRun} {f : List Played → ScriptRun} {s t : State} {ps : List Played}
    (h : m s = some (ps, t)) : playThen m f s = (f ps t).map fun p => (ps ++ p.1, p.2) := by
  simp only [playThen, h]
  rcases f ps t with _ | ⟨_, _⟩ <;> rfl

theorem playThen_eq_some {m : ScriptRun} {f : List Played → ScriptRun} {s u : State} {qs : List Played} :
    playThen m f s = some (qs, u) ↔
      ∃ ps t rs, m s = some (ps, t) ∧ f ps t = some (rs, u) ∧ qs = ps ++ rs := by
  unfold playThen
  rcases m s with _ | ⟨ps, t⟩
  · simp
  · rcases hf : f ps t with _ | ⟨rs, v⟩
    · simp [hf]
    · constructor
      · intro h
        simp only [hf, Option.some.injEq, Prod.mk.injEq] at h
        exact ⟨ps, t, rs, rfl, by rw [hf, h.2], h.1.symm⟩
      · rintro ⟨ps', t', rs', h, hf', rfl⟩
        cases h
        rw [hf] at hf'
        cases hf'
        simp [hf]

/-- Bit 1 of the `STATUS` word is `BUSY` (R36). -/
theorem statusWord_busy (st : Status) : (statusWord st).getLsbD 1 = st.busy := by
  obtain ⟨r, b, d, e, c⟩ := st
  cases r <;> cases b <;> cases d <;> cases e <;> revert c <;> decide

theorem readBusy_status (x : Input) (st : Status) :
    readBusy [{ slot := x, answer := some (.word (statusWord st)) }] = st.busy := statusWord_busy st

/-- One turn of `WAIT` (R113): a read that finds `BUSY = 1` is followed by the rest, one that finds `BUSY = 0` by nothing. -/
theorem playWait_succ (n : Nat) (s : State) :
    playWait (n + 1) s =
      if s.status.busy then
        (playWait n (withAnswer s (some (.word (statusWord s.status))))).map fun p =>
          ({ slot := rdSlot .status 0, answer := some (.word (statusWord s.status)) } :: p.1, p.2)
      else
        some ([{ slot := rdSlot .status 0, answer := some (.word (statusWord s.status)) }],
          withAnswer s (some (.word (statusWord s.status)))) := by
  rw [playWait, playThen_some (playSlot_status s), readBusy_status]
  split <;> rfl

/-- The last turn of `WAIT`: the engine's step and the read after it (R113, R142). -/
theorem playWait_zero {s t : State} (h : engineStep s = .next t) :
    playWait 0 s =
      some ([{ slot := .engine, answer := none },
          { slot := rdSlot .status 0, answer := some (.word (statusWord t.status)) }],
        withAnswer t (some (.word (statusWord t.status)))) := by
  simp only [playWait, playSlots, playThen, playSlot_engine h, playSlot_status, playNothing, List.cons_append,
    List.nil_append]

/-- A script of one line is that line. -/
theorem playScript_line (line : ScriptLine) : playScript [line] = playLine line := by
  funext s
  simp only [playScript, playThen, playNothing]
  rcases playLine line s with _ | ⟨ps, t⟩
  · rfl
  · simp only [List.append_nil]

theorem playThen_assoc (m a b : ScriptRun) :
    playThen (playThen m fun _ => a) (fun _ => b) = playThen m fun _ => playThen a fun _ => b := by
  funext s
  simp only [playThen]
  cases m s with
  | none => rfl
  | some p =>
    simp only
    cases a p.2 with
    | none => rfl
    | some q =>
      simp only
      cases b q.2 with
      | none => rfl
      | some r => simp only [List.append_assoc]

theorem playSlots_append (xs ys : List Input) :
    playSlots (xs ++ ys) = playThen (playSlots xs) fun _ => playSlots ys := by
  induction xs with
  | nil =>
    funext s
    simp only [List.nil_append, playSlots, playThen, playNothing]
    cases playSlots ys s <;> rfl
  | cons x xs ih => rw [List.cons_append, playSlots, playSlots, ih, playThen_assoc]

/-- `RD256` of a register, where its words may be read (R113): its eight words in order, and nothing changes but the answer
the host holds. -/
theorem playSlots_rd256 (s : State) (r : Reg) (h : regWords r = 8)
    (hb : s.status.busy = false ∨ regReadableBusy r = true) :
    playSlots (rd256Slots r) s =
      some ((List.range 8).map fun i => { slot := rdSlot r i, answer := some (.word (regWord s i r)) },
        withAnswer s (some (.word (regWord s 7 r)))) := by
  have hw (a : Option Answer) (i : Nat) : regWord (withAnswer s a) i r = regWord s i r := by cases r <;> rfl
  have hr (a : Option Answer) (i : Nat) (hi : i < 8) := playSlot_read (withAnswer s a) r i (h ▸ hi) (by simpa using hb)
  simp only [hw, withAnswer_withAnswer] at hr
  have h0 := hr s.answer 0 (by decide)
  change playSlot (rdSlot r 0) s = _ at h0
  simp only [rd256Slots, List.range, List.range.loop, List.map, playSlots, playThen, playNothing, h0, hr, List.cons_append,
    List.nil_append, Nat.reduceLT]

/-- The value of an `RDPT` whose 17 reads were all admitted (R113). -/
theorem tripleRead_words {ps : List Played} {w : Word32} {xs ys : List Word32} (h : wordsRead ps = w :: (xs ++ ys))
    (hx : xs.length = 8) (hy : ys.length = 8) :
    tripleRead ps = some {
      tag := w.setWidth 8
      x := BitVec.ofNat 256 (valueOfWords xs)
      y := BitVec.ofNat 256 (valueOfWords ys) } := by
  have hl : (w :: (xs ++ ys)).length = 17 := by simp [hx, hy]
  simp only [tripleRead, h, hl, if_true, List.headD_cons, List.drop_succ_cons, List.drop_zero, List.take_append,
    List.drop_append, hx, Nat.sub_self, List.take_zero, List.append_nil, List.take_of_length_le (Nat.le_of_eq hx),
    List.drop_of_length_le (Nat.le_of_eq hx), List.nil_append]

theorem playScript_append (l m : List ScriptLine) : playScript (l ++ m) = playThen (playScript l) fun _ => playScript m := by
  induction l with
  | nil =>
    funext s
    simp only [List.nil_append, playScript, playThen, playNothing]
    cases playScript m s <;> rfl
  | cons x l ih => rw [List.cons_append, playScript, playScript, ih, playThen_assoc]

/-! ## A script is a run of the machine -/

/-- Playing what `m` plays is a run of the machine over the slots played, ahead of any schedule. -/
def IsSchedule (m : ScriptRun) : Prop :=
  ∀ s ps t, m s = some (ps, t) → ∀ xs,
    Host.Core.run Sys2Proof.core ps.length (withEdge s (ps.map Played.slot ++ xs) s.answer) = .next (withEdge t xs t.answer)

theorem run_append (m n : Nat) (s t : State) (h : Host.Core.run Sys2Proof.core m s = .next t) :
    Host.Core.run Sys2Proof.core (m + n) s = Host.Core.run Sys2Proof.core n t := by
  induction m generalizing s with
  | zero =>
    cases h
    rw [Nat.zero_add]
  | succ m ih =>
    rw [Nat.succ_add]
    simp only [Host.Core.run] at h ⊢
    split at h <;> first | cases h | exact ih _ h

theorem isSchedule_nothing : IsSchedule playNothing := by
  intro s ps t h xs
  cases h
  rfl

theorem isSchedule_slot (x : Input) : IsSchedule (playSlot x) := by
  intro s ps t h xs
  have hs : playSlot x s = match step (withEdge s (x :: s.inputs) s.answer) with
      | .next t => some ([{ slot := x, answer := answerTo x t }], t)
      | .fault _ => none
      | .refused _ => none := rfl
  have hr (u : State) (hu : step (withEdge s (x :: xs) s.answer) = .next u) :
      Host.Core.run Sys2Proof.core 1 (withEdge s (x :: xs) s.answer) = .next u := by
    have hc : Sys2Proof.core.step (withEdge s (x :: xs) s.answer) = .next u := hu
    simp only [Host.Core.run, hc]
  rw [step_withInputs] at hs
  have hx := step_withInputs s x xs
  cases x with
  | host y =>
    cases hs.symm.trans h
    exact hr _ hx
  | engine =>
    cases he : engineStep s with
    | next u =>
      simp only [he, outcomeWithEdge] at hs hx
      cases hs.symm.trans h
      exact hr _ hx
    | fault r => simp only [he, outcomeWithEdge] at hs; cases hs.symm.trans h
    | refused r => simp only [he, outcomeWithEdge] at hs; cases hs.symm.trans h
  | reset =>
    cases hs.symm.trans h
    exact hr _ hx

theorem isSchedule_then {m : ScriptRun} {f : List Played → ScriptRun} (hm : IsSchedule m) (hf : ∀ ps, IsSchedule (f ps)) :
    IsSchedule (playThen m f) := by
  intro s qs u h xs
  obtain ⟨ps, t, rs, h1, h2, rfl⟩ := playThen_eq_some.mp h
  rw [List.length_append, List.map_append, List.append_assoc, run_append _ _ _ _ (hm s ps t h1 _)]
  exact hf ps t rs u h2 xs

theorem isSchedule_slots : ∀ xs, IsSchedule (playSlots xs)
  | [] => isSchedule_nothing
  | x :: rest => isSchedule_then (isSchedule_slot x) fun _ => isSchedule_slots rest

theorem isSchedule_wait : ∀ n, IsSchedule (playWait n)
  | 0 => isSchedule_slots _
  | n + 1 => isSchedule_then (isSchedule_slot _) fun ps => by
      split
      · exact isSchedule_wait n
      · exact isSchedule_nothing

theorem isSchedule_copy (g : Group) (ps : List Played) : IsSchedule (playCopy g ps) := by
  unfold playCopy
  split
  · exact isSchedule_slots _
  · exact isSchedule_nothing

theorem isSchedule_line : ∀ line : ScriptLine, (∀ d, line ≠ .entropy d) → IsSchedule (playLine line)
  | .wr r i w, _ => isSchedule_slot (wrSlot r i w)
  | .rd r i, _ => isSchedule_slot (rdSlot r i)
  | .wrAt off w, _ => isSchedule_slot (.host (.write off 32 w))
  | .rdAt off, _ => isSchedule_slot (.host (.read off 32))
  | .cmd m, _ => isSchedule_slot (cmdSlot m)
  | .wait n, _ => isSchedule_wait n
  | .call m n, _ => isSchedule_then (isSchedule_slot (cmdSlot m)) fun _ => isSchedule_wait n
  | .ld256 r v, _ => isSchedule_slots (ld256Slots r v)
  | .rd256 r, _ => isSchedule_slots (rd256Slots r)
  | .ldpt g t, _ => isSchedule_slots (ldptSlots g t)
  | .rdpt g, _ => isSchedule_slots (rdptSlots g)
  | .movpt g, _ => by
    rw [playLine]
    exact isSchedule_then (isSchedule_slots (rdptSlots .pr)) (isSchedule_copy g)
  | .reset, _ => isSchedule_slot .reset
  | .entropy d, h => absurd rfl (h d)
  | .engine, _ => isSchedule_slot .engine

/-- A script with no `ENTROPY` line is a run of the machine over the slots it plays, ahead of any schedule (R112: "the true
instructions of a script are the two transactions"). -/
theorem isSchedule_script : ∀ lines : List ScriptLine, (∀ d, .entropy d ∉ lines) → IsSchedule (playScript lines)
  | [], _ => isSchedule_nothing
  | line :: rest, h =>
    isSchedule_then (isSchedule_line line fun d hd => h d (hd ▸ List.mem_cons_self)) fun _ =>
      isSchedule_script rest fun d hd => h d (List.mem_cons_of_mem _ hd)

end Sys2Proof.Machine
end

