-- ==== Sys2Proof/Laws/HostCalls.lean ====
section
/-! SUPPORT. What the pieces of a host call do, said once: a run of words, the write of `CMD`, and the read of a value. -/

namespace Sys2Proof.Machine

/-- A piece of host software followed by one more. -/
theorem hostBind_some {α β : Type} {m : HostRun α} {f : α → HostRun β} {s t : State} {a : α}
    (h : m s = some (.ok a, t)) : hostBind m f s = f a t := by
  simp only [hostBind, h]

/-- A script none of whose accesses is refused gives the caller the words it reads. -/
theorem playWords_ok {lines : List ScriptLine} {s t : State} {ps : List Played} (h : playScript lines s = some (ps, t))
    (hr : ∀ p ∈ ps, p.answer ≠ some .refused) : playWords lines s = some (.ok (wordsRead ps), t) := by
  have ha : (ps.any fun p => p.answer == some .refused) = false := by simpa using hr
  simp only [playWords, h, ha, Bool.false_eq_true, if_false]

/-- A script with a refused access ends the call (log 12). -/
theorem playWords_refused {lines : List ScriptLine} {s t : State} {ps : List Played} (h : playScript lines s = some (ps, t))
    {p : Played} (hp : p ∈ ps) (hr : p.answer = some .refused) :
    playWords lines s = some (.error .accessRefused, t) := by
  have ha : (ps.any fun p => p.answer == some .refused) = true := by
    rw [List.any_eq_true]
    exact ⟨p, hp, by simp [hr]⟩
  simp only [playWords, h, ha, if_true]

/-- The write of `CMD` in a call, on an idle block: acceptance (R140). -/
theorem playWords_cmd_idle (m : Instr) (s : State) (h : s.status.busy = false) :
    playWords [.cmd m] s = some (.ok [], withAnswer (accept s (encode m)) (some .wrote)) := by
  have hp := playSlot_write (r := .cmd) (i := 0) (w := encode m) (by decide) h rfl
  exact playWords_ok (ps := [{ slot := cmdSlot m, answer := some .wrote }])
    (by simp only [playScript, playLine, cmdSlot, playThen, hp, playNothing, List.append_nil])
    (by simp)

/-- The write of `CMD` in a call, on a running block: refused (R73). -/
theorem playWords_cmd_busy (m : Instr) (s : State) (h : s.status.busy = true) :
    playWords [.cmd m] s = some (.error .accessRefused, withAnswer s (some .refused)) := by
  have hp := playSlot_write_busy s .cmd 0 (encode m) h
  exact playWords_refused (ps := [{ slot := cmdSlot m, answer := some .refused }])
    (by simp only [playScript, playLine, cmdSlot, playThen, hp, playNothing, List.append_nil])
    List.mem_cons_self rfl

/-- `RD256` of a register, where its words may be read (R113): the value of its eight words, and nothing changes but the
answer the host holds. -/
theorem readValue_word (s : State) (r : Reg) (h : regWords r = 8) (hb : s.status.busy = false ∨ regReadableBusy r = true) :
    readValue r s = some (.ok (BitVec.ofNat 256 (valueOfWords ((List.range 8).map fun i => regWord s i r))),
      withAnswer s (some (.word (regWord s 7 r)))) := by
  have hp := playSlots_rd256 s r h hb
  rw [← show playLine (.rd256 r) = playSlots (rd256Slots r) from rfl, ← playScript_line] at hp
  rw [readValue, hostBind_some (playWords_ok hp (by simp))]
  rfl

end Sys2Proof.Machine
end

