-- ==== Sys2Proof/Laws/Order.lean ====
section
/-! SUPPORT. Counting the points of the curve (R8 item 6, R199 item 4): multiples in the engine and in the group, how many
points there can be, and no point of order two. -/

namespace Sys2Proof.Machine

open Sys2Proof.Config

variable {c : Curve} [Fact c.p.Prime]

/-- `k·P` is the group's multiple (R199). -/
theorem represents_nTimes (hc : CurveOk c) {q : Point} {P : (affineCurve c).Point} (h : Represents c q P) :
    ∀ k, Represents c (nTimes c k q) (k • P)
  | 0 => by rw [zero_nsmul]; trivial
  | k + 1 => by
    rw [succ_nsmul]
    exact represents_padd hc (represents_nTimes hc h k) h

/-- Every point of the group has a representative. -/
theorem exists_point (P : (affineCurve c).Point) : ∃ q, Represents c q P := by
  have : NeZero c.p := ⟨(Fact.out : c.p.Prime).ne_zero⟩
  cases P with
  | zero => exact ⟨.inf, trivial⟩
  | some X Y h =>
    exact ⟨.aff X.val Y.val, ZMod.val_lt X, ZMod.val_lt Y, ZMod.natCast_zmod_val X, ZMod.natCast_zmod_val Y⟩

/-- There are as many `Point` values (R190) as points of the group. -/
theorem card_points (hc : CurveOk c) :
    Nat.card { q : Point // isPoint c q = true } = Nat.card (affineCurve c).Point := by
  refine Nat.card_congr (Equiv.ofBijective (fun q => (exists_represents hc q.2).choose) ⟨?_, ?_⟩)
  · rintro ⟨q, hq⟩ ⟨r, hr⟩ h
    have h1 := (exists_represents hc hq).choose_spec
    have h2 := (exists_represents hc hr).choose_spec
    rw [show (exists_represents hc hq).choose = (exists_represents hc hr).choose from h] at h1
    exact Subtype.ext (represents_unique h1 h2)
  · intro P
    obtain ⟨q, hq⟩ := exists_point P
    have hp := isPoint_of_represents hc hq
    exact ⟨⟨q, hp⟩, represents_functional (exists_represents hc hp).choose_spec hq⟩

/-- A residue and a bit, one of which tells the two points with the same X apart. -/
def pointCode (P : (affineCurve c).Point) : Option (ZMod c.p × Bool) :=
  match P with
  | .zero => none
  | .some X Y _ => some (X, Y.val.testBit 0)

theorem val_neg_parity {Y : ZMod c.p} (hodd : c.p % 2 = 1) (h0 : Y ≠ 0) : (-Y).val % 2 ≠ Y.val % 2 := by
  have : NeZero c.p := ⟨(Fact.out : c.p.Prime).ne_zero⟩
  have : NeZero Y := ⟨h0⟩
  have hlt := ZMod.val_lt Y
  have h1 : Y.val ≠ 0 := fun h => h0 ((ZMod.val_eq_zero Y).1 h)
  rw [ZMod.val_neg_of_ne_zero]
  omega

theorem pointCode_injective (hodd : c.p % 2 = 1) : Function.Injective (pointCode (c := c)) := by
  intro P Q h
  cases P with
  | zero => cases Q with
    | zero => rfl
    | some => simp [pointCode] at h
  | some X Y hP => cases Q with
    | zero => simp [pointCode] at h
    | some X' Y' hQ =>
      simp only [pointCode, Option.some.injEq, Prod.mk.injEq, Nat.testBit_zero, decide_eq_decide] at h
      obtain ⟨rfl, hb⟩ := h
      rcases WeierstrassCurve.Affine.Y_eq_of_X_eq hP.1 hQ.1 rfl with rfl | e
      · rfl
      · have e : Y = -Y' := by simpa [WeierstrassCurve.Affine.negY, affineCurve] using e
        by_cases h0 : Y' = 0
        · subst h0
          obtain rfl : Y = 0 := by simpa using e
          rfl
        · have := val_neg_parity hodd h0
          rw [e] at hb
          omega

theorem finite_points (hodd : c.p % 2 = 1) : Finite (affineCurve c).Point := by
  have : NeZero c.p := ⟨(Fact.out : c.p.Prime).ne_zero⟩
  exact Finite.of_injective _ (pointCode_injective hodd)

/-- At most two points with each X, and infinity. -/
theorem card_points_le (hodd : c.p % 2 = 1) : Nat.card (affineCurve c).Point ≤ 2 * c.p + 1 := by
  have : NeZero c.p := ⟨(Fact.out : c.p.Prime).ne_zero⟩
  refine (Nat.card_le_card_of_injective _ (pointCode_injective hodd)).trans ?_
  rw [Nat.card_eq_fintype_card, Fintype.card_option, Fintype.card_prod, ZMod.card, Fintype.card_bool]
  omega

/-- The group of R9's curve has no point of order two (R199 item 5). -/
theorem sm2_no_order_two [Fact sm2.p.Prime] {P : (affineCurve sm2).Point} (h : P + P = 0) : P = 0 := by
  cases P with
  | zero => rfl
  | some X Y hn =>
    exfalso
    by_cases hy : Y = (affineCurve sm2).negY X Y
    · have h2 : Y = -Y := by simpa [WeierstrassCurve.Affine.negY, affineCurve] using hy
      have h0 : Y = 0 := by
        have : (2 : ZMod sm2.p) * Y = 0 := by linear_combination h2
        exact (mul_eq_zero.1 this).resolve_left (two_ne_zero_of_ok sm2_ok)
      have he := ((affineCurve sm2).equation_iff X Y).1 hn.1
      refine cubic_ne_zero X ?_
      simp only [affineCurve, h0] at he
      linear_combination -he
    · rw [WeierstrassCurve.Affine.Point.add_self_of_Y_ne hy] at h
      exact WeierstrassCurve.Affine.Point.some_ne_zero _ h

end Sys2Proof.Machine
end

