-- ==== Sys2Proof/Laws/PerInstr.lean ====
section
/-! SUPPORT. What is said of every command as syntax, one lemma a constructor: its word passes both well-formedness checks
(R100, R101). -/

namespace Sys2Proof.Laws.WordWellFormed

/-- The command's word has a clear `ZERO` field and an assigned `OPCODE`. -/
def Statement (i : Instr) : Prop := wellFormedWord (encode i) = true

theorem init : Statement .init := by unfold Statement; decide
theorem pubkey : Statement .pubkey := by unfold Statement; decide
theorem keygen : Statement .keygen := by unfold Statement; decide
theorem compress : Statement .compress := by unfold Statement; decide
theorem decompress : Statement .decompress := by unfold Statement; decide
theorem pchk : Statement .pchk := by unfold Statement; decide
theorem smul : Statement .smul := by unfold Statement; decide
theorem padd : Statement .padd := by unfold Statement; decide
theorem pdbl : Statement .pdbl := by unfold Statement; decide
theorem finv : Statement .finv := by unfold Statement; decide
theorem fsqrt : Statement .fsqrt := by unfold Statement; decide

end Sys2Proof.Laws.WordWellFormed
end

