-- ==== Sys2Proof/Tests/Slice0.lean ====
section
/-! SUPPORT. Tests: the well-formedness checks, decoding of words written out from the opcode table, one step per command from
the vectors of 95_test_vectors.md, and for each statement with hypotheses a state and operands that meet them. -/

namespace Sys2Proof.Tests

set_option Elab.async false

open Sys2Proof.Config Sys2Proof.Machine Sys2Proof.Safety

/-! ## Well-formedness: each check refuses an ill-formed word -/

theorem test_zeroFieldClear_refuses_bit_8 : zeroFieldClear 0x00000102 = false ∧ wellFormedWord 0x00000102 = false := by decide
theorem test_zeroFieldClear_refuses_bit_31 : zeroFieldClear 0x80000001 = false ∧ wellFormedWord 0x80000001 = false := by decide
theorem test_opcodeAssigned_refuses_07 : opcodeAssigned 0x00000007 = false ∧ wellFormedWord 0x00000007 = false := by decide
theorem test_opcodeAssigned_refuses_00 : opcodeAssigned 0x00000000 = false ∧ wellFormedWord 0x00000000 = false := by decide
theorem test_wellFormedWord_accepts_fsqrt : wellFormedWord 0x00000021 = true := by decide

/-! ## Decoding: the rows of R101 bit by bit, ZERO first -/

theorem test_decode_init : decode 0b000000000000000000000000_00000001 = .ok .init := by decide
theorem test_decode_pubkey : decode 0b000000000000000000000000_00000010 = .ok .pubkey := by decide
theorem test_decode_keygen : decode 0b000000000000000000000000_00000011 = .ok .keygen := by decide
theorem test_decode_compress : decode 0b000000000000000000000000_00000100 = .ok .compress := by decide
theorem test_decode_decompress : decode 0b000000000000000000000000_00000101 = .ok .decompress := by decide
theorem test_decode_pchk : decode 0b000000000000000000000000_00000110 = .ok .pchk := by decide
theorem test_decode_smul : decode 0b000000000000000000000000_00010000 = .ok .smul := by decide
theorem test_decode_padd : decode 0b000000000000000000000000_00010001 = .ok .padd := by decide
theorem test_decode_pdbl : decode 0b000000000000000000000000_00010010 = .ok .pdbl := by decide
theorem test_decode_finv : decode 0b000000000000000000000000_00100000 = .ok .finv := by decide
theorem test_decode_fsqrt : decode 0b000000000000000000000000_00100001 = .ok .fsqrt := by decide

/-- Neighbours of assigned opcodes, and a bit of `ZERO` set (R104, V89 to V92). -/
theorem test_decode_illegal : decode 0x00000000 = .error .opcode ∧ decode 0x00000007 = .error .opcode ∧
    decode 0x00000013 = .error .opcode ∧ decode 0x00000022 = .error .opcode ∧ decode 0x00000102 = .error .zeroField ∧
    decode 0x80000001 = .error .zeroField := by decide

theorem test_decodeTableWord : decodeTableWord 32 0x11 = some .padd ∧ decodeTableWord 32 0x07 = none ∧
    decodeTableWord 40 0x100000011 = none := by decide

/-! ## One step per command, from the vectors of 95_test_vectors.md -/

/-- `READY = 1`, everything else as after reset. -/
def ready : State := { State.reset with status := { State.reset.status with ready := true } }

/-- The state after one step, if there is one. -/
def after (o : Host.Outcome State Fault Refusal) : Option State :=
  match o with
  | .next t => some t
  | .fault _ => none
  | .refused _ => none

/-- `STATUS`, `PR` and `K` after the completion of a command word accepted in `s`. -/
def report (s : State) (w : Nat) : Option (Word32 × Triple × U256) :=
  (after (step (s.withFetchWord 32 w))).map fun t => (statusWord t.status, t.pr, t.k)

/-- `G` as a register group. -/
def tripleG : Triple :=
  { tag := 0x04
    x := 0x32C4AE2C1F1981195F9904466A39C9948FE30BBFF2660BE1715A4589334C74C7
    y := 0xBC3736A2F4F6779C59BDCEE36B692153D0A9877CC62A474002DF32E52139F0A0 }

/-- `2·G` as a register group (V39). -/
def triple2G : Triple :=
  { tag := 0x04
    x := 0x56CEFD60D7C87C000D58EF57FA73BA4D9C0DFA08C08A7331495C2E1DA3F2BD52
    y := 0x31B7E7E6CC8189F668535CE0F8EAF1BD6DE84C182F6C8E716F780D3A970A23C3 }

/-- `3·G` as a register group (V31). -/
def triple3G : Triple :=
  { tag := 0x04
    x := 0xA97F7CD4B3C993B4BE2DAA8CDB41E24CA13F6BD945302244E26918F1D0509EBF
    y := 0x530B5DD88C688EF5CCC5CEC08A72150F7C400EE5CD045292AAACDD037458F6E6 }

/-- `-G` as a register group (V29). -/
def tripleNegG : Triple := { tripleG with y := 0x43C8C95C0B098863A642311C9496DEAC2F56788239D5B8C0FD20CD1ADEC60F5F }

/-- V87. -/
theorem test_init : report { State.reset with k := 5, pa := tripleG } 0x01 = some (0x00000005, zeroTriple, 5) := by
  decide +kernel

/-- V64. -/
theorem test_pubkey_two : report { ready with k := 2 } 0x02 = some (0x00000005, triple2G, 2) := by decide +kernel

/-- V67: `K = n`. -/
theorem test_pubkey_n : report { ready with k := 0xFFFFFFFEFFFFFFFFFFFFFFFFFFFFFFFF7203DF6B21C6052B53BBF40939D54123 } 0x02 =
    some (0x00000029, zeroTriple, 0xFFFFFFFEFFFFFFFFFFFFFFFFFFFFFFFF7203DF6B21C6052B53BBF40939D54123) := by decide +kernel

/-- V83: the draw `n` gives the scalar 2. -/
theorem test_keygen_draw_n :
    report { ready with
      k := 0x63
      entropy := [.answers ⟨true, 0xFFFFFFFEFFFFFFFFFFFFFFFFFFFFFFFF7203DF6B21C6052B53BBF40939D54123⟩] } 0x03 =
      some (0x00000005, triple2G, 2) := by decide +kernel

/-- V85: a failed draw keeps `K`. -/
theorem test_keygen_failed_draw : report { ready with k := 0x63, entropy := [.answers ⟨false, 5⟩] } 0x03 =
    some (0x00000049, zeroTriple, 0x63) := by decide +kernel

/-- V44: `Y` odd. -/
theorem test_compress_odd : report { ready with pa := triple2G } 0x04 =
    some (0x00000005, { triple2G with tag := 0x03, y := 0 }, 0) := by decide +kernel

/-- V45: a compressed group passes through with its `Y`. -/
theorem test_compress_passes : report { ready with pa := { tripleG with tag := 0x02, y := 0x55 } } 0x04 =
    some (0x00000005, { tripleG with tag := 0x02, y := 0x55 }, 0) := by decide +kernel

/-- V50: the odd root at `Gx`. -/
theorem test_decompress_odd : report { ready with pa := { tripleG with tag := 0x03, y := 0 } } 0x05 =
    some (0x00000005, tripleNegG, 0) := by decide +kernel

/-- V56: `X = 2` is no point's. -/
theorem test_decompress_no_point : report { ready with pa := { tag := 0x02, x := 2, y := 0 } } 0x05 =
    some (0x00000039, zeroTriple, 0) := by decide +kernel

/-- V24: `Gy + 1`. -/
theorem test_pchk_off_curve : report { ready with pa := { tripleG with y := tripleG.y + 1 } } 0x06 =
    some (0x00000039, zeroTriple, 0) := by decide +kernel

/-- V23. -/
theorem test_pchk_compressed_tag : report { ready with pa := { tripleG with tag := 0x02 } } 0x06 =
    some (0x00000019, zeroTriple, 0) := by decide +kernel

/-- V71: `0·G`. -/
theorem test_smul_zero : report { ready with pa := tripleG } 0x10 = some (0x00000005, zeroTriple, 0) := by decide +kernel

/-- `2·G` by SMUL, the point of V64. -/
theorem test_smul_two : report { ready with k := 2, pa := tripleG } 0x10 = some (0x00000005, triple2G, 2) := by decide +kernel

/-- V31. -/
theorem test_padd_chord : report { ready with pa := tripleG, pb := triple2G } 0x11 = some (0x00000005, triple3G, 0) := by
  decide +kernel

/-- V29. -/
theorem test_padd_opposite : report { ready with pa := tripleG, pb := tripleNegG } 0x11 =
    some (0x00000005, zeroTriple, 0) := by decide +kernel

/-- V39. -/
theorem test_pdbl_G : report { ready with pa := tripleG } 0x12 = some (0x00000005, triple2G, 0) := by decide +kernel

/-- V40. -/
theorem test_pdbl_inf : report ready 0x12 = some (0x00000005, zeroTriple, 0) := by decide +kernel

/-- V3: the inverse of 3. -/
theorem test_finv_three : report { ready with pa := { tag := 0x09, x := 3, y := 9 } } 0x20 =
    some (0x00000005, { tag := 0, x := 0x55555554FFFFFFFFFFFFFFFFFFFFFFFFFFFFFFFFAAAAAAAB0000000000000000, y := 0 }, 0) := by
  decide +kernel

/-- V7: `p` is out of range. -/
theorem test_finv_p : report { ready with pa := { tag := 0, x := BitVec.ofNat 256 sm2.p, y := 0 } } 0x20 =
    some (0x00000079, zeroTriple, 0) := by decide +kernel

/-- V9: the odd root of 4. -/
theorem test_fsqrt_odd_four : report { ready with pa := { tag := 0x03, x := 4, y := 0 } } 0x21 =
    some (0x00000005, { tag := 0, x := 0xFFFFFFFEFFFFFFFFFFFFFFFFFFFFFFFFFFFFFFFF00000000FFFFFFFFFFFFFFFD, y := 0 }, 0) := by
  decide +kernel

/-- V11: 0 has no odd root. -/
theorem test_fsqrt_odd_zero : report { ready with pa := { tag := 0x03, x := 0, y := 0 } } 0x21 =
    some (0x00000039, zeroTriple, 0) := by decide +kernel

/-- V91, V92, V93: illegal words before everything, then `NOTREADY`. -/
theorem test_common_checks : report ready 0x102 = some (0x00000059, zeroTriple, 0) ∧
    report State.reset 0x80000001 = some (0x00000058, zeroTriple, 0) ∧
    report State.reset 0x02 = some (0x00000068, zeroTriple, 0) := by decide +kernel

/-! ## The window -/

/-- R72, R73, R76: admitted and refused accesses at the edges of the map. -/
theorem test_window_edges : (hostRead ready 0x000 32).isSome ∧ hostRead ready 0x008 32 = none ∧
    (hostRead ready 0x0FC 32).isSome ∧ (hostRead ready 0x1DC 32).isSome ∧ hostRead ready 0x1E0 32 = none ∧
    hostRead ready 0x021 32 = none ∧ hostRead ready 0x020 64 = none ∧ (hostWrite ready 0x0BC 32 7).isSome ∧
    hostWrite ready 0x0C0 32 7 = none ∧ hostWrite ready 0x018 32 7 = none ∧ hostWrite ready 0x100 32 7 = none := by
  decide +kernel

/-- R12: word 0 of `G`'s X is its most significant. -/
theorem test_window_word_order : hostRead { ready with pa := tripleG } 0x040 32 = some 0x32C4AE2C ∧
    hostRead { ready with pa := tripleG } 0x05C 32 = some 0x334C74C7 := by decide +kernel

/-- R34: bits 31:8 written to a tag register are dropped. -/
theorem test_window_tag_write : (hostWrite ready 0x010 32 0xABCDEF04).map (·.pa.tag) = some 0x04 := by decide +kernel

/-! ## The host script -/

/-- R113, V64: `MOVPT` copies what it reads at that moment, here the `PR` of the call before it (17 reads, 17 writes). -/
theorem test_movpt :
    (playScript [.call .pubkey 0, .movpt .pb] { ready with k := 2, pb := tripleG }).map
      (fun p => ((transactionsOf p.1).length, p.2.pb, p.2.pr, p.2.pa)) =
      some (2 + 34, triple2G, triple2G, zeroTriple) := by decide +kernel

/-- R113, V85: an `ENTROPY` line states the next draw when it is reached, not that of a KEYGEN before it. -/
theorem test_entropy_when_reached :
    (playScript [.call .keygen 1, .entropy ⟨true, 1⟩, .call .keygen 0] { ready with
      entropy := [.answers ⟨false, 5⟩] }).map (fun p => (wordsRead p.1, p.2.k, p.2.pr, p.2.draws)) =
      some ([0x00000003, 0x00000049, 0x00000005], 2, triple2G, 2) := by decide +kernel

/-- R113: `WAIT` ends with the first read that finds `BUSY = 0`, however many polls it may make. -/
theorem test_wait_idle : (playScript [.wait 5] ready).map (fun p => wordsRead p.1) = some [0x00000001] := by decide +kernel

/-! ## The host software -/

/-- What a call gives the caller, and `STATUS` and `PR` after it. -/
def called {α : Type} (r : Option (Except HostError α × State)) : Option (Except HostError α × Word32 × Triple) :=
  r.map fun p => (p.1, statusWord p.2.status, p.2.pr)

/-- R271: what `initCurve` returns is the record of R9, its base point and its order, and it leaves `READY` set. -/
theorem test_initCurve : called (initCurve 2 State.reset) =
    some (.ok (sm2, basePoint sm2, sm2.n), 0x00000005, zeroTriple) := by decide +kernel

/-- R73, R265: a call on a running block is refused at its first write. -/
theorem test_call_while_busy : called (initCurve 0 (accept State.reset 0x04)) =
    some (.error .accessRefused, 0x00000002, zeroTriple) := by decide +kernel

/-- R271: a call that follows a completed `initCurve` runs (R272, 95_test_vectors.md S1: `G` compresses to `02 ‖ Gx`). -/
theorem test_compress_after_init :
    called (hostBind (initCurve 0) (fun _ => compressString 1 (uncompressedHex tripleG.x tripleG.y)) State.reset) =
      some (.ok (['0', '2'] ++ hex256 tripleG.x), 0x00000005, { tripleG with tag := 0x02, y := 0 }) := by decide +kernel

/-- R266, R268: an odd length is padded, a character that is no digit fails, and é is c3a9. -/
theorem test_hex : hexToBytes ['A', 'b', 'c'] = .ok [0x0A, 0xBC] ∧ hexToBytes ['0', 'g'] = .error .decodeError ∧
    utf8ToHex ['é'] = ['c', '3', 'a', '9'] := by decide +kernel

/-! ## Witnesses: states and operands that meet a statement's hypotheses, clause by clause -/

/-- A legal word and illegal words. -/
theorem witness_Encoding : decode 0x00000001 = .ok .init ∧ decode 0x00000021 = .ok .fsqrt ∧
    (0x00000000 : Word32) ∉ commandWords ∧ (0x00000022 : Word32) ∉ commandWords := by decide

/-- `s` with this command accepted and running. -/
def running (i : Instr) (s : State) : State := accept s (encode i)

theorem witness_HostReadFollowsTheRegisterMap : ready.status.busy = false ∧ 0 < 8 ∧ 7 < 8 ∧
    (running .finv ready).status.busy = true ∧ (∃ w, hostRead (running .finv ready) 0x1DC 32 = some w) ∧
    hostRead (running .finv ready) 0x020 32 = none := by
  refine ⟨rfl, by decide, by decide, rfl, ⟨_, rfl⟩, by decide +kernel⟩

theorem witness_HostWriteFollowsTheRegisterMap :
    ready.status.busy = false ∧
    (∀ i, i < 8 → ∀ (w : Word32) (v : U256), (setWord v i w).extractLsb' (224 - 32 * i) 32 = w ∧
      ∀ j, j < 8 → j ≠ i → (setWord v i w).extractLsb' (224 - 32 * j) 32 = v.extractLsb' (224 - 32 * j) 32) ∧
    hostWrite ready 0x004 32 1 = none ∧ hostWrite ready 0x000 16 1 = none ∧
    hostWrite (running .finv ready) 0x000 32 1 = none := by
  refine ⟨rfl, fun i hi w v => ⟨wordOf_setWord_same v i w hi, fun j hj h => wordOf_setWord_other v i j w hi hj h⟩, ?_⟩
  decide +kernel

theorem witness_TransactionsAnswerTheHost :
    hostRead ready 0x004 32 = some 0x00000001 ∧ hostRead ready 0x1E0 32 = none ∧ hostRead ready 0x000 64 = none ∧
    (∃ t, hostWrite ready 0x010 32 4 = some t) ∧ (∃ t, hostWrite ready 0x0BC 32 4 = some t) ∧
    hostWrite ready 0x0C0 32 4 = none := by
  refine ⟨by decide +kernel, by decide +kernel, by decide +kernel, ⟨_, rfl⟩, ⟨_, rfl⟩, by decide +kernel⟩

theorem witness_LoadScriptLoadsTheRegister : ready.status.busy = false := rfl

theorem witness_ScriptLinesFollowTheirRule : ready.status.busy = false ∧ (running .finv ready).status.busy = true ∧
    (∃ t, engineStep (running .finv ready) = .next t) ∧ (∃ t, engineStep (accept ready 0x07) = .next t) ∧
    playScript [] ready = some ([], ready) ∧ (∃ ps t, playScript [.call .init 0] ready = some (ps, t)) :=
  ⟨rfl, rfl, ⟨_, rfl⟩, ⟨_, rfl⟩, rfl, ⟨_, _, rfl⟩⟩

theorem witness_BusyPhaseKeepsTheHostOut : (running .finv ready).status.busy = true ∧
    (transact (running .finv ready) (.write 0x000 32 1)).answer = some .refused := by decide +kernel

theorem witness_RefusedAccessHasNoEffect : (transact ready (.read 0x1E0 32)).answer = some .refused ∧
    (transact ready (.write 0x004 32 0)).answer = some .refused := by decide +kernel

theorem witness_WindowSitsAtBase : 0 < 4096 ∧ 4095 < 4096 ∧ base + 4096 ≤ base + 4096 := by omega

theorem witness_StepRunsTheDecodedCommand :
    (running .finv ready).status.busy = true ∧ decode (running .finv ready).cmd = .ok .finv ∧
    (running .finv ready).inputs = [] ∧
    ({ running .finv ready with inputs := [.engine] } : State).inputs = .engine :: [] := by decide +kernel

theorem witness_StepPlaysOneSlot :
    ({ ready with inputs := [.host (.read 4 32)] } : State).inputs = .host (.read 4 32) :: [] ∧
    ({ ready with inputs := [.reset] } : State).inputs = .reset :: [] ∧ ready.status.busy = false ∧ ready.inputs = [] ∧
    ({ ready with inputs := [.engine] } : State).inputs = .engine :: [] := by decide +kernel

/-- An idle block whose host is about to write `w` to `CMD`. -/
def calling (w : Word32) : State := { State.reset with inputs := [.host (.write 0 32 w), .engine] }

theorem witness_CallIsAcceptanceThenExec : (calling 0x01).status.busy = false ∧
    (calling 0x01).inputs = .host (.write 0 32 0x01) :: .engine :: [] ∧ decode 0x01 = .ok .init := by decide +kernel

theorem witness_IllegalWordCompletesAsIllegal : (calling 0x00).status.busy = false ∧ (0x00 : Word32) ∉ commandWords ∧
    (calling 0x00).inputs = .host (.write 0 32 0x00) :: .engine :: [] := by decide +kernel

theorem witness_CommonChecksInOrder :
    (accept ready 0x22).status.busy = true ∧ (accept ready 0x22).inputs = [] ∧
    (∀ i : Instr, decode (accept ready 0x22).cmd ≠ .ok i) ∧ State.reset.status.ready = false ∧
    (running .finv State.reset).status.busy = true ∧ (running .finv State.reset).inputs = [] ∧
    (running .finv State.reset).status.ready = false ∧ Instr.finv ≠ .init ∧
    decode (running .finv State.reset).cmd = .ok .finv := by
  refine ⟨rfl, rfl, ?_, rfl, rfl, rfl, rfl, by decide, by decide +kernel⟩
  intro i
  cases i <;> decide +kernel

/-- `READY = 1` with this in `PA`. -/
def readyA (tag : Tag) (x y : Nat) : State := { ready with pa := ⟨tag, BitVec.ofNat 256 x, BitVec.ofNat 256 y⟩ }

theorem witness_FinvFollowsItsRule : State.reset.status.ready = false ∧ ready.status.ready = true ∧
    sm2.p ≤ (readyA 0 sm2.p 0).pa.x.toNat ∧ (readyA 0 0 0).pa.x.toNat = 0 ∧
    0 < (readyA 0 1 0).pa.x.toNat ∧ (readyA 0 1 0).pa.x.toNat < sm2.p ∧
    0 < (readyA 0 (sm2.p - 1) 0).pa.x.toNat ∧ (readyA 0 (sm2.p - 1) 0).pa.x.toNat < sm2.p := by decide +kernel

/-- Euler: a residue whose power `(p - 1)/2` is `p - 1` is no square. -/
theorem no_root_of_euler {g : Nat} (h : fexp sm2 g (eulerExponent sm2) = sm2.p - 1) :
    ∀ r, r * r % sm2.p ≠ g % sm2.p := by
  intro r hr
  have : Fact sm2.p.Prime := ⟨sm2_p_prime⟩
  have hg : (g : ZMod sm2.p) = (r : ZMod sm2.p) ^ 2 := by
    rw [sq, ← Nat.cast_mul, ← ZMod.natCast_mod g, ← hr, ZMod.natCast_mod]
  have hc := fexp_cast (c := sm2) g (show eulerExponent sm2 < 2 ^ 256 by decide +kernel)
  rw [h, hg, ← pow_mul, show 2 * eulerExponent sm2 = sm2.p - 1 by decide +kernel] at hc
  by_cases h0 : (r : ZMod sm2.p) = 0
  · rw [h0, zero_pow (by decide +kernel)] at hc
    exact absurd ((cast_inj_of_lt (c := sm2) (x := sm2.p - 1) (y := 0) (by decide +kernel) (by decide +kernel)).1
      (by simpa using hc)) (by decide +kernel)
  · rw [ZMod.pow_card_sub_one_eq_one h0] at hc
    exact absurd ((cast_inj_of_lt (c := sm2) (x := sm2.p - 1) (y := 1) (by decide +kernel) (by decide +kernel)).1
      (by simpa using hc)) (by decide +kernel)

theorem witness_FsqrtFollowsItsRule : ready.status.ready = true ∧
    ((readyA 0x01 4 0).pa.tag ≠ 0x02 ∧ (readyA 0x01 4 0).pa.tag ≠ 0x03) ∧
    ((readyA 0x04 4 0).pa.tag ≠ 0x02 ∧ (readyA 0x04 4 0).pa.tag ≠ 0x03) ∧
    (readyA 0x02 sm2.p 0).pa.tag = 0x02 ∧ sm2.p ≤ (readyA 0x02 sm2.p 0).pa.x.toNat ∧
    (readyA 0x02 0 0).pa.x.toNat < sm2.p ∧ IsRoot (readyA 0x02 0 0).pa.x.toNat 0 (wantsOdd (readyA 0x02 0 0).pa) ∧
    (readyA 0x03 1 0).pa.tag = 0x03 ∧ IsRoot (readyA 0x03 1 0).pa.x.toNat 1 (wantsOdd (readyA 0x03 1 0).pa) := by
  decide +kernel

theorem witness_FsqrtFollowsItsRule_no_root :
    (readyA 0x02 (sm2.p - 1) 0).pa.x.toNat < sm2.p ∧
    (¬ ∃ r, IsRoot (readyA 0x02 (sm2.p - 1) 0).pa.x.toNat r (wantsOdd (readyA 0x02 (sm2.p - 1) 0).pa)) ∧
    (¬ ∃ r, IsRoot (readyA 0x03 0 0).pa.x.toNat r (wantsOdd (readyA 0x03 0 0).pa)) := by
  refine ⟨by decide +kernel, ?_, ?_⟩
  · rintro ⟨r, -, h, -⟩
    refine no_root_of_euler (g := sm2.p - 1) (by decide +kernel) r ?_
    rw [h]
    decide +kernel
  · rintro ⟨r, hlt, h, hodd⟩
    have h0 : r * r % sm2.p = 0 := h
    have hdvd := Nat.dvd_of_mod_eq_zero h0
    have hr : sm2.p ∣ r := (sm2_p_prime.dvd_mul.1 hdvd).elim id id
    have hz : r = 0 := Nat.eq_zero_of_dvd_of_lt hr hlt
    subst hz
    exact absurd (hodd.2 rfl) (by decide)

theorem witness_FieldPrimitivesAreModular : (0 : Nat) < sm2.p ∧ sm2.p - 1 < sm2.p ∧ sm2.p - 1 ≠ 0 := by decide +kernel

theorem witness_FinvIsTheUniqueInverse : 0 < 2 ∧ 2 < sm2.p ∧ (sm2.p + 1) / 2 < sm2.p ∧
    fmul sm2 2 ((sm2.p + 1) / 2) = 1 := by decide +kernel

theorem witness_ResidueTestIsExact : sm2.p - 1 < sm2.p ∧ ¬ ∃ r, r < sm2.p ∧ fsqr sm2 r = sm2.p - 1 := by
  refine ⟨by decide +kernel, ?_⟩
  rintro ⟨r, -, h⟩
  refine no_root_of_euler (g := sm2.p - 1) (by decide +kernel) r ?_
  rw [show r * r % sm2.p = sm2.p - 1 from h]
  decide +kernel

theorem witness_PointsFormACommutativeGroup : isPoint sm2 .inf = true ∧ isPoint sm2 (basePoint sm2) = true ∧
    isPoint sm2 (pneg sm2 (basePoint sm2)) = true := by decide +kernel

theorem witness_PipelinesComputeTheGroupLaw : sm2.gx < sm2.p ∧ sm2.gy < sm2.p ∧ sm2.gy ≠ 0 ∧ sm2.p - 1 < sm2.p ∧
    sm2.gx ≠ sm2.p - 1 := by decide +kernel

/-- `READY = 1` with these two operands and this scalar. -/
def readyAB (k : Nat) (pa pb : Triple) : State := { ready with k := BitVec.ofNat 256 k, pa := pa, pb := pb }

/-- The helper states of the witnesses have `READY = 1` and no report. -/
theorem witness_ready : (∀ k pa pb, (readyAB k pa pb).status = ready.status) ∧
    (∀ t x y, (readyA t x y).status = ready.status) ∧ ready.status.ready = true ∧ ready.status.err = false :=
  ⟨fun _ _ _ => rfl, fun _ _ _ => rfl, rfl, rfl⟩

theorem witness_operands :
    GoodOperand tripleG ∧ GoodOperand tripleNegG ∧ GoodOperand triple2G ∧ GoodOperand { zeroTriple with x := 7 } ∧
    OperandFails { tripleG with tag := 0x05 } 1 ∧ OperandFails { tripleG with y := tripleG.y + 1 } 3 ∧
    OperandFails { tag := 0x04, x := BitVec.ofNat 256 sm2.p, y := 0 } 3 := by decide +kernel

theorem witness_PchkFollowsItsRule : ready.status.ready = true ∧ OperandFails (readyA 0x02 sm2.gx sm2.gy).pa 1 ∧
    OperandFails (readyA 0x04 sm2.gx sm2.p).pa 3 ∧ GoodOperand (readyA 0x00 123 456).pa ∧
    GoodOperand (readyA 0x04 sm2.gx sm2.gy).pa := by decide +kernel

theorem witness_NoPointHasOrderTwo : (readyA 0x04 0 0).status.ready = true ∧ (readyA 0x04 0 0).pa.tag = 0x04 ∧
    (readyA 0x04 0 0).pa.y = 0 := by decide +kernel

theorem witness_PaddFollowsItsRule : (readyAB 0 tripleG triple2G).status.ready = true ∧
    (GoodOperand (readyAB 0 tripleG tripleNegG).pa ∧ GoodOperand (readyAB 0 tripleG tripleNegG).pb) ∧
    OperandFails (readyAB 0 { tripleG with tag := 0x05 } tripleG).pa 1 ∧
    (GoodOperand (readyAB 0 tripleG { tripleG with tag := 0x03 }).pa ∧
      OperandFails (readyAB 0 tripleG { tripleG with tag := 0x03 }).pb 1) ∧
    (GoodOperand zeroTriple ∧ (readyAB 0 zeroTriple tripleG).pa.tag = 0x00 ∧ (readyAB 0 tripleG zeroTriple).pb.tag = 0x00) ∧
    ((readyAB 0 tripleG tripleNegG).pa.tag = 0x04 ∧ (readyAB 0 tripleG tripleNegG).pa.x = (readyAB 0 tripleG tripleNegG).pb.x ∧
      (readyAB 0 tripleG tripleNegG).pa.y ≠ (readyAB 0 tripleG tripleNegG).pb.y) ∧
    ((readyAB 0 tripleG tripleG).pa.x = (readyAB 0 tripleG tripleG).pb.x ∧
      (readyAB 0 tripleG tripleG).pa.y = (readyAB 0 tripleG tripleG).pb.y) ∧
    (GoodOperand (readyAB 0 tripleG triple2G).pa ∧ GoodOperand (readyAB 0 tripleG triple2G).pb ∧
      (readyAB 0 tripleG triple2G).pa.x ≠ (readyAB 0 tripleG triple2G).pb.x) := by decide +kernel

theorem witness_PdblFollowsItsRule : ready.status.ready = true ∧ OperandFails (readyA 0x03 sm2.gx sm2.gy).pa 1 ∧
    (readyA 0x00 1 1).pa.tag = 0x00 ∧ (readyA 0x04 sm2.gx sm2.gy).pa.tag = 0x04 ∧
    IsCurvePair (readyA 0x04 sm2.gx sm2.gy).pa.x.toNat (readyA 0x04 sm2.gx sm2.gy).pa.y.toNat := by decide +kernel

theorem witness_CompressFollowsItsRule : ready.status.ready = true ∧ (readyA 0x02 1 1).pa.tag ≠ 0x04 ∧
    (readyA 0x04 1 0).pa.tag = 0x04 ∧ (readyA 0x04 1 0).pa.y.toNat % 2 = 0 ∧
    (readyA 0x04 1 (2 ^ 256 - 1)).pa.y.toNat % 2 = 1 := by decide +kernel

theorem witness_DecompressFollowsItsRule : ready.status.ready = true ∧ (readyA 0x04 1 2).pa.tag = 0x04 ∧
    ((readyA 0x05 1 2).pa.tag ≠ 0x02 ∧ (readyA 0x05 1 2).pa.tag ≠ 0x03 ∧ (readyA 0x05 1 2).pa.tag ≠ 0x04) ∧
    IsCurvePair (readyA 0x02 sm2.gx 0).pa.x.toNat sm2.gy ∧
    (sm2.gy % 2 = 1 ↔ wantsOdd (readyA 0x02 sm2.gx 0).pa = true) ∧
    IsCurvePair (readyA 0x03 sm2.gx 0).pa.x.toNat (sm2.p - sm2.gy) ∧
    ((sm2.p - sm2.gy) % 2 = 1 ↔ wantsOdd (readyA 0x03 sm2.gx 0).pa = true) := by decide +kernel

theorem witness_DecompressFollowsItsRule_no_point :
    (¬ ∃ y, IsCurvePair (readyA 0x02 sm2.p 0).pa.x.toNat y ∧ (y % 2 = 1 ↔ wantsOdd (readyA 0x02 sm2.p 0).pa = true)) ∧
    (¬ ∃ y, IsCurvePair (readyA 0x02 2 0).pa.x.toNat y ∧ (y % 2 = 1 ↔ wantsOdd (readyA 0x02 2 0).pa = true)) := by
  constructor
  · rintro ⟨y, ⟨h, -, -⟩, -⟩
    exact absurd h (by decide +kernel)
  · rintro ⟨y, ⟨-, -, h⟩, -⟩
    refine no_root_of_euler (g := 2 ^ 3 + sm2.a * 2 + sm2.b) (by decide +kernel) y ?_
    rw [← sq, h]
    decide +kernel

theorem witness_CompressThenDecompressIsIdentity : (readyA 0x04 sm2.gx sm2.gy).status.ready = true ∧
    (readyA 0x04 sm2.gx sm2.gy).pa.tag = 0x04 ∧
    IsCurvePair (readyA 0x04 sm2.gx sm2.gy).pa.x.toNat (readyA 0x04 sm2.gx sm2.gy).pa.y.toNat := by decide +kernel

theorem witness_CodecIsIdempotent : decompressOutcome sm2 tripleG = .ok tripleG ∧
    decompressOutcome sm2 { tripleG with tag := 0x02, y := 0 } = .ok tripleG := by decide +kernel

theorem witness_LadderIsTheScalarMultiple : 0 < 2 ^ 256 ∧ 2 ^ 256 - 1 < 2 ^ 256 ∧ isPoint sm2 .inf = true ∧
    isPoint sm2 (basePoint sm2) = true := by decide +kernel

theorem witness_SequencerKeepsTheLadderInvariant : isPoint sm2 (basePoint sm2) = true ∧ 0 ≤ 256 ∧ 0 < 256 ∧ 256 ≤ 256 := by
  decide +kernel

/-- Points, and scalars at the ends of the ladder's range. -/
theorem witness_EveryPointHasOrderN : isPoint sm2 .inf = true ∧ isPoint sm2 (basePoint sm2) = true ∧ sm2.n ∣ 0 ∧
    sm2.n ∣ sm2.n ∧ 0 < 2 ^ 256 ∧ 2 ^ 256 - 1 < 2 ^ 256 := by decide +kernel

/-- The sequencer at `SWAP1` for the scalar 1, before its first iteration and before its last. -/
theorem witness_SequencerIterationKeepsTheInvariant :
    isPoint sm2 (basePoint sm2) = true ∧
    ((sequencerLoad (basePoint sm2)).phase = .swap1 ∧ (sequencerLoad (basePoint sm2)).i ≠ 0 ∧
      (sequencerLoad (basePoint sm2)).r0 =
        nTimes sm2 ((1 : U256).toNat / 2 ^ ((sequencerLoad (basePoint sm2)).i.toNat + 1)) (basePoint sm2) ∧
      (sequencerLoad (basePoint sm2)).r1 =
        nTimes sm2 ((1 : U256).toNat / 2 ^ ((sequencerLoad (basePoint sm2)).i.toNat + 1) + 1) (basePoint sm2)) ∧
    (({ sequencerLoad (basePoint sm2) with i := 0 } : Sequencer).phase = .swap1 ∧
      ({ sequencerLoad (basePoint sm2) with i := 0 } : Sequencer).r0 =
        nTimes sm2 ((1 : U256).toNat / 2 ^ (({ sequencerLoad (basePoint sm2) with i := 0 } : Sequencer).i.toNat + 1))
          (basePoint sm2) ∧
      ({ sequencerLoad (basePoint sm2) with i := 0 } : Sequencer).r1 =
        nTimes sm2 ((1 : U256).toNat / 2 ^ (({ sequencerLoad (basePoint sm2) with i := 0 } : Sequencer).i.toNat + 1) + 1)
          (basePoint sm2)) := by decide +kernel

theorem witness_SmulFollowsItsRule : ready.status.ready = true ∧ OperandFails (readyAB 2 { tripleG with tag := 0x02 } zeroTriple).pa 1 ∧
    GoodOperand (readyAB 0 tripleG zeroTriple).pa ∧ GoodOperand (readyAB (2 ^ 256 - 1) zeroTriple zeroTriple).pa := by
  decide +kernel

theorem witness_PubkeyFollowsItsRule : (readyAB 0 zeroTriple zeroTriple).k.toNat = 0 ∧
    sm2.n ≤ (readyAB sm2.n zeroTriple zeroTriple).k.toNat ∧
    (1 ≤ (readyAB 1 zeroTriple zeroTriple).k.toNat ∧ (readyAB 1 zeroTriple zeroTriple).k.toNat ≤ sm2.n - 1) ∧
    (1 ≤ (readyAB (sm2.n - 1) zeroTriple zeroTriple).k.toNat ∧
      (readyAB (sm2.n - 1) zeroTriple zeroTriple).k.toNat ≤ sm2.n - 1) := by decide +kernel

/-- `READY = 1` and this at the entropy port. -/
def readyE (e : PortEvent) : State := { ready with entropy := [e] }

theorem witness_KeygenFollowsItsRule : ready.status.ready = true ∧
    nextAnswer (readyE (.answers ⟨false, 5⟩)) = some ⟨false, 5⟩ ∧ nextAnswer (readyE (.answers ⟨true, 0⟩)) = some ⟨true, 0⟩ ∧
    nextAnswer (readyE (.answers ⟨true, BitVec.ofNat 256 (2 ^ 256 - 1)⟩)) =
      some ⟨true, BitVec.ofNat 256 (2 ^ 256 - 1)⟩ ∧
    (∃ d, nextAnswer ready = some d) := by
  refine ⟨rfl, rfl, rfl, rfl, ⟨_, rfl⟩⟩

theorem witness_OnlyASilentPortStops : (readyE .silent).status.ready = true ∧ nextAnswer (readyE .silent) = none ∧
    exec .keygen (readyE .silent) = .fault .entropySilent := ⟨rfl, rfl, rfl⟩

theorem witness_PubkeyReproducesKeygen : (readyE (.answers ⟨true, 0⟩)).status.ready = true ∧
    (readyE (.answers ⟨true, 0⟩)).status.err = false ∧
    ∃ t, exec .keygen (readyE (.answers ⟨true, 0⟩)) = .next t ∧ t.status.err = false := by
  refine ⟨rfl, rfl, complete { ready with draws := 1 } (keygenOutcome sm2 ⟨true, 0⟩), rfl, ?_⟩
  decide +kernel

theorem witness_CompletionFrame : (∃ t, exec .finv ready = .next t) ∧ (∃ t, exec .keygen ready = .next t) ∧
    (∃ t, exec .init State.reset = .next t) ∧ ready.status.ready = true := ⟨⟨_, rfl⟩, ⟨_, rfl⟩, ⟨_, rfl⟩, rfl⟩

theorem witness_ErrorsArePrecise : ready.status.err = false ∧
    (∃ t, exec .finv ready = .next t ∧ t.status.err = true) ∧
    (∃ t, exec .keygen (readyE (.answers ⟨false, 5⟩)) = .next t ∧ t.status.err = true) := by
  refine ⟨rfl, ⟨completeReady ready (finvOutcome sm2 ready.pa), rfl, by decide +kernel⟩,
    ⟨complete { ready with draws := 1 } (keygenOutcome sm2 ⟨false, 5⟩), rfl, rfl⟩⟩

theorem witness_CommandsRaiseOnlyTheirCodes : ready.status.err = false ∧
    ∃ t, exec .fsqrt ready = .next t ∧ t.status.err = true :=
  ⟨rfl, completeReady ready (fsqrtOutcome sm2 ready.pa), rfl, by decide +kernel⟩

theorem witness_OutcomeDependsOnlyOnTheOperandsRead :
    ({ readyA 0x04 1 2 with pb := tripleG, k := 9 } : State).status = (readyA 0x04 1 2).status ∧
    sameOperands .compress { readyA 0x04 1 2 with pb := tripleG, k := 9 } (readyA 0x04 1 2) ∧
    sameOperands .keygen { readyE (.answers ⟨true, 0⟩) with pa := tripleG } (readyE (.answers ⟨true, 0⟩)) ∧
    (∃ t, exec .compress { readyA 0x04 1 2 with pb := tripleG, k := 9 } = .next t) := ⟨rfl, rfl, rfl, ⟨_, rfl⟩⟩

theorem witness_RepeatingACommandRepeatsItsOutcome : Instr.init ≠ .keygen ∧ Instr.finv ≠ .keygen ∧
    State.reset.status.busy = false ∧ (∃ t, exec .init (accept State.reset (encode .init)) = .next t) ∧
    (∃ t, exec .finv (accept ready (encode .finv)) = .next t) :=
  ⟨by decide, by decide, rfl, ⟨_, rfl⟩, ⟨_, rfl⟩⟩

theorem witness_ResetFromAnyState : ({ running .finv ready with inputs := [.reset] } : State).inputs = .reset :: [] := rfl

/-- The report invariant while a command runs. -/
theorem reportInv_running : ReportInv (running .finv ready) := by
  constructor <;> simp [running, ready, State.reset]

theorem witness_StepKeepsReportInv : ReportInv (running .finv ready) ∧ ∃ t, step (running .finv ready) = .next t :=
  ⟨reportInv_running, completeReady (running .finv ready) (finvOutcome sm2 ready.pa), rfl⟩

theorem witness_StatusReadsAsOneOfThirteenWords : ReportInv (running .finv ready) := reportInv_running

theorem witness_RunsFromResetNeverStop :
    PortEvent.silent ∉ ([] : List PortEvent) ∧ PortEvent.silent ∉ [PortEvent.answers ⟨true, 0⟩] := by decide +kernel

theorem witness_ReadyStaysUntilReset : ready.status.ready = true ∧ (∃ t, step ready = .next t) ∧
    (∀ rest, ready.inputs ≠ .reset :: rest) := ⟨rfl, ⟨_, rfl⟩, nofun⟩

theorem witness_EveryAcceptedCommandCompletes :
    (({ running .keygen ready with inputs := [.host (.read 4 32), .reset] } : State).status.busy = true ∧
      PortEvent.silent ∉ ({ running .keygen ready with inputs := [.host (.read 4 32), .reset] } : State).entropy) ∧
    (({ running .keygen ready with inputs := [.host (.read 4 32), .engine] } : State).status.busy = true ∧
      Input.reset ∉ ({ running .keygen ready with inputs := [.host (.read 4 32), .engine] } : State).inputs ∧
      PortEvent.silent ∉ ({ running .keygen ready with inputs := [.host (.read 4 32), .engine] } : State).entropy) ∧
    (running .finv ready).inputs = [] ∧ PortEvent.silent ∉ [PortEvent.answers ⟨true, 0⟩] := by decide +kernel

theorem witness_HostCallsGoThroughTheWindow : (running .finv ready).status.busy = true ∧ ready.status.busy = false ∧
    (∃ t, exec .finv (accept ready (encode .finv)) = .next t) ∧
    (readyE .silent).status.busy = false ∧
    exec .keygen (accept (readyE .silent) (encode .keygen)) = .fault .entropySilent :=
  ⟨rfl, rfl, ⟨_, rfl⟩, rfl, rfl⟩

theorem witness_InitCurveLeavesTheBlockReady : State.reset.status.busy = false ∧ ready.status.busy = false := ⟨rfl, rfl⟩

end Sys2Proof.Tests
end

section
/-! PROOFS. O9: the words of R12, written out one after the other, are the value. -/

namespace Sys2Proof.Machine

/-- One more word on the right is 32 more bits below (R12). -/
@[simp] theorem valueOfWords_concat (ws : List Word32) (w : Word32) :
    valueOfWords (ws ++ [w]) = valueOfWords ws * 2 ^ 32 + w.toNat := by
  simp [valueOfWords]

theorem wordOf_toNat (v : U256) (i : Nat) : (wordOf v i).toNat = v.toNat / 2 ^ (224 - 32 * i) % 2 ^ 32 := by
  rw [wordOf, BitVec.extractLsb'_toNat, Nat.shiftRight_eq_div_pow]

/-- The first `m` words are the top `32·m` bits (R12). -/
theorem valueOfWords_range (v : U256) :
    ∀ m, m ≤ 8 → valueOfWords ((List.range m).map (wordOf v)) = v.toNat / 2 ^ (256 - 32 * m)
  | 0, _ => (Nat.div_eq_of_lt v.isLt).symm
  | m + 1, hm => by
    have hsplit : 256 - 32 * m = 224 - 32 * m + 32 := by omega
    have hnext : 256 - 32 * (m + 1) = 224 - 32 * m := by omega
    rw [List.range_succ, List.map_append, List.map_singleton, valueOfWords_concat, valueOfWords_range v m (by omega),
      wordOf_toNat, hsplit, hnext, pow_add, ← Nat.div_div_eq_div_mul, Nat.div_add_mod']

end Sys2Proof.Machine

/-- Settles O9: the first eight words are all 256 bits. -/
theorem wordsComposeTheValue : Obligations.WordsComposeTheValue := by
  intro v
  simpa using Sys2Proof.Machine.valueOfWords_range v 8 le_rfl
end

section
/-! PROOFS. O12: where an address of the platform lies in the window (R70, R88). -/

namespace Sys2Proof.Machine

open Sys2Proof.Config

theorem windowOffset_base_add {off : Nat} (h : off < windowSize) : windowOffset (base + off) = some off := by
  rw [windowOffset, if_pos (by omega), Nat.add_sub_cancel_left]

theorem windowOffset_outside {addr : Nat} (h : addr < base ∨ base + windowSize ≤ addr) : windowOffset addr = none :=
  if_neg (by omega)

end Sys2Proof.Machine

open Sys2Proof.Machine in
/-- Settles O12: both accesses go through `windowOffset`. -/
theorem windowSitsAtBase : Obligations.WindowSitsAtBase := by
  refine ⟨Nat.mul_mod_right _ _, fun s width w => ⟨fun off h => ?_, fun addr h => ?_⟩⟩
  · simp only [memRead, memWrite, windowOffset_base_add h, Option.bind_some, and_self]
  · simp only [memRead, memWrite, windowOffset_outside h, Option.bind_none, and_self]
end

section
/-! PROOFS. Double-and-add is the multiple (R237), and with it O24: the order of `G` is computed, and the number of points
follows from that order, the bound on the number and the absence of points of order two. -/

namespace Sys2Proof.Machine

open Sys2Proof.Config

variable {c : Curve} [Fact c.p.Prime]

/-- The value of the loop of `dbl_and_add`: the bits of `k` below `i` are still to be read. -/
theorem represents_dblAndAddLoop (hc : CurveOk c) (k : Nat) {q : Point} {P : (affineCurve c).Point}
    (hq : Represents c q P) : ∀ i {r : Point} {R : (affineCurve c).Point}, Represents c r R →
      Represents c (dblAndAddLoop c k q i r) (2 ^ i • R + (k % 2 ^ i) • P)
  | 0, r, R, hr => by simpa [dblAndAddLoop, Nat.mod_one] using hr
  | i + 1, r, R, hr => by
    have hd := represents_pdbl hc hr
    rw [dblAndAddLoop, mod_two_pow_succ, pow_succ]
    cases k.testBit i
    · have h := represents_dblAndAddLoop hc k hq i hd
      rw [← two_nsmul, ← mul_nsmul'] at h
      simpa only [Bool.false_eq_true, if_false, mul_zero, zero_add] using h
    · have h := represents_dblAndAddLoop hc k hq i (represents_padd hc hd hq)
      rw [nsmul_add, ← two_nsmul, ← mul_nsmul', add_assoc, ← add_nsmul] at h
      simpa only [if_true, mul_one] using h

/-- `dbl_and_add` is the group's multiple, for a scalar of 256 bits (R237). -/
theorem represents_dblAndAdd (hc : CurveOk c) {k : Nat} (hk : k < 2 ^ 256) {q : Point} {P : (affineCurve c).Point}
    (hq : Represents c q P) : Represents c (dblAndAdd c k q) (k • P) := by
  have h := represents_dblAndAddLoop hc k hq ladderBits (r := .inf) (R := 0) trivial
  rwa [nsmul_zero, zero_add, ladderBits, Nat.mod_eq_of_lt hk] at h

/-- `dbl_and_add` adds up `k` copies of the point (R237). -/
theorem dblAndAdd_eq_nTimes (hc : CurveOk c) {k : Nat} (hk : k < 2 ^ 256) {q : Point} (hq : isPoint c q = true) :
    dblAndAdd c k q = nTimes c k q := by
  obtain ⟨P, hP⟩ := exists_represents hc hq
  exact represents_unique (represents_dblAndAdd hc hk hP) (represents_nTimes hc hP k)

theorem nsmul_eq_zero_of_nTimes (hc : CurveOk c) {k : Nat} {q : Point} {P : (affineCurve c).Point}
    (hq : Represents c q P) (hk : nTimes c k q = .inf) : k • P = 0 := by
  have h := represents_nTimes hc hq k
  rw [hk] at h
  exact represents_inf h

/-- A group with fewer than `3·n` elements, one of prime order `n` and none of order two, has `n` elements. -/
theorem card_eq_of_prime_order {A : Type*} [AddGroup A] [Finite A] {n : Nat} (hn : n.Prime) {g : A} (hg : n • g = 0)
    (hg0 : g ≠ 0) (h2 : ∀ x : A, x + x = 0 → x = 0) (hlt : Nat.card A < 3 * n) : Nat.card A = n := by
  have : Fact n.Prime := ⟨hn⟩
  obtain ⟨m, hm⟩ : n ∣ Nat.card A := addOrderOf_eq_prime hg hg0 ▸ addOrderOf_dvd_natCard g
  have hm3 : m < 3 := Nat.lt_of_mul_lt_mul_left (a := n) (by omega)
  have hm0 : m ≠ 0 := by
    rintro rfl
    exact Nat.card_pos.ne' hm
  have hm2 : m ≠ 2 := by
    rintro rfl
    obtain ⟨x, hx⟩ := exists_prime_addOrderOf_dvd_card' (G := A) 2 ⟨n, by omega⟩
    have hx0 : x = 0 := h2 x (by rw [← two_nsmul, ← hx, addOrderOf_nsmul_eq_zero])
    simp [hx0] at hx
  obtain rfl : m = 1 := by omega
  rw [hm, mul_one]

theorem isPoint_basePoint : isPoint sm2 (basePoint sm2) = true := by decide +kernel

theorem sm2_n_lt : sm2.n < 2 ^ 256 := by decide

theorem dblAndAdd_order_basePoint : dblAndAdd sm2 sm2.n (basePoint sm2) = .inf := by decide +kernel

/-- R8 item 5. -/
theorem nTimes_order_basePoint : nTimes sm2 sm2.n (basePoint sm2) = .inf := by
  have : Fact sm2.p.Prime := ⟨sm2_p_prime⟩
  rw [← dblAndAdd_eq_nTimes sm2_ok sm2_n_lt isPoint_basePoint, dblAndAdd_order_basePoint]

/-- R8 item 6, in the group: `G` has order `n`, and `2·p + 1 < 3·n`. -/
theorem card_affineCurve_sm2 [Fact sm2.p.Prime] : Nat.card (affineCurve sm2).Point = sm2.n := by
  have hodd : sm2.p % 2 = 1 := by decide
  have : Finite (affineCurve sm2).Point := finite_points hodd
  obtain ⟨P, hP⟩ := exists_represents sm2_ok isPoint_basePoint
  have hnP : sm2.n • P = 0 := nsmul_eq_zero_of_nTimes sm2_ok hP nTimes_order_basePoint
  have hP0 : P ≠ 0 := by
    rintro rfl
    exact absurd (represents_zero hP) (by decide)
  have hlt : 2 * sm2.p + 1 < 3 * sm2.n := by decide
  exact card_eq_of_prime_order sm2_n_prime hnP hP0 (fun _ => sm2_no_order_two) ((card_points_le hodd).trans_lt hlt)

/-- R8 item 6: the engine's points, infinity among them. -/
theorem card_points_sm2 : Nat.card { q : Point // isPoint sm2 q = true } = sm2.n := by
  have : Fact sm2.p.Prime := ⟨sm2_p_prime⟩
  rw [card_points sm2_ok, card_affineCurve_sm2]

end Sys2Proof.Machine

open Sys2Proof.Machine in
/-- Settles O24: the primes by Lucas's test, the order of `G` by double-and-add, the number of points by
`card_points_sm2`, the rest by evaluating the constants. -/
theorem curveConstantsMeetTheConstraints : Obligations.CurveConstantsMeetTheConstraints where
  p_prime := ⟨sm2_p_prime, by decide, by decide⟩
  p_mod_four := by decide
  nonsingular := by decide +kernel
  base_on_curve := by decide +kernel
  base_order := ⟨sm2_n_prime, by decide, sm2_n_lt, nTimes_order_basePoint, by decide⟩
  cofactor_one := ⟨rfl, card_points_sm2⟩
end

section
/-! PROOFS. Rules of the state's operations, each said once: a completion field by field (R142), the host's writes (R73,
R79), the draw (R246), and a step by the kind of its slot (R80). -/

namespace Sys2Proof.Machine

/-! ### A completion, whatever its outcome -/

@[simp] theorem complete_cmd (s : State) (o : CmdOutcome) : (complete s o).cmd = s.cmd := by cases o <;> rfl
@[simp] theorem complete_pa (s : State) (o : CmdOutcome) : (complete s o).pa = s.pa := by cases o <;> rfl
@[simp] theorem complete_pb (s : State) (o : CmdOutcome) : (complete s o).pb = s.pb := by cases o <;> rfl
@[simp] theorem complete_inputs (s : State) (o : CmdOutcome) : (complete s o).inputs = s.inputs := by cases o <;> rfl
@[simp] theorem complete_answer (s : State) (o : CmdOutcome) : (complete s o).answer = s.answer := by cases o <;> rfl
@[simp] theorem complete_entropy (s : State) (o : CmdOutcome) : (complete s o).entropy = s.entropy := by cases o <;> rfl
@[simp] theorem complete_draws (s : State) (o : CmdOutcome) : (complete s o).draws = s.draws := by cases o <;> rfl
@[simp] theorem complete_busy (s : State) (o : CmdOutcome) : (complete s o).status.busy = false := by cases o <;> rfl
@[simp] theorem complete_ready (s : State) (o : CmdOutcome) : (complete s o).status.ready = s.status.ready := by
  cases o <;> rfl

theorem complete_k_of_own (s : State) {o : CmdOutcome} (ho : o.own) : (complete s o).k = s.k := by
  cases o with
  | okK => exact ho.elim
  | _ => rfl

/-- A completion reports success and keeps the error fields, or reports an error and keeps `DONE` and `K`, with `PR` zero
(R142, R304). -/
theorem complete_report (s : State) (o : CmdOutcome) :
    ((complete s o).status.done = true ∧ (complete s o).status.err = s.status.err ∧
        (complete s o).status.errcode = s.status.errcode) ∨
      ((complete s o).status.err = true ∧ (complete s o).status.done = s.status.done ∧
        (complete s o).pr = zeroTriple ∧ (complete s o).k = s.k) := by
  cases o with
  | fail => exact .inr ⟨rfl, rfl, rfl, rfl⟩
  | _ => exact .inl ⟨rfl, rfl, rfl⟩

/-! ### The host's accesses -/

/-- A running command refuses every write (R79, R141). -/
theorem hostWrite_busy {s : State} (hb : s.status.busy = true) (off width : Nat) (w : Word32) :
    hostWrite s off width w = none := by
  refine Option.eq_none_iff_forall_ne_some.2 fun t ht => ?_
  obtain ⟨-, -, -, -, -, hidle, -⟩ := hostWrite_some ht
  simp [hb] at hidle

/-- Everything an admitted write can do: it accepts a command, or changes operand registers only (R73). -/
theorem writeReg_some {s u : State} {i : Nat} {w : Word32} {r : Reg} (h : writeReg s i w r = some u) :
    u = accept s w ∨ ∃ k pa pb, u = { s with k := k, pa := pa, pb := pb } := by
  cases r
  case cmd => exact .inl (Option.some.inj h).symm
  case paTag | pbTag | k | paX | paY | pbX | pbY => exact .inr ⟨_, _, _, (Option.some.inj h).symm⟩
  all_goals cases h

/-- Everything a transaction can do: it changes only the answer the host holds, or accepts a command word, or writes
operand registers. -/
theorem transact_effect (s : State) (x : Txn) :
    (∃ a, transact s x = { s with answer := a }) ∨
    (∃ w a, transact s x = { accept s w with answer := a }) ∨
    (∃ k pa pb a, transact s x = { s with k := k, pa := pa, pb := pb, answer := a }) := by
  rcases transact_cases s x with ⟨a, h⟩ | ⟨r, i, w, u, -, -, -, hu, h⟩
  · exact .inl ⟨_, h⟩
  · rcases writeReg_some hu with rfl | ⟨k, pa, pb, rfl⟩
    · exact .inr (.inl ⟨w, _, h⟩)
    · exact .inr (.inr ⟨k, pa, pb, _, h⟩)

/-! ### The draw -/

/-- The port never answers only where the environment says so (U13). -/
theorem silent_mem_of_entropyDraw_none {s : State} (h : entropyDraw s = none) : PortEvent.silent ∈ s.entropy := by
  unfold entropyDraw at h
  split at h
  · cases h
  · cases h
  · rename_i he
    simp [he]

/-! ### A step, by the kind of its slot -/

theorem engineStep_idle {s : State} (hb : s.status.busy = false) : engineStep s = .next s := by
  simp [engineStep, hb]

theorem step_nil {s : State} (h : s.inputs = []) : step s = engineStep s := by
  simp [step, h]

theorem step_engine {s : State} {rest : List Input} (h : s.inputs = .engine :: rest) :
    step s = engineStep { s with inputs := rest } := by
  simp [step, h]

theorem step_host {s : State} {x : Txn} {rest : List Input} (h : s.inputs = .host x :: rest) :
    step s = .next (transact { s with inputs := rest } x) := by
  simp [step, h]

theorem step_reset {s : State} {rest : List Input} (h : s.inputs = .reset :: rest) :
    step s = .next (resetEvent { s with inputs := rest }) := by
  simp [step, h]

/-- The engine's slot stops only where the port never answers (R300, R348). -/
theorem engineStep_answers {s : State} (he : PortEvent.silent ∉ s.entropy) : ∃ t, engineStep s = .next t := by
  by_contra! hstop
  unfold engineStep at hstop
  split at hstop
  · split at hstop
    · obtain ⟨-, -, hdraw, -⟩ := exec_stop hstop
      exact he (silent_mem_of_entropyDraw_none hdraw)
    · exact hstop _ rfl
  · exact hstop _ rfl

/-- A step stops only where the port never answers (R300, R348). -/
theorem step_answers {s : State} (he : PortEvent.silent ∉ s.entropy) : ∃ t, step s = .next t := by
  match h : s.inputs with
  | [] => exact step_nil h ▸ engineStep_answers he
  | .engine :: rest => exact step_engine h ▸ engineStep_answers he
  | .host x :: rest => exact ⟨_, step_host h⟩
  | .reset :: rest => exact ⟨_, step_reset h⟩

/-! ### The port's list along a step -/

theorem exec_entropy {i : Instr} {s t : State} (h : exec i s = .next t) :
    t.entropy = s.entropy ∨ t.entropy = s.entropy.tail := by
  rcases exec_next h with ⟨-, rfl⟩ | ⟨-, -, rfl⟩ | ⟨-, -, -, o, -, rfl⟩ | ⟨-, -, d, u, hdraw, rfl⟩
  · exact .inl rfl
  · exact .inl rfl
  · exact .inl (complete_entropy s o)
  · obtain ⟨rfl, -⟩ := entropyDraw_some hdraw
    exact .inr (complete_entropy _ _)

theorem engineStep_entropy {s t : State} (h : engineStep s = .next t) :
    t.entropy = s.entropy ∨ t.entropy = s.entropy.tail := by
  rcases engineStep_next h with ⟨-, rfl⟩ | ⟨-, -, rfl⟩ | ⟨-, i, -, hx⟩
  · exact .inl rfl
  · exact .inl rfl
  · exact exec_entropy hx

theorem transact_entropy (s : State) (x : Txn) : (transact s x).entropy = s.entropy := by
  rcases transact_effect s x with ⟨a, h⟩ | ⟨w, a, h⟩ | ⟨k, pa, pb, a, h⟩ <;> simp only [h, accept_entropy]

/-- A step takes at most the first of the port's stated answers (R246). -/
theorem step_entropy {s t : State} (h : step s = .next t) :
    t.entropy = s.entropy ∨ t.entropy = s.entropy.tail := by
  rcases step_next h with ⟨-, hx⟩ | ⟨rest, -, hx⟩ | ⟨x, rest, -, rfl⟩ | ⟨rest, -, rfl⟩
  · exact engineStep_entropy hx
  · exact engineStep_entropy (s := { s with inputs := rest }) hx
  · exact .inl (transact_entropy _ x)
  · exact .inl rfl

theorem step_keeps_not_silent {s t : State} (h : step s = .next t) (he : PortEvent.silent ∉ s.entropy) :
    PortEvent.silent ∉ t.entropy := by
  rcases step_entropy h with ht | ht <;> rw [ht]
  · exact he
  · exact fun hm => he (List.mem_of_mem_tail hm)

/-- A run's first step. -/
theorem run_succ_of_step {s t : State} (h : step s = .next t) (m : Nat) :
    Host.Core.run Sys2Proof.core (m + 1) s = Host.Core.run Sys2Proof.core m t := by
  rw [Nat.add_comm]
  refine run_append 1 m s t ?_
  have hcore : Sys2Proof.core.step s = .next t := h
  simp only [Host.Core.run, hcore]

end Sys2Proof.Machine
end

section
/-! PROOFS. O10 and O14: the host's and the engine's slots (R37 item 5, R80, R141). -/

open Sys2Proof.Machine

/-- Settles O10: a read leaves the block as it is, and a write is refused. -/
theorem busyPhaseKeepsTheHostOut : Obligations.BusyPhaseKeepsTheHostOut := by
  intro s x hb
  cases x with
  | read off width =>
    cases h : hostRead s off width with
    | none => exact ⟨.refused, by simp only [transact, h], by simp⟩
    | some w => exact ⟨.word w, by simp only [transact, h], by simp⟩
  | write off width w => exact ⟨.refused, by simp only [transact, hostWrite_busy hb], fun _ _ _ _ => rfl⟩

/-- Settles O14: `step` by the first slot of the schedule. -/
theorem stepPlaysOneSlot : Obligations.StepPlaysOneSlot := by
  intro s
  refine ⟨fun x rest h => step_host h, fun rest h => step_reset h, fun hb h => ?_, fun rest hb h => ?_⟩
  · rw [step_nil h, engineStep_idle hb]
  · exact (step_engine h).trans (engineStep_idle (s := { s with inputs := rest }) hb)
end

section
/-! PROOFS. O45: the frame of a completion (R44, R102, R142), by the four things a command can do. -/

open Sys2Proof.Machine

/-- Settles O45: INIT, `NOTREADY`, a command's own outcome, and KEYGEN's outcome after one draw. -/
theorem completionFrame : Obligations.CompletionFrame := by
  intro i s t h
  rcases exec_next h with ⟨rfl, rfl⟩ | ⟨hi, hr, rfl⟩ | ⟨hi, hk, hr, o, ho, rfl⟩ | ⟨rfl, hr, d, u, hdraw, rfl⟩
  · simp
  · simp [hr, zeroTriple]
  · have hK := complete_k_of_own s ho
    simpa [hK, hi, hk, zeroTriple] using complete_report s o
  · obtain ⟨rfl, -⟩ := entropyDraw_some hdraw
    simpa [hr, zeroTriple] using complete_report _ (keygenOutcome sm2 d)
end

section
/-! PROOFS. O52 to O54: the report invariant (R37) says which of four kinds of report `STATUS` holds, and what comes with
each. A step's effect on the invariant is then its effect on the report. -/

namespace Sys2Proof.Machine

open Sys2Proof.Config Sys2Proof.Safety

/-- The kinds of report: none yet, a command running, completed, completed with an error. -/
inductive Report where
  | silent
  | running (ready : Bool)
  | done
  | failed (ready : Bool) (e : Err)

/-- `STATUS` under a report (R36). -/
def Report.status : Report → Status
  | .silent => { ready := false, busy := false, done := false, err := false, errcode := 0 }
  | .running r => { ready := r, busy := true, done := false, err := false, errcode := 0 }
  | .done => { ready := true, busy := false, done := true, err := false, errcode := 0 }
  | .failed r e => { ready := r, busy := false, done := false, err := true, errcode := errCode e }

/-- The code an error completion reports is `ILLEGAL` exactly for words that are no command (R104), and otherwise `NOTREADY`
exactly before INIT (R144). -/
def CodeFits (cmd : Word32) (ready : Bool) (e : Err) : Prop :=
  (e = .illegal ↔ ∀ i, decode cmd ≠ .ok i) ∧ (e ≠ .illegal → (e = .notReady ↔ ready = false))

/-- What a report says of `CMD` and `PR`. -/
def Report.Fits (cmd : Word32) (pr : Triple) : Report → Prop
  | .silent => cmd = 0 ∧ pr = zeroTriple
  | .running _ => True
  | .done => ∃ i, decode cmd = .ok i
  | .failed r e => pr = zeroTriple ∧ CodeFits cmd r e

@[simp] theorem errCode_ne_zero (e : Err) : errCode e ≠ 0#4 := by cases e <;> decide

@[simp] theorem errCode_le (e : Err) : (errCode e).toNat ≤ 8 := by cases e <;> decide

@[simp] theorem errCode_eq_five {e : Err} : errCode e = 5#4 ↔ e = .illegal := by cases e <;> decide

@[simp] theorem errCode_eq_six {e : Err} : errCode e = 6#4 ↔ e = .notReady := by cases e <;> decide

/-- The codes of R301 are the numbers 1 to 8. -/
theorem exists_errCode_eq {c : BitVec 4} (h0 : c ≠ 0) (h8 : c.toNat ≤ 8) : ∃ e, errCode e = c := by
  have hall : ∀ c : BitVec 4, c ≠ 0 → c.toNat ≤ 8 →
      ∃ e ∈ [Err.decode, .scalar, .point, .entropy, .illegal, .notReady, .range, .noInv], errCode e = c := by
    decide
  obtain ⟨e, -, he⟩ := hall c h0 h8
  exact ⟨e, he⟩

theorem reportInv_of_report {s : State} {r : Report} (hs : s.status = r.status) (hf : r.Fits s.cmd s.pr) :
    ReportInv s := by
  cases r with
  | failed r e =>
    obtain ⟨hpr, hill, hnr⟩ := hf
    constructor <;> simp_all [Report.status]
  | _ => constructor <;> simp_all [Report.status, Report.Fits]

theorem exists_report {s : State} (h : ReportInv s) : ∃ r : Report, s.status = r.status ∧ r.Fits s.cmd s.pr := by
  obtain ⟨⟨hbusy, hdone⟩, hcode, hsilent, hready, hpr, hknown, hill, hnr⟩ := h
  obtain ⟨cmd, ⟨r, b, d, e, c⟩, k, pa, pb, pr, xs, a, en, n⟩ := s
  simp only at *
  cases e with
  | true =>
    obtain ⟨err, rfl⟩ := exists_errCode_eq (hcode.2 rfl) (hknown rfl)
    refine ⟨.failed r err, ?_, hpr rfl, ?_⟩
    · simp_all [Report.status]
    · exact ⟨by simpa using hill rfl, by simpa using hnr rfl⟩
  | false =>
    obtain rfl : c = 0 := by simpa using hcode
    cases b with
    | true => exact ⟨.running r, by simp_all [Report.status], trivial⟩
    | false =>
      cases d with
      | true => exact ⟨.done, by simp_all [Report.status], (hready rfl).2⟩
      | false =>
        obtain ⟨rfl, hcmd, hzero⟩ := hsilent rfl rfl rfl
        exact ⟨.silent, rfl, hcmd, hzero⟩

/-- The report invariant says: `STATUS` holds one of the reports, and `CMD` and `PR` fit it. -/
theorem reportInv_iff (s : State) : ReportInv s ↔ ∃ r : Report, s.status = r.status ∧ r.Fits s.cmd s.pr :=
  ⟨exists_report, fun ⟨_, hs, hf⟩ => reportInv_of_report hs hf⟩

/-- The invariant is about `STATUS`, `CMD` and `PR` only. -/
theorem reportInv_congr {s t : State} (h : ReportInv s) (hs : t.status = s.status) (hc : t.cmd = s.cmd)
    (hp : t.pr = s.pr) : ReportInv t := by
  rw [reportInv_iff] at h ⊢
  rwa [hs, hc, hp]

/-- While `BUSY = 1` the report is that of a running command. -/
theorem status_of_busy {s : State} (h : ReportInv s) (hb : s.status.busy = true) :
    s.status = (Report.running s.status.ready).status := by
  obtain ⟨r, hs, -⟩ := exists_report h
  rw [hs] at hb ⊢
  cases r with
  | running => rfl
  | _ => cases hb

theorem reportInv_accept (s : State) (w : Word32) : ReportInv (accept s w) :=
  reportInv_of_report (r := .running s.status.ready) rfl trivial

theorem reportInv_takeError {s : State} {e : Err} (h : ReportInv s) (hb : s.status.busy = true)
    (he : CodeFits s.cmd s.status.ready e) : ReportInv (takeError s e) := by
  refine reportInv_of_report (r := .failed s.status.ready e) ?_ ⟨rfl, he⟩
  rw [takeError_status, status_of_busy h hb]
  rfl

theorem reportInv_completeInit {s : State} {i : Instr} (h : ReportInv s) (hb : s.status.busy = true)
    (hi : decode s.cmd = .ok i) : ReportInv (completeInit s) := by
  refine reportInv_of_report (r := .done) ?_ ⟨i, hi⟩
  rw [completeInit_status, status_of_busy h hb]
  rfl

/-- After INIT a legal command completes with `DONE`, or with a code other than those of the common checks (R143, R144). -/
theorem reportInv_complete {s : State} {i : Instr} {o : CmdOutcome} (h : ReportInv s) (hb : s.status.busy = true)
    (hi : decode s.cmd = .ok i) (hr : s.status.ready = true)
    (ho : ∀ e, o = .fail e → e ≠ .illegal ∧ e ≠ .notReady) : ReportInv (complete s o) := by
  have hdone : statusDone s.status = Report.done.status := by
    rw [status_of_busy h hb, hr]
    rfl
  cases o with
  | ok t => exact reportInv_of_report hdone ⟨i, hi⟩
  | okK t k => exact reportInv_of_report hdone ⟨i, hi⟩
  | fail e =>
    obtain ⟨hill, hnr⟩ := ho e rfl
    exact reportInv_takeError h hb ⟨by simp [hill, hi], by simp [hnr, hr]⟩

theorem fail_of_own {o : CmdOutcome} (ho : o.own) (e : Err) (he : o = .fail e) : e ≠ .illegal ∧ e ≠ .notReady := by
  subst he
  exact ho

/-- KEYGEN fails only with `ENTROPY` (R243, R247). -/
theorem keygenOutcome_fail {c : Curve} {d : Draw} {e : Err} (h : keygenOutcome c d = .fail e) : e = .entropy := by
  unfold keygenOutcome at h
  split at h
  · exact (CmdOutcome.fail.inj h).symm
  · cases h

theorem exec_keeps_reportInv {i : Instr} {s t : State} (h : ReportInv s) (hb : s.status.busy = true)
    (hi : decode s.cmd = .ok i) (hx : exec i s = .next t) : ReportInv t := by
  rcases exec_next hx with ⟨-, rfl⟩ | ⟨-, hr, rfl⟩ | ⟨-, -, hr, o, ho, rfl⟩ | ⟨-, hr, d, u, hdraw, rfl⟩
  · exact reportInv_completeInit h hb hi
  · exact reportInv_takeError h hb ⟨by simp [hi], by simp [hr]⟩
  · exact reportInv_complete h hb hi hr (fail_of_own ho)
  · obtain ⟨rfl, -⟩ := entropyDraw_some hdraw
    refine reportInv_complete (i := i) (reportInv_congr h rfl rfl rfl) hb hi hr fun e he => ?_
    simp [keygenOutcome_fail he]

theorem engineStep_keeps_reportInv {s t : State} (h : ReportInv s) (hx : engineStep s = .next t) : ReportInv t := by
  rcases engineStep_next hx with ⟨-, rfl⟩ | ⟨hb, hill, rfl⟩ | ⟨hb, i, hi, hx⟩
  · exact h
  · exact reportInv_takeError h hb ⟨by simpa using hill, by simp⟩
  · exact exec_keeps_reportInv h hb hi hx

theorem transact_keeps_reportInv {s : State} (h : ReportInv s) (x : Txn) : ReportInv (transact s x) := by
  rcases transact_effect s x with ⟨a, ht⟩ | ⟨w, a, ht⟩ | ⟨k, pa, pb, a, ht⟩ <;> rw [ht]
  · exact reportInv_congr h rfl rfl rfl
  · exact reportInv_congr (reportInv_accept s w) rfl rfl rfl
  · exact reportInv_congr h rfl rfl rfl

end Sys2Proof.Machine

open Sys2Proof.Machine Sys2Proof.Safety

/-- Settles O53: at reset nothing is reported. -/
theorem resetHasReportInv : Obligations.ResetHasReportInv :=
  reportInv_of_report (r := .silent) rfl ⟨rfl, rfl⟩

/-- Settles O52, by the kind of the slot the step plays. -/
theorem stepKeepsReportInv : Obligations.StepKeepsReportInv := by
  intro s t h hstep
  have hslot (rest : List Input) : ReportInv { s with inputs := rest } := reportInv_congr h rfl rfl rfl
  rcases step_next hstep with ⟨-, hx⟩ | ⟨rest, -, hx⟩ | ⟨x, rest, -, rfl⟩ | ⟨rest, -, rfl⟩
  · exact engineStep_keeps_reportInv h hx
  · exact engineStep_keeps_reportInv (hslot rest) hx
  · exact transact_keeps_reportInv (hslot rest) x
  · exact reportInv_congr resetHasReportInv rfl rfl rfl

/-- Settles O54: a word for each report, with R144 excluding the codes that do not go with `READY`. -/
theorem statusReadsAsOneOfThirteenWords : Obligations.StatusReadsAsOneOfThirteenWords := by
  intro s h
  refine ⟨statusWord s.status, hostRead_word s .status 0 (by decide) (.inr rfl), ?_⟩
  obtain ⟨r, hs, hf⟩ := exists_report h
  rw [hs]
  cases r with
  | silent => decide
  | running r => cases r <;> decide
  | done => decide
  | failed r e =>
    obtain ⟨-, -, hnr⟩ := hf
    cases e
    case illegal => cases r <;> decide
    all_goals
      obtain rfl : r = _ := by simpa using hnr (by decide)
      decide
end

section
/-! PROOFS. O55: `READY` along a step (R37 item 4, R46). -/

namespace Sys2Proof.Machine

theorem exec_keeps_ready {i : Instr} {s t : State} (hr : s.status.ready = true) (hx : exec i s = .next t) :
    t.status.ready = true := by
  rcases exec_next hx with ⟨-, rfl⟩ | ⟨-, -, rfl⟩ | ⟨-, -, -, o, -, rfl⟩ | ⟨-, -, d, u, hdraw, rfl⟩
  · rfl
  · exact hr
  · rwa [complete_ready]
  · obtain ⟨rfl, -⟩ := entropyDraw_some hdraw
    rwa [complete_ready]

theorem engineStep_keeps_ready {s t : State} (hr : s.status.ready = true) (hx : engineStep s = .next t) :
    t.status.ready = true := by
  rcases engineStep_next hx with ⟨-, rfl⟩ | ⟨-, -, rfl⟩ | ⟨-, i, -, hx⟩
  · exact hr
  · exact hr
  · exact exec_keeps_ready hr hx

theorem transact_ready (s : State) (x : Txn) : (transact s x).status.ready = s.status.ready := by
  rcases transact_effect s x with ⟨a, h⟩ | ⟨w, a, h⟩ | ⟨k, pa, pb, a, h⟩ <;>
    simp only [h, accept_status, statusAccepted_ready]

end Sys2Proof.Machine

open Sys2Proof.Machine

/-- Settles O55, by the kind of the slot the step plays. -/
theorem readyStaysUntilReset : Obligations.ReadyStaysUntilReset := by
  intro s t hr hstep hno
  rcases step_next hstep with ⟨-, hx⟩ | ⟨rest, -, hx⟩ | ⟨x, rest, -, rfl⟩ | ⟨rest, hreset, -⟩
  · exact engineStep_keeps_ready hr hx
  · exact engineStep_keeps_ready (s := { s with inputs := rest }) hr hx
  · rwa [transact_ready]
  · exact absurd hreset (hno rest)
end

section
/-! PROOFS. O57: runs (R37, R300, R348). -/

namespace Sys2Proof.Machine

open Sys2Proof.Safety

/-- With a port that answers, a run from a state with the report invariant does not stop and keeps it. -/
theorem run_keeps_reportInv :
    ∀ (m : Nat) {s : State}, ReportInv s → PortEvent.silent ∉ s.entropy →
      ∃ t, Host.Core.run Sys2Proof.core m s = .next t ∧ ReportInv t
  | 0, s, h, _ => ⟨s, rfl, h⟩
  | m + 1, s, h, he => by
    obtain ⟨u, hu⟩ := step_answers he
    rw [run_succ_of_step hu]
    exact run_keeps_reportInv m (stepKeepsReportInv s u h hu) (step_keeps_not_silent hu he)

end Sys2Proof.Machine

open Sys2Proof.Machine

/-- Settles O57, by induction on the number of steps. -/
theorem runsFromResetNeverStop : Obligations.RunsFromResetNeverStop :=
  fun _ _ m he => run_keeps_reportInv m (reportInv_congr resetHasReportInv rfl rfl rfl) he
end

section
/-! PROOFS. O4 to O6: the host's accesses (R71 to R73, R79), by the register an offset lies in. -/

namespace Sys2Proof.Machine

/-! ### What a transaction answers -/

theorem transact_read_admitted {s : State} {off width : Nat} {r : Word32} (h : hostRead s off width = some r) :
    transact s (.read off width) = { s with answer := some (.word r) } := by
  simp only [transact, h]

theorem transact_read_refused {s : State} {off width : Nat} (h : hostRead s off width = none) :
    transact s (.read off width) = { s with answer := some .refused } := by
  simp only [transact, h]

theorem transact_write_admitted {s t : State} {off width : Nat} {w : Word32} (h : hostWrite s off width w = some t) :
    transact s (.write off width w) = { t with answer := some .wrote } := by
  simp only [transact, h]

theorem transact_write_refused {s : State} {off width : Nat} {w : Word32} (h : hostWrite s off width w = none) :
    transact s (.write off width w) = { s with answer := some .refused } := by
  simp only [transact, h]

/-! ### Which accesses are admitted -/

theorem mem_allRegs (r : Reg) : r ∈ allRegs := by cases r <;> decide

/-- The writable rows of R71. -/
def writableRegs : List Reg := [.cmd, .paTag, .pbTag, .k, .paX, .paY, .pbX, .pbY]

/-- Exactly the writable registers take a word (R73, R79). -/
theorem writeReg_admitted_iff (s : State) (i : Nat) (w : Word32) (r : Reg) :
    (∃ t, writeReg s i w r = some t) ↔ r ∈ writableRegs := by
  cases r <;> simp [writeReg, writableRegs]

/-- An offset of a word of a register is an aligned one between the register's ends (R71). -/
theorem exists_word_iff (off : Nat) (r : Reg) :
    (∃ i, off = regOffset r + 4 * i ∧ i < regWords r) ↔
      off % 4 = 0 ∧ regOffset r ≤ off ∧ off < regOffset r + 4 * regWords r := by
  have aligned : regOffset r % 4 = 0 := by cases r <;> rfl
  constructor
  · rintro ⟨i, rfl, hi⟩
    omega
  · rintro ⟨h4, hlo, hhi⟩
    exact ⟨(off - regOffset r) / 4, by omega, by omega⟩

theorem hostRead_admitted_iff (s : State) (off width : Nat) :
    (∃ w, hostRead s off width = some w) ↔
      width = 32 ∧ off % 4 = 0 ∧ ∃ r ∈ allRegs,
        (s.status.busy = false ∨ regReadableBusy r = true) ∧ regOffset r ≤ off ∧ off < regOffset r + 4 * regWords r := by
  constructor
  · rintro ⟨w, h⟩
    obtain ⟨r, i, hw, hoff, hi, hb, -⟩ := hostRead_some h
    obtain ⟨h4, hin⟩ := (exists_word_iff off r).1 ⟨i, hoff, hi⟩
    exact ⟨hw, h4, r, mem_allRegs r, hb, hin⟩
  · rintro ⟨rfl, h4, r, -, hb, hin⟩
    obtain ⟨i, rfl, hi⟩ := (exists_word_iff off r).2 ⟨h4, hin⟩
    exact ⟨_, hostRead_word s r i hi hb⟩

theorem hostWrite_admitted_iff (s : State) (off width : Nat) (w : Word32) :
    (∃ t, hostWrite s off width w = some t) ↔
      width = 32 ∧ off % 4 = 0 ∧ s.status.busy = false ∧ ∃ r ∈ writableRegs,
        regOffset r ≤ off ∧ off < regOffset r + 4 * regWords r := by
  constructor
  · rintro ⟨t, h⟩
    obtain ⟨r, i, hw, hoff, hi, hb, ht⟩ := hostWrite_some h
    obtain ⟨h4, hin⟩ := (exists_word_iff off r).1 ⟨i, hoff, hi⟩
    exact ⟨hw, h4, hb, r, (writeReg_admitted_iff s i w r).1 ⟨t, ht⟩, hin⟩
  · rintro ⟨rfl, h4, hb, r, hr, hin⟩
    obtain ⟨i, rfl, hi⟩ := (exists_word_iff off r).2 ⟨h4, hin⟩
    rw [hostWrite_word s r i w hi hb]
    exact (writeReg_admitted_iff s i w r).2 hr

/-- Up to the last constant the readable registers leave two gaps, at `0x008` and at `0x01C`; while a command runs `CMD`,
`STATUS` and the constants stay readable (R71). -/
theorem readable_offset_iff (b : Bool) {off : Nat} (h4 : off % 4 = 0) :
    (∃ r ∈ allRegs, (b = false ∨ regReadableBusy r = true) ∧ regOffset r ≤ off ∧ off < regOffset r + 4 * regWords r) ↔
      off ≤ 0x004 ∨ (0x100 ≤ off ∧ off < 0x1E0) ∨
        (b = false ∧ ((0x010 ≤ off ∧ off < 0x01C) ∨ (0x020 ≤ off ∧ off < 0x100))) := by
  simp only [allRegs, List.mem_cons, List.not_mem_nil, exists_eq_or_imp, exists_eq_left, or_false, regOffset,
    regWords, regReadableBusy]
  cases b with
  | false =>
    simp only [true_or, true_and]
    omega
  | true =>
    simp only [reduceCtorEq, or_false, false_or, or_true, true_and, false_and]
    omega

/-- The writable registers are `CMD`, two tags, and `K` to `PB_Y`, which have no gap (R71). -/
theorem writable_offset_iff {off : Nat} (h4 : off % 4 = 0) :
    (∃ r ∈ writableRegs, regOffset r ≤ off ∧ off < regOffset r + 4 * regWords r) ↔
      off = 0x000 ∨ off = 0x010 ∨ off = 0x014 ∨ (0x020 ≤ off ∧ off < 0x0C0) := by
  simp only [writableRegs, List.mem_cons, List.not_mem_nil, exists_eq_or_imp, exists_eq_left, or_false, regOffset,
    regWords]
  omega

/-! ### Tags and words -/

theorem setWidth_tag (t : Tag) : t.setWidth 32 = (0 : BitVec 24) ++ t := BitVec.setWidth_eq_append (by decide)

theorem setWidth_word (w : Word32) : w.setWidth 8 = w.extractLsb' 0 8 := BitVec.setWidth_eq_extractLsb' (by decide)

/-- Replacing word `i` and keeping the others determines the value (R73). -/
theorem eq_setWord {i : Nat} (hi : i < 8) {w : Word32} {u v : U256} (hw : wordOf u i = w)
    (hother : ∀ j, j < 8 → j ≠ i → wordOf u j = wordOf v j) : u = setWord v i w := by
  refine eq_of_words fun j hj => ?_
  by_cases hji : j = i
  · rw [hji, hw, wordOf_setWord_same v i w hi]
  · rw [hother j hj hji, wordOf_setWord_other v i j w hi hj hji]

end Sys2Proof.Machine

open Sys2Proof.Machine

/-- Settles O6: the four answers, one each. -/
theorem transactionsAnswerTheHost : Obligations.TransactionsAnswerTheHost :=
  fun _ _ _ _ => ⟨fun _ h => transact_read_admitted h, transact_read_refused, fun _ h => transact_write_admitted h,
    transact_write_refused⟩

/-- Settles O4: a read by the register its offset lies in. -/
theorem hostReadFollowsTheRegisterMap : Obligations.HostReadFollowsTheRegisterMap := by
  intro s
  refine ⟨fun off width => ?_, hostRead_word s .cmd 0 (by decide) (.inr rfl),
    hostRead_word s .status 0 (by decide) (.inr rfl), fun hb => ⟨?_, ?_, ?_⟩, fun hb i hi => ?_, fun i hi => ?_,
    fun off width => ?_⟩
  · rw [hostRead_admitted_iff]
    exact and_congr_right fun _ => and_congr_right fun h4 => readable_offset_iff s.status.busy h4
  · exact (hostRead_word s .paTag 0 (by decide) (.inl hb)).trans (congrArg some (setWidth_tag _))
  · exact (hostRead_word s .pbTag 0 (by decide) (.inl hb)).trans (congrArg some (setWidth_tag _))
  · exact (hostRead_word s .prTag 0 (by decide) (.inl hb)).trans (congrArg some (setWidth_tag _))
  · have word (r : Reg) (h : regWords r = 8) := hostRead_word s r i (h ▸ hi) (.inl hb)
    exact ⟨word .k rfl, word .paX rfl, word .paY rfl, word .pbX rfl, word .pbY rfl, word .prX rfl, word .prY rfl⟩
  · have word (r : Reg) (h : regWords r = 8) (hr : regReadableBusy r = true) := hostRead_word s r i (h ▸ hi) (.inr hr)
    exact ⟨word .cP rfl rfl, word .cA rfl rfl, word .cB rfl rfl, word .cGX rfl rfl, word .cGY rfl rfl,
      word .cN rfl rfl, word .cH rfl rfl⟩
  · cases h : hostRead s off width with
    | none => rw [transact_read_refused h]
    | some r => rw [transact_read_admitted h]

/-- Settles O5: a write by the register its offset lies in; a function that replaces one word is `setWord`. -/
theorem hostWriteFollowsTheRegisterMap : Obligations.HostWriteFollowsTheRegisterMap := by
  intro s w
  refine ⟨fun off width => ?_, fun hb => ⟨hostWrite_word s .cmd 0 w (by decide) hb, ?_, ?_, fun i hi new hnew => ?_⟩,
    fun off width h => by rw [transact_write_refused h]⟩
  · rw [hostWrite_admitted_iff]
    exact and_congr_right fun _ => and_congr_right fun h4 => and_congr_right fun _ => writable_offset_iff h4
  · rw [← setWidth_word]
    exact hostWrite_word s .paTag 0 w (by decide) hb
  · rw [← setWidth_word]
    exact hostWrite_word s .pbTag 0 w (by decide) hb
  · have word (r : Reg) (h : regWords r = 8) := hostWrite_word s r i w (h ▸ hi) hb
    have replaces (v) : new v = setWord v i w := eq_setWord hi (hnew v).1 (hnew v).2
    simp only [replaces]
    exact ⟨word .k rfl, word .paX rfl, word .paY rfl, word .pbX rfl, word .pbY rfl⟩
end

section
/-! PROOFS. O1 to O3: the opcode table read in both directions (R100, R101, R103). A word is its two fields, so it decodes to
a command exactly when it is that command's word. -/

namespace Sys2Proof

open Sys2Proof.Safety

/-! ### The `OPCODE` column -/

/-- The rows of R101 in their order. -/
def allInstrs : List Instr :=
  [.init, .pubkey, .keygen, .compress, .decompress, .pchk, .smul, .padd, .pdbl, .finv, .fsqrt]

@[simp] theorem mem_allInstrs (i : Instr) : i ∈ allInstrs := by cases i <;> decide

theorem decodeOpcode_opcodeOf (i : Instr) : decodeOpcode (opcodeOf i) = .ok i := by cases i <;> rfl

/-- An opcode names a command exactly in that command's row (R101, R103). -/
theorem decodeOpcode_eq_ok_iff {op : BitVec 8} {i : Instr} : decodeOpcode op = .ok i ↔ op = opcodeOf i := by
  constructor
  · intro h
    unfold decodeOpcode at h
    repeat'
      split at h
      · cases h
        assumption
    cases h
  · rintro rfl
    exact decodeOpcode_opcodeOf i

theorem mem_assignedOpcodes_iff {op : BitVec 8} : op ∈ assignedOpcodes ↔ ∃ i, op = opcodeOf i := by
  have hcolumn : assignedOpcodes = allInstrs.map opcodeOf := rfl
  simp [hcolumn, eq_comm (a := op)]

/-! ### The two fields of a word -/

theorem zeroField_append_opcodeField (w : Word32) : zeroField w ++ opcodeField w = w := by
  unfold zeroField opcodeField
  rw [BitVec.extractLsb'_append_extractLsb'_eq_extractLsb' (by decide), BitVec.extractLsb'_eq_self]

theorem zeroField_append (z : BitVec 24) (op : BitVec 8) : zeroField (z ++ op) = z := BitVec.extractLsb'_append_eq_left

theorem opcodeField_append (z : BitVec 24) (op : BitVec 8) : opcodeField (z ++ op) = op :=
  BitVec.extractLsb'_append_eq_right

/-- A command's word: `ZERO` clear, and the opcode of its row (R100, R101). -/
theorem eq_encode_iff {w : Word32} {i : Instr} : w = encode i ↔ zeroField w = 0 ∧ opcodeField w = opcodeOf i := by
  constructor
  · rintro rfl
    exact ⟨zeroField_append _ _, opcodeField_append _ _⟩
  · rintro ⟨hz, hop⟩
    rw [← zeroField_append_opcodeField w, hz, hop, encode]

/-- A word decodes to a command exactly when it is that command's word (R103). -/
theorem decode_eq_ok_iff {w : Word32} {i : Instr} : decode w = .ok i ↔ w = encode i := by
  rw [eq_encode_iff, ← decodeOpcode_eq_ok_iff]
  unfold decode
  split
  · rename_i hz
    exact ⟨nofun, fun h => absurd h.1 hz⟩
  · rename_i hz
    exact (and_iff_right (not_not.1 hz)).symm

theorem decode_encode (i : Instr) : decode (encode i) = .ok i := decode_eq_ok_iff.2 rfl

theorem decodeTableWord_encode (i : Instr) : decodeTableWord 32 (encode i).toNat = some i := by
  have hlt : (encode i).toNat < 2 ^ 32 := (encode i).isLt
  simp only [decodeTableWord, Nat.mod_eq_of_lt hlt, hlt, if_true, BitVec.ofNat_toNat, BitVec.setWidth_eq, decode_encode]

/-- The words that pass the two checks are those of the rows (R100, R101). -/
theorem wellFormedWord_iff {w : Word32} : wellFormedWord w = true ↔ ∃ i, w = encode i := by
  have hzero : zeroFieldClear w = true ↔ zeroField w = 0 := beq_iff_eq
  have hop : opcodeAssigned w = true ↔ opcodeField w ∈ assignedOpcodes := List.contains_iff_mem
  simp only [wellFormedWord, Bool.and_eq_true, hzero, hop, mem_assignedOpcodes_iff, eq_encode_iff, exists_and_left]

/-- The "word" column of R101 lists the words that decode. -/
theorem mem_commandWords_iff {w : Word32} : w ∈ commandWords ↔ ∃ i, decode w = .ok i := by
  have hcolumn : commandWords = allInstrs.map encode := rfl
  simp [hcolumn, decode_eq_ok_iff, eq_comm (a := w)]

theorem decode_error_iff {w : Word32} : (∃ e, decode w = .error e) ↔ w ∉ commandWords := by
  rw [mem_commandWords_iff]
  cases decode w <;> simp

end Sys2Proof

open Sys2Proof

/-- Settles O2: both directions are `decode_eq_ok_iff`, and the well-formed words are the commands' words. -/
theorem decodeAndEncodeAgree : Obligations.DecodeAndEncodeAgree := by
  refine ⟨fun i => ⟨decode_encode i, decodeTableWord_encode i⟩, fun w i h => (decode_eq_ok_iff.1 h).symm, fun w => ?_⟩
  simp only [wellFormedWord_iff, decode_eq_ok_iff]

/-- Settles O1: `decode_eq_ok_iff` at each row, whose word is the literal of R101. -/
theorem decodeSelectsExactlyTheTableWords : Obligations.DecodeSelectsExactlyTheTableWords := by
  intro w
  have row (i : Instr) : decode w = .ok i ↔ w = encode i := decode_eq_ok_iff
  exact ⟨row .init, row .pubkey, row .keygen, row .compress, row .decompress, row .pchk, row .smul, row .padd, row .pdbl,
    row .finv, row .fsqrt, decode_error_iff⟩

/-- Settles O3: six rows of R101, and two words of no row. -/
theorem wordsOfTheTableDecode : Obligations.WordsOfTheTableDecode :=
  ⟨decode_encode .init, decode_encode .keygen, decode_encode .decompress, decode_encode .smul, decode_encode .pdbl,
    decode_encode .fsqrt, decode_error_iff.2 (by decide), decode_error_iff.2 (by decide)⟩
end

section
/-! PROOFS. O16: a word of no row completes as `ILLEGAL` (R104). -/

namespace Sys2Proof.Machine

/-- The engine's slot for a word that is no command (R104, R143). -/
theorem engineStep_illegal {s : State} (hb : s.status.busy = true) (hd : ∃ e, decode s.cmd = .error e) :
    engineStep s = .next (takeError s .illegal) := by
  obtain ⟨e, hd⟩ := hd
  simp only [engineStep, hb, fetchWord, hd, if_true]

end Sys2Proof.Machine

open Sys2Proof Sys2Proof.Machine

/-- Settles O16: acceptance (R140), then the error completion (R304). -/
theorem illegalWordCompletesAsIllegal : Obligations.IllegalWordCompletesAsIllegal := by
  intro s w hb hw
  exact ⟨accept s w, hostWrite_word s .cmd 0 w (by decide) hb, rfl,
    engineStep_illegal (s := accept s w) rfl (decode_error_iff.2 hw)⟩
end

section
/-! PROOFS. O48: what a completion reads (R102, R143): a command's own outcome is a function of its operands, and completing
reads nothing else but `STATUS`. -/

namespace Sys2Proof.Machine

open Sys2Proof.Config Sys2Proof.Safety

/-- Same `PR` and same `STATUS`. -/
def SameReport (s t : State) : Prop := t.pr = s.pr ∧ t.status = s.status

theorem takeError_sameReport {s t : State} (hs : s.status = t.status) (e : Err) :
    SameReport (takeError s e) (takeError t e) := by
  simp [SameReport, hs]

/-- Every outcome writes `PR`, and `STATUS` from `STATUS` (R142). -/
theorem complete_sameReport {s t : State} (hs : s.status = t.status) (o : CmdOutcome) :
    SameReport (complete s o) (complete t o) := by
  cases o <;> simp [SameReport, hs]

theorem completeReady_sameReport {s t : State} (hs : s.status = t.status) (o : CmdOutcome) :
    SameReport (completeReady s o) (completeReady t o) := by
  unfold completeReady
  rw [hs]
  split
  · exact complete_sameReport hs o
  · exact takeError_sameReport hs .notReady

theorem completeInit_sameReport {s t : State} (hs : s.status = t.status) :
    SameReport (completeInit s) (completeInit t) := by
  simp [SameReport, hs]

/-- FINV reads only X of its operand (R102, R173). -/
theorem finvOutcome_congr {c : Curve} {t u : Triple} (hx : t.x = u.x) : finvOutcome c t = finvOutcome c u := by
  simp only [finvOutcome, fieldOperand, hx]

/-- FSQRT reads the tag and X of its operand (R102, R174). -/
theorem fsqrtOutcome_congr {c : Curve} {t u : Triple} (htag : t.tag = u.tag) (hx : t.x = u.x) :
    fsqrtOutcome c t = fsqrtOutcome c u := by
  simp only [fsqrtOutcome, fieldOperand, htag, hx]

/-- A draw gives the port's next answer and moves on the port's side only (R246). -/
theorem entropyDraw_eq (s : State) : entropyDraw s = (nextAnswer s).map fun d => (d, afterDraw s) := by
  unfold entropyDraw nextAnswer afterDraw
  cases s.entropy with
  | nil => rfl
  | cons x rest => cases x <;> rfl

/-- Everything a completed KEYGEN can be: `NOTREADY`, or the outcome of the port's next answer (R243, R246). -/
theorem execKeygen_next {s t : State} (h : exec .keygen s = .next t) :
    (s.status.ready = false ∧ t = takeError s .notReady) ∨
      (s.status.ready = true ∧ ∃ d, nextAnswer s = some d ∧ t = complete (afterDraw s) (keygenOutcome sm2 d)) := by
  rcases exec_next h with ⟨hi, -⟩ | ⟨-, hr, ht⟩ | ⟨-, hk, -⟩ | ⟨-, hr, d, u, hdraw, ht⟩
  · cases hi
  · exact .inl ⟨hr, ht⟩
  · exact absurd rfl hk
  · rw [entropyDraw_eq, Option.map_eq_some_iff] at hdraw
    obtain ⟨d', hd, heq⟩ := hdraw
    cases heq
    exact .inr ⟨hr, d, hd, ht⟩

theorem execKeygen_notReady {s : State} (hr : s.status.ready = false) : exec .keygen s = .next (takeError s .notReady) := by
  simp [exec, execKeygen, hr]

theorem execKeygen_answer {s : State} {d : Draw} (hr : s.status.ready = true) (hd : nextAnswer s = some d) :
    exec .keygen s = .next (complete (afterDraw s) (keygenOutcome sm2 d)) := by
  simp [exec, execKeygen, hr, entropyDraw_eq, hd]

/-- Without an error KEYGEN's completion writes `K` from the answer alone (R243). -/
theorem complete_keygen_k {s : State} {c : Curve} {d : Draw}
    (h : (complete s (keygenOutcome c d)).status.err = false) (t : State) :
    (complete t (keygenOutcome c d)).k = (complete s (keygenOutcome c d)).k := by
  unfold keygenOutcome at h ⊢
  split at h
  · cases h
  · rename_i hok
    simp [hok]

theorem execKeygen_sameReport {s t s' : State} (hs : s.status = t.status) (ha : nextAnswer s = nextAnswer t)
    (h : exec .keygen s = .next s') :
    ∃ t', exec .keygen t = .next t' ∧ SameReport s' t' ∧ (s'.status.err = false → t'.k = s'.k) := by
  rcases execKeygen_next h with ⟨hr, rfl⟩ | ⟨hr, d, hd, rfl⟩
  · exact ⟨_, execKeygen_notReady (hs ▸ hr), takeError_sameReport hs .notReady, nofun⟩
  · exact ⟨_, execKeygen_answer (hs ▸ hr) (ha ▸ hd), complete_sameReport (s := afterDraw s) (t := afterDraw t) hs _,
      fun he => complete_keygen_k he _⟩

/-- Two commands with the same outcome of their own complete with the same report. -/
theorem exec_sameReport_of_outcome {i : Instr} {s t s' : State} {o o' : CmdOutcome} (hs : s.status = t.status)
    (ho : o = o') (hx : exec i s = .next (completeReady s o)) (hy : exec i t = .next (completeReady t o'))
    (h : exec i s = .next s') : ∃ t', exec i t = .next t' ∧ SameReport s' t' := by
  subst ho
  cases hx.symm.trans h
  exact ⟨_, hy, completeReady_sameReport hs o⟩

/-- A command that draws nothing: states with the same `STATUS` and the same operands complete with the same report. -/
theorem exec_sameReport {i : Instr} {s t s' : State} (hi : i ≠ .keygen) (hs : s.status = t.status)
    (ho : sameOperands i s t) (h : exec i s = .next s') : ∃ t', exec i t = .next t' ∧ SameReport s' t' := by
  cases i with
  | keygen => exact absurd rfl hi
  | init =>
    cases h
    exact ⟨_, rfl, completeInit_sameReport hs⟩
  | pubkey => exact exec_sameReport_of_outcome hs (congrArg (pubkeyOutcome sm2) ho) rfl rfl h
  | compress => exact exec_sameReport_of_outcome hs (congrArg compressOutcome ho) rfl rfl h
  | decompress => exact exec_sameReport_of_outcome hs (congrArg (decompressOutcome sm2) ho) rfl rfl h
  | pchk => exact exec_sameReport_of_outcome hs (congrArg (pchkOutcome sm2) ho) rfl rfl h
  | pdbl => exact exec_sameReport_of_outcome hs (congrArg (pdblOutcome sm2) ho) rfl rfl h
  | smul =>
    obtain ⟨hk, hpa⟩ := ho
    exact exec_sameReport_of_outcome hs (congrArg₂ (smulOutcome sm2) hk hpa) rfl rfl h
  | padd =>
    obtain ⟨hpa, hpb⟩ := ho
    exact exec_sameReport_of_outcome hs (congrArg₂ (paddOutcome sm2) hpa hpb) rfl rfl h
  | finv => exact exec_sameReport_of_outcome hs (finvOutcome_congr ho) rfl rfl h
  | fsqrt =>
    obtain ⟨htag, hx⟩ := ho
    exact exec_sameReport_of_outcome hs (fsqrtOutcome_congr htag hx) rfl rfl h

end Sys2Proof.Machine

open Sys2Proof.Machine

/-- Settles O48: KEYGEN by its draw, the other commands by their own outcome. -/
theorem outcomeDependsOnlyOnTheOperandsRead : Obligations.OutcomeDependsOnlyOnTheOperandsRead := by
  intro i s t s' hs ho h
  by_cases hi : i = .keygen
  · subst hi
    obtain ⟨t', ht, ⟨hpr, hst⟩, hk⟩ := execKeygen_sameReport hs ho h
    exact ⟨t', ht, hpr, hst, fun _ => hk⟩
  · obtain ⟨t', ht, hpr, hst⟩ := exec_sameReport hi hs ho h
    exact ⟨t', ht, hpr, hst, fun hk => absurd hk hi⟩
end

section
/-! PROOFS. O7 and O8: the lines of a host script (R113, R148). A line that only moves data is a list of slots; what it leaves
is found slot by slot. -/

namespace Sys2Proof.Machine

open Sys2Proof.Safety

/-! ### Lists of slots -/

/-- The slots, played in order, each with the answer `a`. -/
def playedWith (a : Answer) (xs : List Input) : List Played := xs.map fun x => { slot := x, answer := some a }

@[simp] theorem slots_playedWith (a : Answer) (xs : List Input) : (playedWith a xs).map Played.slot = xs := by
  simp [playedWith, Function.comp_def]

theorem answer_of_mem_playedWith {a : Answer} {xs : List Input} {p : Played} (h : p ∈ playedWith a xs) :
    p.answer = some a := by
  obtain ⟨x, -, rfl⟩ := List.mem_map.1 h
  rfl

theorem wordsRead_refused (xs : List Input) : wordsRead (playedWith .refused xs) = [] := by
  simp [wordsRead, playedWith]

theorem playSlots_cons_some {x : Input} {xs : List Input} {s t u : State} {ps qs : List Played}
    (hx : playSlot x s = some (ps, t)) (hxs : playSlots xs t = some (qs, u)) :
    playSlots (x :: xs) s = some (ps ++ qs, u) := by
  rw [playSlots, playThen_some hx, hxs]
  rfl

theorem playSlots_append_some {xs ys : List Input} {s t u : State} {ps qs : List Played}
    (hx : playSlots xs s = some (ps, t)) (hy : playSlots ys t = some (qs, u)) :
    playSlots (xs ++ ys) s = some (ps ++ qs, u) := by
  rw [playSlots_append, playThen_some hx, hy]
  rfl

/-- A list of slots that leaves the schedule is a run of the machine over them, ahead of that schedule (R80). -/
theorem run_of_playSlots {xs : List Input} {s t : State} {ps : List Played} (h : playSlots xs s = some (ps, t))
    (hslots : ps.map Played.slot = xs) (hinputs : t.inputs = s.inputs) :
    Host.Core.run Sys2Proof.core xs.length { s with inputs := xs ++ s.inputs } = .next t := by
  have hlen : ps.length = xs.length := by rw [← hslots, List.length_map]
  have hrun := isSchedule_slots xs s ps t h s.inputs
  rw [hslots, hlen, ← hinputs] at hrun
  rw [← hinputs]
  exact hrun

/-- Slots that all get the answer `a` and each change one part of the block, `put q`, by `next`: together they fold `next`
over that part. -/
theorem playSlots_map {ι σ : Type} {slot : ι → Input} {put : σ → State} {next : σ → ι → σ} {a : Answer} :
    ∀ {is : List ι}, is ≠ [] →
      (∀ i ∈ is, ∀ q b, playSlot (slot i) (withAnswer (put q) b) =
        some (playedWith a [slot i], withAnswer (put (next q i)) (some a))) →
      ∀ q b, playSlots (is.map slot) (withAnswer (put q) b) =
        some (playedWith a (is.map slot), withAnswer (put (is.foldl next q)) (some a))
  | [], hne, _, _, _ => absurd rfl hne
  | [i], _, h, q, b => playSlots_cons_some (h i List.mem_cons_self q b) rfl
  | i :: j :: is, _, h, q, b =>
    playSlots_cons_some (h i List.mem_cons_self q b)
      (playSlots_map (List.cons_ne_nil j is) (fun m hm => h m (List.mem_cons_of_mem i hm)) (next q i) (some a))

/-! ### `LD256` -/

/-- `put u` is an idle block whose 256-bit operand register `r` holds `u`. -/
structure LoadsInto (r : Reg) (put : U256 → State) : Prop where
  words : regWords r = 8
  idle : ∀ u, (put u).status.busy = false
  write : ∀ u i w a, writeReg (withAnswer (put u) a) i w r = some (withAnswer (put (setWord u i w)) a)

section
variable {s : State} (hb : s.status.busy = false)
include hb

theorem loadsInto_k : LoadsInto .k fun v => { s with k := v } := ⟨rfl, fun _ => hb, fun _ _ _ _ => rfl⟩

theorem loadsInto_paX : LoadsInto .paX fun v => { s with pa := { s.pa with x := v } } :=
  ⟨rfl, fun _ => hb, fun _ _ _ _ => rfl⟩

theorem loadsInto_paY : LoadsInto .paY fun v => { s with pa := { s.pa with y := v } } :=
  ⟨rfl, fun _ => hb, fun _ _ _ _ => rfl⟩

theorem loadsInto_pbX : LoadsInto .pbX fun v => { s with pb := { s.pb with x := v } } :=
  ⟨rfl, fun _ => hb, fun _ _ _ _ => rfl⟩

theorem loadsInto_pbY : LoadsInto .pbY fun v => { s with pb := { s.pb with y := v } } :=
  ⟨rfl, fun _ => hb, fun _ _ _ _ => rfl⟩

end

theorem LoadsInto.write_word {r : Reg} {put : U256 → State} (h : LoadsInto r put) {i : Nat} (hi : i < 8) (w : Word32)
    (u : U256) (b : Option Answer) :
    playSlot (wrSlot r i w) (withAnswer (put u) b) =
      some (playedWith .wrote [wrSlot r i w], withAnswer (put (setWord u i w)) (some .wrote)) :=
  playSlot_write (t := withAnswer (put (setWord u i w)) b) (h.words.symm ▸ hi) (h.idle u) (h.write u i w b)

/-- Word `i` of `u` replaced by word `i` of `v`. -/
def copyWord (v u : U256) (i : Nat) : U256 := setWord u i (wordOf v i)

theorem wordOf_copyWord (v u : U256) {i j : Nat} (hi : i < 8) (hj : j < 8) :
    wordOf (copyWord v u i) j = if j = i then wordOf v j else wordOf u j := by
  split
  · rename_i hji
    rw [hji]
    exact wordOf_setWord_same u i _ hi
  · rename_i hji
    exact wordOf_setWord_other u i j _ hi hj hji

theorem wordOf_foldl_copyWord (v : U256) {j : Nat} (hj : j < 8) :
    ∀ (is : List Nat) (u : U256), (∀ i ∈ is, i < 8) →
      wordOf (is.foldl (copyWord v) u) j = if j ∈ is then wordOf v j else wordOf u j
  | [], _, _ => rfl
  | i :: is, u, h => by
    rw [List.foldl_cons, wordOf_foldl_copyWord v hj is _ fun m hm => h m (List.mem_cons_of_mem i hm),
      wordOf_copyWord v u (h i List.mem_cons_self) hj]
    simp only [List.mem_cons]
    split_ifs <;> simp_all

/-- Eight words copied are the value copied (R12). -/
theorem foldl_copyWord_range (v u : U256) : (List.range 8).foldl (copyWord v) u = v := by
  refine eq_of_words fun j hj => ?_
  rw [wordOf_foldl_copyWord v hj _ _ fun i hi => List.mem_range.1 hi, if_pos (List.mem_range.2 hj)]

/-- `LD256` of an operand register of an idle block (R113). -/
theorem playSlots_ld256 {r : Reg} {put : U256 → State} (h : LoadsInto r put) (v u : U256) (b : Option Answer) :
    playSlots (ld256Slots r v) (withAnswer (put u) b) =
      some (playedWith .wrote (ld256Slots r v), withAnswer (put v) (some .wrote)) := by
  have hslots := playSlots_map (slot := fun i => wrSlot r i (wordOf v i)) (put := put) (next := copyWord v) (a := .wrote)
    (is := List.range 8) (by decide)
    (fun i hi => h.write_word (List.mem_range.1 hi) (wordOf v i)) u b
  rwa [foldl_copyWord_range] at hslots

/-! ### `RDPT PR` and `LDPT` -/

@[simp] theorem regWord_withAnswer (s : State) (a : Option Answer) (i : Nat) (r : Reg) :
    regWord (withAnswer s a) i r = regWord s i r := by cases r <;> rfl

theorem ofNat_valueOfWords (v : U256) :
    BitVec.ofNat 256 (valueOfWords ((List.range 8).map (wordOf v))) = v := by
  rw [wordsComposeTheValue v, BitVec.ofNat_toNat, BitVec.setWidth_eq]

theorem setWidth_setWidth_tag (t : Tag) : (t.setWidth 32).setWidth 8 = t := by simp

/-- `RDPT PR` on an idle block: 17 admitted reads, whose words give `PR` (R113). -/
theorem playSlots_rdpt_pr {s : State} (hb : s.status.busy = false) :
    ∃ ps a, playSlots (rdptSlots .pr) s = some (ps, withAnswer s a) ∧ ps.map Played.slot = rdptSlots .pr ∧
      (∀ p ∈ ps, p.answer ≠ some .refused) ∧ tripleRead ps = some s.pr := by
  have htag := playSlot_read s .prTag 0 (by decide) (.inl hb)
  have hx (a : Option Answer) := playSlots_rd256 (withAnswer s a) .prX rfl (.inl hb)
  have hy (a : Option Answer) := playSlots_rd256 (withAnswer s a) .prY rfl (.inl hb)
  simp only [regWord_withAnswer, withAnswer_withAnswer] at hx hy
  refine ⟨_, _, playSlots_cons_some htag (playSlots_append_some (hx _) (hy _)), rfl, ?_, ?_⟩
  · simp only [List.cons_append, List.nil_append, List.mem_cons, List.mem_append, List.mem_map]
    rintro p (rfl | ⟨i, -, rfl⟩ | ⟨i, -, rfl⟩) <;> exact nofun
  · rw [tripleRead_words (w := regWord s 0 .prTag) (xs := (List.range 8).map (wordOf s.pr.x))
      (ys := (List.range 8).map (wordOf s.pr.y)) rfl (by simp) (by simp), ofNat_valueOfWords, ofNat_valueOfWords]
    exact congrArg some (congrArg (Triple.mk · s.pr.x s.pr.y) (setWidth_setWidth_tag s.pr.tag))

/-- `put t` is an idle block whose point register group `g` holds `t`. -/
structure LoadsPoint (g : Group) (put : Triple → State) : Prop where
  tag : ∀ (t : Triple) w a, writeReg (withAnswer (put t) a) 0 w (groupTag g) =
    some (withAnswer (put { t with tag := w.setWidth 8 }) a)
  x : ∀ t : Triple, LoadsInto (groupX g) fun v => put { t with x := v }
  y : ∀ t : Triple, LoadsInto (groupY g) fun v => put { t with y := v }

theorem loadsPoint_pa {s : State} (hb : s.status.busy = false) : LoadsPoint .pa fun t => { s with pa := t } :=
  ⟨fun _ _ _ => rfl, fun t => loadsInto_paX (s := { s with pa := t }) hb,
    fun t => loadsInto_paY (s := { s with pa := t }) hb⟩

theorem loadsPoint_pb {s : State} (hb : s.status.busy = false) : LoadsPoint .pb fun t => { s with pb := t } :=
  ⟨fun _ _ _ => rfl, fun t => loadsInto_pbX (s := { s with pb := t }) hb,
    fun t => loadsInto_pbY (s := { s with pb := t }) hb⟩

/-- `LDPT` of an operand group of an idle block (R113). -/
theorem playSlots_ldpt {g : Group} {put : Triple → State} (h : LoadsPoint g put) (t u : Triple) (b : Option Answer) :
    playSlots (ldptSlots g t) (withAnswer (put u) b) =
      some (playedWith .wrote (ldptSlots g t), withAnswer (put t) (some .wrote)) := by
  have hwords : 0 < regWords (groupTag g) := by cases g <;> decide
  have htag := playSlot_write (s := withAnswer (put u) b) hwords ((h.x u).idle u.x) (h.tag u (t.tag.setWidth 32) b)
  rw [setWidth_setWidth_tag] at htag
  have hx := playSlots_ld256 (h.x { u with tag := t.tag }) t.x u.x (some .wrote)
  have hy := playSlots_ld256 (h.y { u with tag := t.tag, x := t.x }) t.y u.y (some .wrote)
  rw [ldptSlots, playSlots_cons_some htag (playSlots_append_some hx hy)]
  simp [playedWith]

/-! ### `MOVPT` -/

/-- `MOVPT` on an idle block: the reads, then the writes (R113). -/
theorem playScript_movpt {s : State} {g : Group} {put : Triple → State} {u : Triple} (h : LoadsPoint g put)
    (hs : put u = s) :
    ∃ ps, playScript [.movpt g] s = some (ps, withAnswer (put s.pr) (some .wrote)) ∧
      ps.map Played.slot = rdptSlots .pr ++ ldptSlots g s.pr ∧ ∀ p ∈ ps, p.answer ≠ some .refused := by
  subst hs
  have hb : (put u).status.busy = false := (h.x u).idle u.x
  obtain ⟨ps, a, hread, hslots, hans, htriple⟩ := playSlots_rdpt_pr hb
  have hcopy : playCopy g ps (withAnswer (put u) a) =
      some (playedWith .wrote (ldptSlots g (put u).pr), withAnswer (put (put u).pr) (some .wrote)) := by
    simp only [playCopy, htriple]
    exact playSlots_ldpt h _ u a
  refine ⟨ps ++ playedWith .wrote (ldptSlots g (put u).pr), ?_, ?_, ?_⟩
  · rw [playScript_line, playLine, playThen_some hread, hcopy]
    rfl
  · rw [List.map_append, hslots, slots_playedWith]
  · intro p hp
    rcases List.mem_append.1 hp with hp | hp
    · exact hans p hp
    · simp [answer_of_mem_playedWith hp]

/-- `RDPT PR` reads registers that are hidden while a command runs (R71). -/
theorem rdpt_pr_hidden : ∀ x ∈ rdptSlots .pr, ∃ r i, x = rdSlot r i ∧ i < regWords r ∧ regReadableBusy r = false := by
  simp only [rdptSlots, rd256Slots, List.mem_cons, List.mem_append, List.mem_map, List.mem_range]
  rintro x (rfl | ⟨i, hi, rfl⟩ | ⟨i, hi, rfl⟩)
  · exact ⟨.prTag, 0, rfl, by decide, rfl⟩
  · exact ⟨.prX, i, rfl, hi, rfl⟩
  · exact ⟨.prY, i, rfl, hi, rfl⟩

theorem playSlots_rdpt_pr_busy {s : State} (hb : s.status.busy = true) :
    playSlots (rdptSlots .pr) s = some (playedWith .refused (rdptSlots .pr), withAnswer s (some .refused)) := by
  have hslots := playSlots_map (slot := id) (put := fun _ : Unit => s) (next := fun q _ => q) (a := .refused)
    (is := rdptSlots .pr) (by simp [rdptSlots]) (fun x hx _ b => by
      obtain ⟨r, i, rfl, hi, hr⟩ := rdpt_pr_hidden x hx
      exact playSlot_read_busy (withAnswer s b) r i hi hb hr) () s.answer
  rwa [List.map_id] at hslots

/-- `MOVPT` on a running block: refused reads have no value, so nothing is written (log 11). -/
theorem playScript_movpt_busy {s : State} (hb : s.status.busy = true) (g : Group) :
    playScript [.movpt g] s = some (playedWith .refused (rdptSlots .pr), withAnswer s (some .refused)) := by
  have hnone : tripleRead (playedWith .refused (rdptSlots .pr)) = none := by
    simp [tripleRead, wordsRead_refused]
  rw [playScript_line, playLine, playThen_some (playSlots_rdpt_pr_busy hb)]
  simp [playCopy, hnone, playNothing]

/-! ### `WAIT` -/

/-- `WAIT` on an idle block reads `STATUS` once (R113). -/
theorem playWait_idle {s : State} (hb : s.status.busy = false) (polls : Nat) :
    ∃ ps, playWait polls s = some (ps, withAnswer s (some (.word (statusWord s.status)))) ∧
      wordsRead ps = [statusWord s.status] := by
  cases polls with
  | zero => exact ⟨_, playWait_zero (engineStep_idle hb), rfl⟩
  | succ n =>
    rw [playWait_succ, if_neg (by simp [hb])]
    exact ⟨_, rfl, rfl⟩

/-- `WAIT` on a running block: the polls, the engine's step, and one read more (R113, R148). -/
theorem playWait_busy : ∀ (polls : Nat) {s t : State}, s.status.busy = true → engineStep s = .next t →
    ∃ ps, playWait polls s = some (ps, withAnswer t (some (.word (statusWord t.status)))) ∧
      wordsRead ps = List.replicate polls (statusWord s.status) ++ [statusWord t.status]
  | 0, _, _, _, h => ⟨_, playWait_zero h, rfl⟩
  | n + 1, s, t, hb, h => by
    have hanswer := engineStep_withAnswer h (engineStep_edge h).1 (some (.word (statusWord s.status)))
    obtain ⟨ps, hp, hw⟩ := playWait_busy n (s := withAnswer s (some (.word (statusWord s.status)))) hb hanswer
    rw [playWait_succ, if_pos hb, hp]
    exact ⟨_, rfl, congrArg (statusWord s.status :: ·) hw⟩

/-- The engine's step on a running block ends the busy phase (R142, R304). -/
theorem engineStep_ends_busy {s t : State} (hb : s.status.busy = true) (h : engineStep s = .next t) :
    t.status.busy = false := by
  rcases engineStep_next h with ⟨hidle, -⟩ | ⟨-, -, rfl⟩ | ⟨-, i, -, hx⟩
  · simp [hb] at hidle
  · rfl
  · obtain ⟨-, -, -, -, -, hbusy, -⟩ := completionFrame i s t hx
    exact hbusy

/-! ### `ENTROPY` -/

/-- A line `ENTROPY` at the end of a script plays nothing and states the next answer (R113). -/
theorem playScript_append_entropy {lines : List ScriptLine} {s t : State} {ps : List Played}
    (h : playScript lines s = some (ps, t)) (d : Config.Draw) :
    playScript (lines ++ [.entropy d]) s = some (ps, stateNextDraw t d) := by
  rw [playScript_append, playThen_some h, playScript_line]
  simp [playLine]

end Sys2Proof.Machine

open Sys2Proof.Machine

/-- Settles O7: the script line is `playSlots_ld256`, and a list of slots is a run of the machine over them. -/
theorem loadScriptLoadsTheRegister : Obligations.LoadScriptLoadsTheRegister := by
  intro s v hb x hx
  obtain ⟨put, u, hload, hs, hv, hinputs⟩ :
      ∃ put u, LoadsInto x.1 put ∧ put u = s ∧ put v = x.2 ∧ x.2.inputs = s.inputs := by
    simp only [List.mem_cons, List.not_mem_nil, or_false] at hx
    rcases hx with rfl | rfl | rfl | rfl | rfl
    · exact ⟨_, s.k, loadsInto_k hb, rfl, rfl, rfl⟩
    · exact ⟨_, s.pa.x, loadsInto_paX hb, rfl, rfl, rfl⟩
    · exact ⟨_, s.pa.y, loadsInto_paY hb, rfl, rfl, rfl⟩
    · exact ⟨_, s.pb.x, loadsInto_pbX hb, rfl, rfl, rfl⟩
    · exact ⟨_, s.pb.y, loadsInto_pbY hb, rfl, rfl, rfl⟩
  have hplay : playSlots (ld256Slots x.1 v) s =
      some (playedWith .wrote (ld256Slots x.1 v), withAnswer x.2 (some .wrote)) := by
    rw [← hs, ← hv]
    exact playSlots_ld256 hload v u (put u).answer
  exact ⟨⟨_, (congrFun (playScript_line _) s).trans hplay, rfl⟩,
    run_of_playSlots hplay (slots_playedWith _ _) hinputs⟩

/-- Settles O8, a line at a time. -/
theorem scriptLinesFollowTheirRule : Obligations.ScriptLinesFollowTheirRule := by
  intro s
  refine ⟨fun hb x hx => ?_, fun hb g => ?_, fun hb polls => ?_, fun hb polls t ht => ?_, fun lines ps t d h => ?_⟩
  · obtain ⟨put, u, hload, hs, hv⟩ : ∃ put u, LoadsPoint x.1 put ∧ put u = s ∧ put s.pr = x.2 := by
      simp only [List.mem_cons, List.not_mem_nil, or_false] at hx
      rcases hx with rfl | rfl
      · exact ⟨_, s.pa, loadsPoint_pa hb, rfl, rfl⟩
      · exact ⟨_, s.pb, loadsPoint_pb hb, rfl, rfl⟩
    obtain ⟨ps, hplay, hslots, hans⟩ := playScript_movpt hload hs
    have hlen : ps.length = 34 := by simpa [rdptSlots, ldptSlots, rd256Slots, ld256Slots] using congrArg List.length hslots
    exact ⟨ps, hv ▸ hplay, hlen, hslots, hans⟩
  · exact ⟨_, playScript_movpt_busy hb g, slots_playedWith _ _, fun p hp => answer_of_mem_playedWith hp⟩
  · rw [playScript_line]
    exact playWait_idle hb polls
  · rw [playScript_line]
    obtain ⟨ps, hplay, hwords⟩ := playWait_busy polls hb ht
    exact ⟨ps, hplay, hwords, (statusWord_busy _).trans hb, (statusWord_busy _).trans (engineStep_ends_busy hb ht)⟩
  · exact ⟨_, playScript_append_entropy h d, rfl, rfl⟩
end

section
/-! PROOFS. O13, O15, O17 and O18: the life of a command (R140 to R145): acceptance, the common checks, and INIT, the one
command that needs no `READY`. -/

namespace Sys2Proof.Machine

open Sys2Proof.Safety

/-! ### The completions in the rules' own words -/

theorem takeError_eq_failedWith (s : State) (e : Err) : takeError s e = failedWith s (errCode e) := rfl

/-- INIT completes whatever the state is (R145). -/
theorem exec_init (s : State) : exec .init s = .next (completeInit s) := rfl

/-- The second common check (R144): it comes before a command's own outcome, and so before KEYGEN's draw, the one thing that
can stop a command. -/
theorem exec_notReady {i : Instr} {s : State} (hr : s.status.ready = false) (hi : i ≠ .init) :
    exec i s = .next (takeError s .notReady) := by
  obtain ⟨t, ht⟩ : ∃ t, exec i s = .next t := by
    by_contra! hstop
    obtain ⟨-, hready, -, -⟩ := exec_stop hstop
    simp [hr] at hready
  rcases exec_next ht with ⟨hinit, -⟩ | ⟨-, -, rfl⟩ | ⟨-, -, hready, -⟩ | ⟨-, hready, -⟩
  · exact absurd hinit hi
  · exact ht
  all_goals simp [hr] at hready

/-! ### The engine's slot and the host's write of `CMD` -/

/-- The engine's slot for a command (R142, R143). -/
theorem engineStep_command {s : State} {i : Instr} (hb : s.status.busy = true) (hd : decode s.cmd = .ok i) :
    engineStep s = exec i s := by
  simp only [engineStep, hb, fetchWord, hd, if_true]

/-- An engine's slot of the schedule for a command (R142; log 2). -/
theorem step_engine_command {s : State} {i : Instr} {rest : List Input} (hs : s.inputs = .engine :: rest)
    (hb : s.status.busy = true) (hd : decode s.cmd = .ok i) : step s = exec i { s with inputs := rest } :=
  (step_engine hs).trans (engineStep_command (s := { s with inputs := rest }) hb hd)

/-- A write of `CMD` on an idle block is accepted, whatever the word (R140). -/
theorem transact_write_cmd {s : State} (hb : s.status.busy = false) (w : Word32) :
    transact s (.write 0 32 w) = withAnswer (accept s w) (some .wrote) :=
  transact_write_admitted (hostWrite_word s .cmd 0 w (by decide) hb)

end Sys2Proof.Machine

open Sys2Proof Sys2Proof.Machine

/-- Settles O17: legality is the engine's check and stands before `exec`, `READY` is the command's. -/
theorem commonChecksInOrder : Obligations.CommonChecksInOrder := by
  refine fun s => ⟨fun hb hd => ?_, fun hr i hi => exec_notReady hr hi, fun hb hr i hi hd => ?_⟩
  · have herror : ∃ e, decode s.cmd = .error e :=
      decode_error_iff.2 fun hmem => (mem_commandWords_iff.1 hmem).elim hd
    exact (engineStep_illegal hb herror).trans (congrArg _ (takeError_eq_failedWith s .illegal))
  · calc engineStep s = exec i s := engineStep_command hb hd
      _ = .next (takeError s .notReady) := exec_notReady hr hi
      _ = .next (Safety.failedWith s 6) := congrArg _ (takeError_eq_failedWith s .notReady)

/-- Settles O13: the engine has the slot at the schedule's end and in its own slots. -/
theorem stepRunsTheDecodedCommand : Obligations.StepRunsTheDecodedCommand :=
  fun _ _ hb hd => ⟨fun hs => (step_nil hs).trans (engineStep_command hb hd), fun _ hs => step_engine_command hs hb hd⟩

/-- Settles O15: the host's slot is the acceptance, which leaves the block busy with the word in `CMD`, so that the engine's
slot after it runs the command. -/
theorem callIsAcceptanceThenExec : Obligations.CallIsAcceptanceThenExec := by
  intro s w rest hb hs
  have haccept := transact_write_cmd (s := { s with inputs := .engine :: rest }) hb w
  exact ⟨_, (step_host hs).trans (congrArg _ haccept), rfl, fun i hd => step_engine_command rfl rfl hd⟩

/-- Settles O18: the completion of INIT sets `READY` on top of `DONE` and reads nothing but `STATUS`. -/
theorem initSetsReady : Obligations.InitSetsReady := exec_init
end

section
/-! PROOFS. O21 and O22: the field primitives (R161 to R165) and the inverter (R167) on canonical elements. An equation between
canonical values is an equation in `ZMod p` (`cast_inj_of_lt`). -/

namespace Sys2Proof.Machine

open Sys2Proof.Config

variable {c : Curve} {x y : Nat}

/-! ### Sum, difference and negation on the integers -/

theorem fadd_eq_ite (hx : x < c.p) (hy : y < c.p) : fadd c x y = if x + y < c.p then x + y else x + y - c.p := by
  unfold fadd
  split
  · exact Nat.mod_eq_of_lt ‹_›
  · rw [Nat.mod_eq_sub_mod (by omega), Nat.mod_eq_of_lt (by omega)]

@[simp] theorem fneg_zero : fneg c 0 = 0 := rfl

theorem fneg_of_ne_zero (h0 : x ≠ 0) : fneg c x = c.p - x := by
  rw [fneg, fsub, if_neg (by omega), Nat.zero_add]

/-- Negation changes the parity of a non-zero element, as `p` is odd (R163). -/
theorem fneg_mod_two (hodd : c.p % 2 = 1) (h0 : x ≠ 0) (hx : x < c.p) : fneg c x % 2 = 1 - x % 2 := by
  rw [fneg_of_ne_zero h0]
  omega

/-! ### The same in `ZMod p` -/

variable [Fact c.p.Prime]

theorem p_pos (c : Curve) [Fact c.p.Prime] : 0 < c.p := (Fact.out : c.p.Prime).pos

theorem one_lt_p (c : Curve) [Fact c.p.Prime] : 1 < c.p := (Fact.out : c.p.Prime).one_lt

theorem cast_ne_zero (h0 : x ≠ 0) (hx : x < c.p) : (x : ZMod c.p) ≠ 0 := by
  rw [← Nat.cast_zero, Ne, cast_inj_of_lt hx (p_pos c)]
  exact h0

theorem fadd_fsub_cancel (hx : x < c.p) (hy : y ≤ c.p) : fadd c (fsub c x y) y = x := by
  rw [← cast_inj_of_lt (fadd_lt (p_pos c)) hx, fadd_cast, fsub_cast hy, sub_add_cancel]

theorem fadd_fneg (hx : x ≤ c.p) : fadd c x (fneg c x) = 0 := by
  rw [← cast_inj_of_lt (fadd_lt (p_pos c)) (p_pos c), fadd_cast, fneg_cast hx, add_neg_cancel, Nat.cast_zero]

theorem fsqr_fneg (hx : x ≤ c.p) : fsqr c (fneg c x) = fsqr c x := by
  rw [← cast_inj_of_lt (fsqr_lt (p_pos c)) (fsqr_lt (p_pos c)), fsqr_cast, fsqr_cast, fneg_cast hx, neg_sq]

/-! ### The inverter -/

theorem finv_lt (x : Nat) : finv c x < c.p := fexp_lt x _ (one_lt_p c)

theorem fmul_eq_one_iff (x y : Nat) : fmul c x y = 1 ↔ (x : ZMod c.p) * y = 1 := by
  rw [← cast_inj_of_lt (fmul_lt (p_pos c)) (one_lt_p c), fmul_cast, Nat.cast_one]

theorem finv_zero (hc : CurveOk c) : finv c 0 = 0 := by
  rw [← cast_inj_of_lt (finv_lt 0) (p_pos c), finv_cast hc, Nat.cast_zero, inv_zero]

theorem fmul_finv (hc : CurveOk c) (h0 : x ≠ 0) (hx : x < c.p) : fmul c x (finv c x) = 1 := by
  rw [fmul_eq_one_iff, finv_cast hc, mul_inv_cancel₀ (cast_ne_zero h0 hx)]

theorem eq_finv_of_fmul_eq_one (hc : CurveOk c) (hy : y < c.p) (h : fmul c x y = 1) : y = finv c x := by
  rw [← cast_inj_of_lt hy (finv_lt x), finv_cast hc]
  exact eq_inv_of_mul_eq_one_right ((fmul_eq_one_iff x y).1 h)

theorem finv_pos (hc : CurveOk c) (h0 : x ≠ 0) (hx : x < c.p) : 0 < finv c x := by
  refine Nat.pos_of_ne_zero fun hzero => ?_
  have hone := fmul_finv hc h0 hx
  rw [hzero] at hone
  simp [fmul] at hone

end Sys2Proof.Machine

open Sys2Proof Sys2Proof.Machine

/-- Settles O21: sum, negation and parity on the integers, the rest in `ZMod p`. -/
theorem fieldPrimitivesAreModular : Obligations.FieldPrimitivesAreModular := by
  intro x y hx hy
  have : Fact sm2.p.Prime := ⟨sm2_p_prime⟩
  have hp : 0 < sm2.p := p_pos sm2
  exact ⟨⟨fadd_lt hp, fadd_eq_ite hx hy⟩, ⟨fsub_lt hx hy, fadd_fsub_cancel hx hy.le⟩,
    ⟨fneg_lt hp hx, fadd_fneg hx.le, fun h0 => fneg_mod_two (by decide) h0 hx⟩, ⟨fmul_lt hp, fmul_cast x y⟩,
    ⟨rfl, fsqr_lt hp, fsqr_cast x, (fsqr_fneg hx.le).symm⟩⟩

/-- Settles O22: the examples are inverses by their products, as the inverse is unique. -/
theorem finvIsTheUniqueInverse : Obligations.FinvIsTheUniqueInverse := by
  have : Fact sm2.p.Prime := ⟨sm2_p_prime⟩
  have hexample : ∀ {x z}, z < sm2.p → fmul sm2 x z = 1 → finv sm2 x = z :=
    fun hz h => (eq_finv_of_fmul_eq_one sm2_ok hz h).symm
  refine ⟨fun x h0 hx => ?_, finv_zero sm2_ok, hexample (by decide) (by decide), hexample (by decide) (by decide),
    hexample (by decide) (by decide)⟩
  exact ⟨finv_pos sm2_ok h0.ne' hx, finv_lt x, fmul_finv sm2_ok h0.ne' hx, fun _ => eq_finv_of_fmul_eq_one sm2_ok⟩
end

section
/-! PROOFS. O23: the residue test (R168, R169). With `p ≡ 3 (mod 4)` the candidate's square is `g` times `g^((p−1)/2)`, so the
square-back test and being a square both come down to Euler's criterion. -/

namespace Sys2Proof.Machine

open Sys2Proof.Config

variable {c : Curve} [Fact c.p.Prime] {g : Nat}

theorem fsqrtCand_lt (g : Nat) : fsqrtCand c g < c.p := fexp_lt g _ (one_lt_p c)

theorem cast_p_sub_one : ((c.p - 1 : Nat) : ZMod c.p) = -1 := by
  rw [Nat.cast_sub (one_lt_p c).le, ZMod.natCast_self, Nat.cast_one, zero_sub]

/-- Euler's criterion with 0 among the squares (R169). -/
theorem isSquare_iff_euler (a : ZMod c.p) : IsSquare a ↔ a = 0 ∨ a ^ (c.p / 2) = 1 := by
  by_cases h0 : a = 0
  · simp [h0]
  · simp [h0, ZMod.euler_criterion c.p h0]

theorem euler_of_not_isSquare {a : ZMod c.p} (h : ¬ IsSquare a) : a ^ (c.p / 2) = -1 := by
  rw [isSquare_iff_euler, not_or] at h
  obtain ⟨h0, h1⟩ := h
  exact (ZMod.pow_div_two_eq_neg_one_or_one c.p h0).resolve_left h1

section

variable (hc : CurveOk c)

include hc

theorem fsqrtCand_cast (g : Nat) : ((fsqrtCand c g : Nat) : ZMod c.p) = (g : ZMod c.p) ^ sqrtExponent c :=
  fexp_cast g (by have := hc.lt; have := hc.two_lt; unfold sqrtExponent; omega)

theorem fsqrtCand_one : fsqrtCand c 1 = 1 := by
  rw [← cast_inj_of_lt (fsqrtCand_lt 1) (one_lt_p c), fsqrtCand_cast hc, Nat.cast_one, one_pow]

variable (h4 : c.p % 4 = 3)

include h4

theorem fsqrtCand_zero : fsqrtCand c 0 = 0 := by
  have hexp : sqrtExponent c ≠ 0 := by unfold sqrtExponent; omega
  rw [← cast_inj_of_lt (fsqrtCand_lt 0) (p_pos c), fsqrtCand_cast hc, Nat.cast_zero, zero_pow hexp]

theorem fexp_euler_cast (g : Nat) :
    ((fexp c g (eulerExponent c) : Nat) : ZMod c.p) = (g : ZMod c.p) ^ (c.p / 2) := by
  have heuler : eulerExponent c = c.p / 2 := by unfold eulerExponent; omega
  rw [heuler, fexp_cast g (by have := hc.lt; omega)]

/-- The candidate's square is `g` times the value of Euler's criterion (R168). -/
theorem fsqr_fsqrtCand_cast (g : Nat) :
    ((fsqr c (fsqrtCand c g) : Nat) : ZMod c.p) = g * (g : ZMod c.p) ^ (c.p / 2) := by
  have hexp : sqrtExponent c * 2 = c.p / 2 + 1 := by unfold sqrtExponent; omega
  rw [fsqr_cast, fsqrtCand_cast hc, ← pow_mul, hexp, pow_succ']

theorem qrTest_iff_isSquare (hg : g < c.p) : qrTest c g (fsqrtCand c g) = true ↔ IsSquare (g : ZMod c.p) := by
  rw [qrTest, beq_iff_eq, ← cast_inj_of_lt (fsqr_lt (p_pos c)) hg, fsqr_fsqrtCand_cast hc h4, mul_right_eq_self₀,
    or_comm, isSquare_iff_euler]

theorem isQr_iff_isSquare (g : Nat) : isQr c g = true ↔ IsSquare (g : ZMod c.p) := by
  have hlt := fexp_lt g (eulerExponent c) (one_lt_p c)
  rw [isQr, Bool.or_eq_true, beq_iff_eq, beq_iff_eq, ← cast_inj_of_lt hlt (p_pos c), ← cast_inj_of_lt hlt (one_lt_p c),
    fexp_euler_cast hc h4, Nat.cast_zero, Nat.cast_one, isSquare_iff_euler, pow_eq_zero_iff (by omega)]

/-- Where there is a root the candidate is one. -/
theorem exists_root_iff_isSquare (hg : g < c.p) : (∃ r, r < c.p ∧ fsqr c r = g) ↔ IsSquare (g : ZMod c.p) := by
  constructor
  · rintro ⟨r, -, rfl⟩
    exact ⟨r, by rw [fsqr_cast, sq]⟩
  · intro h
    exact ⟨fsqrtCand c g, fsqrtCand_lt g, beq_iff_eq.1 ((qrTest_iff_isSquare hc h4 hg).2 h)⟩

theorem fsqr_fsqrtCand_of_not_isSquare (hg : g < c.p) (h : ¬ IsSquare (g : ZMod c.p)) :
    fsqr c (fsqrtCand c g) = fneg c g := by
  rw [← cast_inj_of_lt (fsqr_lt (p_pos c)) (fneg_lt (p_pos c) hg), fsqr_fsqrtCand_cast hc h4, euler_of_not_isSquare h,
    mul_neg_one, fneg_cast hg.le]

theorem fexp_euler_of_not_isSquare (h : ¬ IsSquare (g : ZMod c.p)) : fexp c g (eulerExponent c) = c.p - 1 := by
  rw [← cast_inj_of_lt (fexp_lt _ _ (one_lt_p c)) (by omega), fexp_euler_cast hc h4, euler_of_not_isSquare h,
    cast_p_sub_one]

theorem isQr_p_sub_one : isQr c (c.p - 1) = false := by
  rw [← Bool.not_eq_true, isQr_iff_isSquare hc h4, cast_p_sub_one, ZMod.exists_sq_eq_neg_one_iff]
  exact not_not_intro h4

end

theorem sm2_p_mod_four : sm2.p % 4 = 3 := by decide

end Sys2Proof.Machine

open Sys2Proof Sys2Proof.Machine

/-- Settles O23: each of the tests says that `g` is a square in `ZMod p`. -/
theorem residueTestIsExact : Obligations.ResidueTestIsExact := by
  have : Fact sm2.p.Prime := ⟨sm2_p_prime⟩
  have h4 := sm2_p_mod_four
  refine ⟨fun g hg => ?_, fsqrtCand_zero sm2_ok h4, fsqrtCand_one sm2_ok, isQr_p_sub_one sm2_ok h4⟩
  rw [exists_root_iff_isSquare sm2_ok h4 hg]
  exact ⟨qrTest_iff_isSquare sm2_ok h4 hg, isQr_iff_isSquare sm2_ok h4 g, fun h =>
    ⟨fsqr_fsqrtCand_of_not_isSquare sm2_ok h4 hg h, fexp_euler_of_not_isSquare sm2_ok h4 h⟩⟩
end

section
/-! PROOFS. The root solver (R170): `solve_root` answers the root of the wanted parity, and there is at most one. -/

namespace Sys2Proof.Machine

open Sys2Proof.Config

variable {c : Curve} {r r' g : Nat}

theorem parity_eq_iff {par : Bool} : parity r = par ↔ (r % 2 = 1 ↔ par = true) := by
  rw [parity, Nat.testBit_zero, Bool.eq_iff_iff, decide_eq_true_iff]

theorem parity_fneg (hodd : c.p % 2 = 1) (h0 : r ≠ 0) (hr : r < c.p) : parity (fneg c r) = !parity r := by
  have hflip := fneg_mod_two hodd h0 hr
  simp only [parity, Nat.testBit_zero, hflip, ← decide_not, decide_eq_decide]
  omega

variable [Fact c.p.Prime]

theorem fsqr_eq_iff (hr : r < c.p) (hr' : r' < c.p) : fsqr c r = fsqr c r' ↔ r = r' ∨ r = fneg c r' := by
  rw [← cast_inj_of_lt (fsqr_lt (p_pos c)) (fsqr_lt (p_pos c)), fsqr_cast, fsqr_cast, sq_eq_sq_iff_eq_or_eq_neg,
    ← fneg_cast hr'.le, cast_inj_of_lt hr hr', cast_inj_of_lt hr (fneg_lt (p_pos c) hr')]

/-- Two roots of the same parity are the same, as the other root has the other parity (R170). -/
theorem eq_of_fsqr_eq_of_parity_eq (hodd : c.p % 2 = 1) (hr : r < c.p) (hr' : r' < c.p) (hsq : fsqr c r = fsqr c r')
    (hpar : parity r = parity r') : r = r' := by
  rcases (fsqr_eq_iff hr hr').1 hsq with heq | hneg
  · exact heq
  · by_cases h0 : r' = 0
    · rw [hneg, h0, fneg_zero]
    · rw [hneg, parity_fneg hodd h0 hr'] at hpar
      simp at hpar

/-- What `solve_root` answers is a root of the wanted parity (R170). -/
theorem solveRoot_sound (hodd : c.p % 2 = 1) {par : Bool} (h : solveRoot c g par = .ok r) :
    r < c.p ∧ fsqr c r = g ∧ parity r = par := by
  have hlt : fsqrtCand c g < c.p := fsqrtCand_lt g
  rcases solveRoot_cases c g par with ⟨-, hs⟩ | ⟨hq, hpar, hs⟩ | ⟨-, -, -, hs⟩ | ⟨hq, hpar, h0, hs⟩
  · simp [hs] at h
  · obtain rfl := Except.ok.inj (hs.symm.trans h)
    exact ⟨hlt, beq_iff_eq.1 hq, hpar⟩
  · simp [hs] at h
  · obtain rfl := Except.ok.inj (hs.symm.trans h)
    refine ⟨fneg_lt (p_pos c) hlt, (fsqr_fneg hlt.le).trans (beq_iff_eq.1 hq), ?_⟩
    rw [parity_fneg hodd h0 hlt]
    exact (Bool.eq_not.2 fun heq => hpar heq.symm).symm

/-- Where there is a root of the wanted parity, `solve_root` finds one: the candidate is a root, and it is 0, whose parity is
even, only for the one root 0. -/
theorem exists_solveRoot (hc : CurveOk c) (h4 : c.p % 4 = 3) (hr : r < c.p) :
    ∃ r', solveRoot c (fsqr c r) (parity r) = .ok r' := by
  have hq : qrTest c (fsqr c r) (fsqrtCand c (fsqr c r)) = true :=
    (qrTest_iff_isSquare hc h4 (fsqr_lt (p_pos c))).2 ((exists_root_iff_isSquare hc h4 (fsqr_lt (p_pos c))).1 ⟨r, hr, rfl⟩)
  rcases solveRoot_cases c (fsqr c r) (parity r) with ⟨hfail, -⟩ | ⟨-, -, hs⟩ | ⟨-, hpar, h0, -⟩ | ⟨-, -, -, hs⟩
  · exact absurd hq (by simp [hfail])
  · exact ⟨_, hs⟩
  · rw [qrTest, h0, beq_iff_eq] at hq
    obtain rfl : r = 0 := or_self_iff.1 ((fsqr_eq_iff hr (p_pos c)).1 hq.symm)
    exact absurd (congrArg parity h0) hpar
  · exact ⟨_, hs⟩

theorem solveRoot_eq_ok_iff (hc : CurveOk c) (h4 : c.p % 4 = 3) {par : Bool} :
    solveRoot c g par = .ok r ↔ r < c.p ∧ fsqr c r = g ∧ parity r = par := by
  have hodd : c.p % 2 = 1 := by omega
  refine ⟨solveRoot_sound hodd, ?_⟩
  rintro ⟨hr, rfl, rfl⟩
  obtain ⟨r', hs⟩ := exists_solveRoot hc h4 hr
  obtain ⟨hr', hsq, hpar⟩ := solveRoot_sound hodd hs
  rw [hs, eq_of_fsqr_eq_of_parity_eq hodd hr' hr hsq hpar]

theorem solveRoot_eq_point_of_no_root (hc : CurveOk c) (h4 : c.p % 4 = 3) {par : Bool}
    (h : ¬ ∃ r, r < c.p ∧ fsqr c r = g ∧ parity r = par) : solveRoot c g par = .error .point := by
  cases hs : solveRoot c g par with
  | error e => rw [solveRoot_error hs]
  | ok r => exact absurd ⟨r, (solveRoot_eq_ok_iff hc h4).1 hs⟩ h

end Sys2Proof.Machine
end

section
/-! PROOFS. O19 and O20: the field commands (R173, R174). After INIT a command completes with its own outcome, which the field
operand and then the inverter or the root solver decide. -/

namespace Sys2Proof.Machine

open Sys2Proof.Config Sys2Proof.Safety

variable {c : Curve} {s : State} {t : Triple}

/-! ### The completions -/

theorem exec_notReady_failedWith {i : Instr} (hr : s.status.ready = false) (hi : i ≠ .init) :
    exec i s = .next (failedWith s 6) :=
  (exec_notReady hr hi).trans (congrArg _ (takeError_eq_failedWith s .notReady))

theorem completeReady_of_ready (hr : s.status.ready = true) (o : CmdOutcome) : completeReady s o = complete s o := if_pos hr

/-- After INIT a command that draws nothing completes with its own outcome (R143). -/
theorem exec_of_outcome {i : Instr} {o o' : CmdOutcome} (hx : exec i s = .next (completeReady s o))
    (hr : s.status.ready = true) (ho : o = o') : exec i s = .next (complete s o') := by
  rw [hx, completeReady_of_ready hr, ho]

/-! ### The field operand -/

theorem fieldOperand_of_lt (h : t.x.toNat < c.p) : fieldOperand c t = .ok t.x.toNat := if_neg (by omega)

theorem fieldOperand_of_le (h : c.p ≤ t.x.toNat) : fieldOperand c t = .error .range := if_pos h

/-! ### FINV's own outcome -/

theorem finvOutcome_range (h : c.p ≤ t.x.toNat) : finvOutcome c t = .fail .range := by
  rw [finvOutcome, fieldOperand_of_le h]

theorem finvOutcome_zero (hp : 0 < c.p) (h0 : t.x.toNat = 0) : finvOutcome c t = .fail .noInv := by
  rw [finvOutcome, fieldOperand_of_lt (h0 ▸ hp)]
  exact if_pos h0

theorem finvOutcome_inverse (hx : t.x.toNat < c.p) (h0 : t.x.toNat ≠ 0) :
    finvOutcome c t = .ok (fieldResult (finv c t.x.toNat)) := by
  rw [finvOutcome, fieldOperand_of_lt hx]
  exact if_neg h0

/-! ### FSQRT's own outcome -/

theorem isCompressedTag_iff {tag : Tag} : isCompressedTag tag = true ↔ tag = 0x02 ∨ tag = 0x03 := by
  simp [isCompressedTag]

theorem tagParity_eq_wantsOdd (h : t.tag = 0x02 ∨ t.tag = 0x03) : tagParity t.tag = wantsOdd t := by
  unfold wantsOdd
  rcases h with h | h <;> rw [h] <;> decide

theorem isRoot_iff {g r : Nat} {odd : Bool} : IsRoot g r odd ↔ r < sm2.p ∧ fsqr sm2 r = g ∧ parity r = odd := by
  rw [parity_eq_iff]
  rfl

theorem fsqrtOutcome_decode (h2 : t.tag ≠ 0x02) (h3 : t.tag ≠ 0x03) : fsqrtOutcome c t = .fail .decode :=
  if_pos (by rw [← Bool.not_eq_true, isCompressedTag_iff, not_or]; exact ⟨h2, h3⟩)

section

variable (htag : t.tag = 0x02 ∨ t.tag = 0x03)

include htag

theorem fsqrtOutcome_range (hx : c.p ≤ t.x.toNat) : fsqrtOutcome c t = .fail .range := by
  simp [fsqrtOutcome, isCompressedTag_iff.2 htag, fieldOperand_of_le hx]

theorem fsqrtOutcome_root {r : Nat} (hx : t.x.toNat < c.p) (hs : solveRoot c t.x.toNat (wantsOdd t) = .ok r) :
    fsqrtOutcome c t = .ok (fieldResult r) := by
  rw [← tagParity_eq_wantsOdd htag] at hs
  simp [fsqrtOutcome, isCompressedTag_iff.2 htag, fieldOperand_of_lt hx, hs]

theorem fsqrtOutcome_fail {e : Err} (hx : t.x.toNat < c.p) (hs : solveRoot c t.x.toNat (wantsOdd t) = .error e) :
    fsqrtOutcome c t = .fail e := by
  rw [← tagParity_eq_wantsOdd htag] at hs
  simp [fsqrtOutcome, isCompressedTag_iff.2 htag, fieldOperand_of_lt hx, hs]

end

end Sys2Proof.Machine

open Sys2Proof Sys2Proof.Machine

/-- Settles O19: the outcome by the range of the field operand; the word in `PR_X` holds the inverse as `p < 2^256`. -/
theorem finvFollowsItsRule : Obligations.FinvFollowsItsRule := by
  have : Fact sm2.p.Prime := ⟨sm2_p_prime⟩
  refine ⟨by decide, fun s => ⟨fun hr => exec_notReady_failedWith hr (by decide), fun hr => ⟨?range, ?zero, ?inverse⟩⟩⟩
  case range => exact fun hx => exec_of_outcome rfl hr (finvOutcome_range hx)
  case zero => exact fun h0 => exec_of_outcome rfl hr (finvOutcome_zero (p_pos sm2) h0)
  case inverse =>
    intro h0 hx
    have hz : (BitVec.ofNat 256 (finv sm2 s.pa.x.toNat)).toNat = finv sm2 s.pa.x.toNat :=
      Nat.mod_eq_of_lt ((finv_lt _).trans sm2_ok.lt)
    refine ⟨_, exec_of_outcome rfl hr (finvOutcome_inverse hx h0.ne'), ?_⟩
    rw [hz]
    exact ⟨finv_lt _, fmul_finv sm2_ok h0.ne' hx⟩

/-- Settles O20: tag, then range, then what the root solver answers. -/
theorem fsqrtFollowsItsRule : Obligations.FsqrtFollowsItsRule := by
  have : Fact sm2.p.Prime := ⟨sm2_p_prime⟩
  refine ⟨by decide, fun s => ⟨fun hr => exec_notReady_failedWith hr (by decide), fun hr => ⟨?decode, fun htag =>
    ⟨?range, fun hx => ⟨?root, ?point⟩⟩⟩⟩⟩
  case decode => exact fun h2 h3 => exec_of_outcome rfl hr (fsqrtOutcome_decode h2 h3)
  case range => exact fun hx => exec_of_outcome rfl hr (fsqrtOutcome_range htag hx)
  case root =>
    intro r hroot
    have hs : solveRoot sm2 s.pa.x.toNat (Safety.wantsOdd s.pa) = .ok r :=
      (solveRoot_eq_ok_iff sm2_ok sm2_p_mod_four).2 (isRoot_iff.1 hroot)
    exact exec_of_outcome rfl hr (fsqrtOutcome_root htag hx hs)
  case point =>
    intro hnone
    simp only [isRoot_iff] at hnone
    have hs : solveRoot sm2 s.pa.x.toNat (Safety.wantsOdd s.pa) = .error .point :=
      solveRoot_eq_point_of_no_root sm2_ok sm2_p_mod_four hnone
    exact exec_of_outcome rfl hr (fsqrtOutcome_fail htag hx hs)
end

section
/-! PROOFS. O25: the group law of the engine's points (R199 items 1 to 3). An equation between points of the curve is an
equation in Mathlib's group, as a point of the group has one representative (`represents_unique`). -/

namespace Sys2Proof.Machine

open Sys2Proof.Config

/-! ### The identity -/

theorem inf_padd (c : Curve) (q : Point) : padd c .inf q = q := rfl

theorem padd_inf (c : Curve) (q : Point) : padd c q .inf = q := by cases q <;> rfl

variable {c : Curve} [Fact c.p.Prime] {q r t : Point} (hc : CurveOk c)

include hc

/-! ### Closure -/

theorem isPoint_padd (hq : isPoint c q = true) (hr : isPoint c r = true) : isPoint c (padd c q r) = true := by
  obtain ⟨P, hP⟩ := exists_represents hc hq
  obtain ⟨R, hR⟩ := exists_represents hc hr
  exact isPoint_of_represents hc (represents_padd hc hP hR)

theorem isPoint_pdbl (hq : isPoint c q = true) : isPoint c (pdbl c q) = true := by
  obtain ⟨P, hP⟩ := exists_represents hc hq
  exact isPoint_of_represents hc (represents_pdbl hc hP)

theorem isPoint_pneg (hq : isPoint c q = true) : isPoint c (pneg c q) = true := by
  obtain ⟨P, hP⟩ := exists_represents hc hq
  exact isPoint_of_represents hc (represents_pneg hP)

/-! ### The other laws of the group -/

theorem padd_comm (hq : isPoint c q = true) (hr : isPoint c r = true) : padd c q r = padd c r q := by
  obtain ⟨P, hP⟩ := exists_represents hc hq
  obtain ⟨R, hR⟩ := exists_represents hc hr
  have hsum := represents_padd hc hP hR
  rw [add_comm] at hsum
  exact represents_unique hsum (represents_padd hc hR hP)

theorem padd_assoc (hq : isPoint c q = true) (hr : isPoint c r = true) (ht : isPoint c t = true) :
    padd c (padd c q r) t = padd c q (padd c r t) := by
  obtain ⟨P, hP⟩ := exists_represents hc hq
  obtain ⟨R, hR⟩ := exists_represents hc hr
  obtain ⟨T, hT⟩ := exists_represents hc ht
  have hsum := represents_padd hc (represents_padd hc hP hR) hT
  rw [add_assoc] at hsum
  exact represents_unique hsum (represents_padd hc hP (represents_padd hc hR hT))

theorem pdbl_eq_padd_self (hq : isPoint c q = true) : pdbl c q = padd c q q := by
  obtain ⟨P, hP⟩ := exists_represents hc hq
  exact represents_unique (represents_pdbl hc hP) (represents_padd hc hP hP)

theorem padd_pneg (hq : isPoint c q = true) : padd c q (pneg c q) = .inf := by
  obtain ⟨P, hP⟩ := exists_represents hc hq
  have hsum := represents_padd hc hP (represents_pneg hP)
  rw [add_neg_cancel] at hsum
  exact represents_zero hsum

end Sys2Proof.Machine

open Sys2Proof.Machine

/-- Settles O25: each law is that law of Mathlib's group. -/
theorem pointsFormACommutativeGroup : Obligations.PointsFormACommutativeGroup := by
  have : Fact sm2.p.Prime := ⟨sm2_p_prime⟩
  refine ⟨fun q r hq hr => ?_, fun q r t => padd_assoc sm2_ok⟩
  exact ⟨isPoint_padd sm2_ok hq hr, isPoint_pdbl sm2_ok hq, isPoint_pneg sm2_ok hq, padd_comm sm2_ok hq hr,
    pdbl_eq_padd_self sm2_ok hq, inf_padd sm2 q, padd_inf sm2 q, padd_pneg sm2_ok hq⟩
end

section
/-! PROOFS. O26: the order of a point (R199 item 4) and the ladder (R235 to R237). The group has `n` elements, a prime, so `n`
times any point is infinity and only the multiples of `n` make a finite point infinite. -/

namespace Sys2Proof.Machine

open Sys2Proof.Config

/-! ### The ladder -/

/-- One iteration of the ladder (R235) for the bit `b`: swap, add, double, swap. -/
def ladderStep (c : Curve) (b : Bool) (r : Point × Point) : Point × Point :=
  cswap b (pdbl c (cswap b r.1 r.2).1) (padd c (cswap b r.1 r.2).1 (cswap b r.1 r.2).2)

theorem ladderLoop_succ (c : Curve) (k i : Nat) (r0 r1 : Point) :
    ladderLoop c k (i + 1) r0 r1 =
      ladderLoop c k i (ladderStep c (k.testBit i) (r0, r1)).1 (ladderStep c (k.testBit i) (r0, r1)).2 := rfl

section

variable {c : Curve} [Fact c.p.Prime]

/-- The ladder's invariant (R236): the registers stand for `R` and `R + P`. -/
def LadderInv (c : Curve) [Fact c.p.Prime] (P R : (affineCurve c).Point) (r : Point × Point) : Prop :=
  Represents c r.1 R ∧ Represents c r.2 (R + P)

variable (hc : CurveOk c)

include hc

/-- One iteration doubles `R` and adds `P` for a set bit. -/
theorem ladderInv_ladderStep {P R : (affineCurve c).Point} {r : Point × Point} (h : LadderInv c P R r) (b : Bool) :
    LadderInv c P (R + R + (if b then 1 else 0) • P) (ladderStep c b r) := by
  obtain ⟨h0, h1⟩ := h
  cases b
  · have hsum := represents_padd hc h0 h1
    rw [← add_assoc] at hsum
    simpa [LadderInv, ladderStep, cswap] using And.intro (represents_pdbl hc h0) hsum
  · have hsum := represents_padd hc h1 h0
    have hdbl := represents_pdbl hc h1
    rw [add_right_comm] at hsum
    rw [add_add_add_comm, ← add_assoc] at hdbl
    simpa [LadderInv, ladderStep, cswap] using And.intro hsum hdbl

/-- The invariant after the loop: the bits of `k` below `i` are still to be read before it. -/
theorem ladderInv_ladderLoop (k : Nat) {P : (affineCurve c).Point} :
    ∀ i {r0 r1 : Point} {R : (affineCurve c).Point}, LadderInv c P R (r0, r1) →
      LadderInv c P (2 ^ i • R + (k % 2 ^ i) • P) (ladderLoop c k i r0 r1)
  | 0, r0, r1, R, h => by simpa [ladderLoop, Nat.mod_one] using h
  | i + 1, r0, r1, R, h => by
    have hbits : 2 ^ (i + 1) • R + (k % 2 ^ (i + 1)) • P =
        2 ^ i • (R + R + (if k.testBit i then 1 else 0) • P) + (k % 2 ^ i) • P := by
      rw [mod_two_pow_succ, add_nsmul, mul_nsmul', ← add_assoc, pow_succ, mul_nsmul', ← nsmul_add, two_nsmul]
    rw [ladderLoop_succ, hbits]
    exact ladderInv_ladderLoop k i (ladderInv_ladderStep hc h (k.testBit i))

/-- The ladder is the group's multiple, for a scalar of 256 bits (R237). -/
theorem represents_ladder {k : Nat} (hk : k < 2 ^ 256) {q : Point} {P : (affineCurve c).Point} (hq : Represents c q P) :
    Represents c (ladder c k q) (k • P) := by
  have hinit : LadderInv c P 0 (.inf, q) := ⟨trivial, by rwa [zero_add]⟩
  obtain ⟨h, -⟩ := ladderInv_ladderLoop hc k ladderBits hinit
  rwa [nsmul_zero, zero_add, ladderBits, Nat.mod_eq_of_lt hk] at h

/-- The ladder adds up `k` copies of the point (R237). -/
theorem ladder_eq_nTimes {k : Nat} (hk : k < 2 ^ 256) {q : Point} (hq : isPoint c q = true) :
    ladder c k q = nTimes c k q := by
  obtain ⟨P, hP⟩ := exists_represents hc hq
  exact represents_unique (represents_ladder hc hk hP) (represents_nTimes hc hP k)

end

/-! ### Multiples in a group of prime order -/

/-- In a group with a prime number `n` of elements a multiple of an element other than 0 is 0 only for a multiple of `n`. -/
theorem nsmul_eq_zero_iff_of_card_prime {A : Type*} [AddGroup A] (hn : (Nat.card A).Prime) (x : A) (k : Nat) :
    k • x = 0 ↔ x = 0 ∨ Nat.card A ∣ k := by
  have : Fact (Nat.card A).Prime := ⟨hn⟩
  by_cases h0 : x = 0
  · simp [h0]
  · rw [or_iff_right h0, ← addOrderOf_eq_prime card_nsmul_eq_zero' h0, addOrderOf_dvd_iff_nsmul_eq_zero]

/-- A point is infinity exactly when it stands for the group's zero. -/
theorem eq_inf_iff_of_represents {c : Curve} [Fact c.p.Prime] {q : Point} {P : (affineCurve c).Point}
    (h : Represents c q P) : q = .inf ↔ P = 0 := by
  constructor
  · rintro rfl
    exact represents_inf h
  · rintro rfl
    exact represents_zero h

theorem nTimes_mod_order {q : Point} (hq : isPoint sm2 q = true) (k : Nat) :
    nTimes sm2 k q = nTimes sm2 (k % sm2.n) q := by
  have : Fact sm2.p.Prime := ⟨sm2_p_prime⟩
  obtain ⟨P, hP⟩ := exists_represents sm2_ok hq
  have hmod := represents_nTimes sm2_ok hP (k % sm2.n)
  rw [← card_affineCurve_sm2, mod_natCard_nsmul, card_affineCurve_sm2] at hmod
  exact represents_unique (represents_nTimes sm2_ok hP k) hmod

theorem nTimes_eq_inf_iff {q : Point} (hq : isPoint sm2 q = true) (k : Nat) :
    nTimes sm2 k q = .inf ↔ q = .inf ∨ sm2.n ∣ k := by
  have : Fact sm2.p.Prime := ⟨sm2_p_prime⟩
  obtain ⟨P, hP⟩ := exists_represents sm2_ok hq
  have hcard := card_affineCurve_sm2
  rw [eq_inf_iff_of_represents (represents_nTimes sm2_ok hP k), eq_inf_iff_of_represents hP, ← hcard]
  exact nsmul_eq_zero_iff_of_card_prime (hcard ▸ sm2_n_prime) P k

end Sys2Proof.Machine

open Sys2Proof.Machine

/-- Settles O26: the group has `n` elements, and the ladder is the multiple. -/
theorem everyPointHasOrderN : Obligations.EveryPointHasOrderN := by
  have : Fact sm2.p.Prime := ⟨sm2_p_prime⟩
  refine fun q hq => ⟨nTimes_mod_order hq, nTimes_eq_inf_iff hq, fun k hk => ?_⟩
  exact (ladder_eq_nTimes sm2_ok hk hq).trans (nTimes_mod_order hq k)
end

section
/-! PROOFS. O27: the pipelines (R197) step by step compute what the rules of the group law name (R195, R196). -/

namespace Sys2Proof.Machine

open Sys2Proof.Config

variable {c : Curve} {x y x1 y1 x2 y2 : Nat}

/-- The one difference between the double pipeline and its rule: three times an element is a product in R195 and two sums in
R197. -/
theorem fmul_three (c : Curve) (u : Nat) : fmul c 3 u = fadd c (fadd c u u) u := by
  rw [fmul, fadd, fadd, Nat.mod_add_mod]
  congr 1
  omega

theorem pdbl_eq_doublePipeline (hy : y ≠ 0) :
    pdbl c (.aff x y) = .aff (doublePipeline c x y).1 (doublePipeline c x y).2 := by
  simp only [pdbl, if_neg hy, doublePipeline, fmul_three]

theorem padd_eq_addPipeline (hx : x1 ≠ x2) :
    padd c (.aff x1 y1) (.aff x2 y2) = .aff (addPipeline c x1 y1 x2 y2).1 (addPipeline c x1 y1 x2 y2).2 := by
  simp only [padd, if_neg hx, addPipeline]

end Sys2Proof.Machine

open Sys2Proof.Machine

/-- Settles O27: the pipelines agree with the rules on all coordinates, canonical or not. -/
theorem pipelinesComputeTheGroupLaw : Obligations.PipelinesComputeTheGroupLaw :=
  ⟨fun _ _ _ _ => pdbl_eq_doublePipeline, fun _ _ _ _ _ _ _ _ => padd_eq_addPipeline⟩
end

section
/-! PROOFS. O28 to O31: the point commands (R200 to R202). After INIT the operands decide between an error (R193) and a result,
which is then a fact about the group law alone. -/

namespace Sys2Proof.Machine

open Sys2Proof.Config Sys2Proof.Safety

/-! ### Points of the curve, in the rules' own words -/

theorem onCurve_iff_mod_eq {c : Curve} [Fact c.p.Prime] (x y : Nat) :
    onCurve c x y = true ↔ y ^ 2 % c.p = (x ^ 3 + c.a * x + c.b) % c.p := by
  rw [onCurve_iff, ← ZMod.natCast_eq_natCast_iff']
  push_cast
  rfl

theorem isPoint_aff_iff {x y : Nat} : isPoint sm2 (.aff x y) = true ↔ IsCurvePair x y := by
  have : Fact sm2.p.Prime := ⟨sm2_p_prime⟩
  simp only [isPoint, Bool.and_eq_true, decide_eq_true_eq, onCurve_iff_mod_eq, and_assoc]

/-- R199 item 5: the cubic has no root. -/
theorem not_isCurvePair_zero (x : Nat) : ¬ IsCurvePair x 0 := by
  rw [← isPoint_aff_iff]
  intro h
  simp only [isPoint, Bool.and_eq_true, onCurve, beq_iff_eq] at h
  obtain ⟨-, hcurve⟩ := h
  exact rhs_ne_zero x hcurve.symm

theorem ne_zero_of_isCurvePair {x y : Nat} (h : IsCurvePair x y) : y ≠ 0 := by
  rintro rfl
  exact not_isCurvePair_zero x h

/-! ### The arithmetic operand -/

section

variable {t : Triple}

theorem pointOf_inf (h : t.tag = 0x00) : pointOf t = .inf := if_pos h

theorem pointOf_aff (h : t.tag = 0x04) : pointOf t = .aff t.x.toNat t.y.toNat := if_neg (by rw [h]; decide)

theorem isPoint_pointOf (h : GoodOperand t) : isPoint sm2 (pointOf t) = true := by
  rcases h with htag | ⟨htag, hpair⟩
  · rw [pointOf_inf htag]
    rfl
  · rw [pointOf_aff htag]
    exact isPoint_aff_iff.2 hpair

theorem isCurvePair_of_good (h : GoodOperand t) (htag : t.tag = 0x04) : IsCurvePair t.x.toNat t.y.toNat :=
  isPoint_aff_iff.1 (pointOf_aff htag ▸ isPoint_pointOf h)

/-- An operand is accepted exactly as R193 says, and stands for its point. -/
theorem loadPoint_of_good (h : GoodOperand t) : loadPoint sm2 t = .ok (pointOf t) := by
  cases hload : loadPoint sm2 t with
  | ok q =>
    rcases loadPoint_ok hload with ⟨htag, rfl⟩ | ⟨htag, rfl, -⟩
    · rw [pointOf_inf htag]
    · rw [pointOf_aff htag]
  | error e =>
    rcases loadPoint_error hload with ⟨-, h0, h4⟩ | ⟨-, h4, hoff⟩
    · rcases h with htag | ⟨htag, -⟩
      · exact absurd htag h0
      · exact absurd htag h4
    · have hpoint := isPoint_pointOf h
      rw [pointOf_aff h4, hoff] at hpoint
      cases hpoint

/-- An operand is rejected with the code R193 says. -/
theorem loadPoint_of_fails {code : BitVec 4} (h : OperandFails t code) :
    ∃ e, loadPoint sm2 t = .error e ∧ errCode e = code := by
  cases hload : loadPoint sm2 t with
  | ok q =>
    rcases loadPoint_ok hload with ⟨h0, -⟩ | ⟨h4, rfl, hpoint⟩
    · rcases h with ⟨htag, -, -⟩ | ⟨htag, -, -⟩
      · exact absurd h0 htag
      · simp [h0] at htag
    · rcases h with ⟨-, htag, -⟩ | ⟨-, hpair, -⟩
      · exact absurd h4 htag
      · exact absurd (isPoint_aff_iff.1 hpoint) hpair
  | error e =>
    refine ⟨e, rfl, ?_⟩
    rcases loadPoint_error hload with ⟨rfl, -, h4⟩ | ⟨rfl, h4, -⟩
    · rcases h with ⟨-, -, rfl⟩ | ⟨htag, -, -⟩
      · rfl
      · exact absurd htag h4
    · rcases h with ⟨-, htag, -⟩ | ⟨-, -, rfl⟩
      · exact absurd h4 htag
      · rfl

/-- An accepted operand given back (R194). -/
theorem encodePoint_pointOf (h : GoodOperand t) : encodePoint (pointOf t) = normalOperand t := by
  rcases h with htag | ⟨htag, -⟩
  · rw [pointOf_inf htag]
    exact (if_pos htag).symm
  · have hnormal : normalOperand t = t := if_neg (by rw [htag]; decide)
    rw [pointOf_aff htag, hnormal, encodePoint, BitVec.ofNat_toNat, BitVec.ofNat_toNat, ← htag]
    simp

/-- A finite point of the curve fits the registers (R194). -/
theorem encodePoint_isCurvePair {x y : Nat} (h : IsCurvePair x y) :
    ∃ x3 y3 : U256, x3.toNat = x ∧ y3.toNat = y ∧ encodePoint (.aff x y) = { tag := 0x04, x := x3, y := y3 } := by
  obtain ⟨hx, hy, -⟩ := h
  exact ⟨BitVec.ofNat 256 x, BitVec.ofNat 256 y, Nat.mod_eq_of_lt (hx.trans sm2_ok.lt),
    Nat.mod_eq_of_lt (hy.trans sm2_ok.lt), rfl⟩

end

/-! ### The commands by their operands -/

section

variable {s : State}

theorem exec_of_fail {i : Instr} {o : CmdOutcome} {e : Err} {code : BitVec 4}
    (hx : exec i s = .next (completeReady s o)) (hr : s.status.ready = true) (ho : o = .fail e) (he : errCode e = code) :
    exec i s = .next (failedWith s code) := by
  rw [exec_of_outcome hx hr ho, complete_fail, takeError_eq_failedWith, he]

variable (hr : s.status.ready = true)

include hr

theorem exec_pchk_of_fails {code : BitVec 4} (h : OperandFails s.pa code) :
    exec .pchk s = .next (failedWith s code) := by
  obtain ⟨e, hload, he⟩ := loadPoint_of_fails h
  exact exec_of_fail rfl hr (by rw [pchkOutcome, hload]) he

theorem exec_pchk_of_good (h : GoodOperand s.pa) : exec .pchk s = .next (doneWith s { tag := 0, x := 0, y := 0 }) :=
  exec_of_outcome (o' := .ok zeroTriple) rfl hr (by rw [pchkOutcome, loadPoint_of_good h])

theorem exec_pdbl_of_fails {code : BitVec 4} (h : OperandFails s.pa code) :
    exec .pdbl s = .next (failedWith s code) := by
  obtain ⟨e, hload, he⟩ := loadPoint_of_fails h
  exact exec_of_fail rfl hr (by rw [pdblOutcome, hload]) he

theorem exec_pdbl_of_good (h : GoodOperand s.pa) :
    exec .pdbl s = .next (doneWith s (encodePoint (pdbl sm2 (pointOf s.pa)))) :=
  exec_of_outcome (o' := .ok _) rfl hr (by rw [pdblOutcome, loadPoint_of_good h])

theorem exec_padd_of_pa_fails {code : BitVec 4} (h : OperandFails s.pa code) :
    exec .padd s = .next (failedWith s code) := by
  obtain ⟨e, hload, he⟩ := loadPoint_of_fails h
  exact exec_of_fail rfl hr (by rw [paddOutcome, hload]) he

theorem exec_padd_of_pb_fails {code : BitVec 4} (ha : GoodOperand s.pa) (hb : OperandFails s.pb code) :
    exec .padd s = .next (failedWith s code) := by
  obtain ⟨e, hload, he⟩ := loadPoint_of_fails hb
  exact exec_of_fail rfl hr (by rw [paddOutcome, loadPoint_of_good ha, hload]) he

theorem exec_padd_of_good (ha : GoodOperand s.pa) (hb : GoodOperand s.pb) :
    exec .padd s = .next (doneWith s (encodePoint (padd sm2 (pointOf s.pa) (pointOf s.pb)))) :=
  exec_of_outcome (o' := .ok _) rfl hr (by rw [paddOutcome, loadPoint_of_good ha, loadPoint_of_good hb])

end

/-! ### The group law's two general branches in `ZMod p` (R195, R196) -/

section

variable {c : Curve}

/-- `(x3, y3)` is where the line of slope `lam` through `(x1, y1)` and a point with X `x2` meets the curve again, reflected. -/
def Reflected (c : Curve) (lam : ZMod c.p) (x1 y1 x2 x3 y3 : Nat) : Prop :=
  (x3 : ZMod c.p) = lam ^ 2 - x1 - x2 ∧ (y3 : ZMod c.p) = lam * (x1 - x3) - y1

variable {x1 y1 x2 y2 lam x3 y3 : Nat}

theorem reflected_of_slope (hx1 : x1 < c.p) (hy1 : y1 < c.p) (hx2 : x2 < c.p)
    (hx3 : x3 = fsub c (fsub c (fsqr c lam) x1) x2) (hy3 : y3 = fsub c (fmul c lam (fsub c x1 x3)) y1) :
    Reflected c lam x1 y1 x2 x3 y3 := by
  have hlt : x3 < c.p := hx3 ▸ fsub_lt (fsub_lt (fsqr_lt (by omega)) hx1) hx2
  constructor
  · rw [hx3, fsub_cast hx2.le, fsub_cast hx1.le, fsqr_cast]
  · rw [hy3, fsub_cast hy1.le, fmul_cast, fsub_cast hlt.le]

variable [Fact c.p.Prime] (hc : CurveOk c)

include hc

/-- R196: the sum of two points with different X is the reflected third point of their chord. -/
theorem padd_chord (hx1 : x1 < c.p) (hy1 : y1 < c.p) (hx2 : x2 < c.p) (hne : x1 ≠ x2) :
    ∃ (x3 y3 : Nat) (lam : ZMod c.p), padd c (.aff x1 y1) (.aff x2 y2) = .aff x3 y3 ∧
      lam * ((x2 : ZMod c.p) - x1) = y2 - y1 ∧ Reflected c lam x1 y1 x2 x3 y3 := by
  have hsub : (x2 : ZMod c.p) - x1 ≠ 0 := sub_ne_zero.2 fun heq => hne ((cast_inj_of_lt hx2 hx1).1 heq).symm
  refine ⟨_, _, _, padd_eq_addPipeline hne, ?_, reflected_of_slope hx1 hy1 hx2 rfl rfl⟩
  rw [fmul_cast, finv_cast hc, fsub_cast hy1.le, fsub_cast hx1.le, inv_mul_cancel_right₀ hsub]

/-- R195: the double of a point with Y other than 0 is the reflected second point of its tangent. -/
theorem pdbl_tangent (hx1 : x1 < c.p) (hy1 : y1 < c.p) (hy : y1 ≠ 0) :
    ∃ (x3 y3 : Nat) (lam : ZMod c.p), pdbl c (.aff x1 y1) = .aff x3 y3 ∧
      lam * (2 * (y1 : ZMod c.p)) = 3 * (x1 : ZMod c.p) ^ 2 + c.a ∧ Reflected c lam x1 y1 x1 x3 y3 := by
  have h2y : 2 * (y1 : ZMod c.p) ≠ 0 := mul_ne_zero (two_ne_zero_of_ok hc) (cast_ne_zero hy hy1)
  refine ⟨_, _, _, pdbl_eq_doublePipeline hy, ?_, reflected_of_slope hx1 hy1 hx1 rfl rfl⟩
  rw [fmul_cast, finv_cast hc, fadd_cast y1, ← two_mul, inv_mul_cancel_right₀ h2y, ← fmul_three, fadd_cast, fmul_cast,
    fsqr_cast, Nat.cast_ofNat]

end

/-- R196: the sum of different points with the same X is infinity. -/
theorem padd_opposite (c : Curve) (x : Nat) {y1 y2 : Nat} (hy : y1 ≠ y2) : padd c (.aff x y1) (.aff x y2) = .inf := by
  simp only [padd, if_true, if_neg hy]

/-- A command whose result is a finite point of the curve puts its coordinates in `PR`. -/
theorem exec_of_reflected {i : Instr} {s : State} {q : Point} {lam : ZMod sm2.p} {x1 y1 x2 x y : Nat}
    (hexec : exec i s = .next (doneWith s (encodePoint q))) (hpoint : isPoint sm2 q = true) (hq : q = .aff x y)
    (href : Reflected sm2 lam x1 y1 x2 x y) :
    ∃ x3 y3 : U256, exec i s = .next (doneWith s { tag := 0x04, x := x3, y := y3 }) ∧
      IsCurvePair x3.toNat y3.toNat ∧ Reflected sm2 lam x1 y1 x2 x3.toNat y3.toNat := by
  subst hq
  have hpair := isPoint_aff_iff.1 hpoint
  obtain ⟨x3, y3, rfl, rfl, henc⟩ := encodePoint_isCurvePair hpair
  rw [henc] at hexec
  exact ⟨x3, y3, hexec, hpair, href⟩

end Sys2Proof.Machine

open Sys2Proof Sys2Proof.Machine Sys2Proof.Safety

/-- Settles O28: the operand decides. -/
theorem pchkFollowsItsRule : Obligations.PchkFollowsItsRule :=
  ⟨by decide, fun _ => ⟨fun hr => exec_notReady_failedWith hr (by decide),
    fun hr => ⟨fun _ => exec_pchk_of_fails hr, exec_pchk_of_good hr⟩⟩⟩

/-- Settles O29: a pair with `Y = 0` is off the curve, as the cubic has no root. -/
theorem noPointHasOrderTwo : Obligations.NoPointHasOrderTwo := by
  intro s hr htag hy
  refine exec_pchk_of_fails hr (.inr ⟨htag, ?_, rfl⟩)
  rw [hy]
  exact not_isCurvePair_zero s.pa.x.toNat

/-- Settles O30: the cases of the group law by the tags and coordinates of the two operands. -/
theorem paddFollowsItsRule : Obligations.PaddFollowsItsRule := by
  have : Fact sm2.p.Prime := ⟨sm2_p_prime⟩
  refine ⟨by decide, fun s => ⟨fun hr => exec_notReady_failedWith hr (by decide), fun hr =>
    ⟨fun _ => exec_padd_of_pa_fails hr, fun _ => exec_padd_of_pb_fails hr, fun ha hb => ?_⟩⟩⟩
  have hexec := exec_padd_of_good hr ha hb
  refine ⟨fun htag => ?paInf, fun htag => ?pbInf, fun htagA htagB =>
    ⟨fun hx hy => ?opposite, fun hx hy => ?equal, fun hx => ?chord⟩⟩
  case paInf => rw [hexec, pointOf_inf htag, inf_padd, encodePoint_pointOf hb]
  case pbInf => rw [hexec, pointOf_inf htag, padd_inf, encodePoint_pointOf ha]
  case opposite =>
    rw [pointOf_aff htagA, pointOf_aff htagB, hx, padd_opposite sm2 _ fun h => hy (BitVec.eq_of_toNat_eq h)] at hexec
    exact hexec
  case equal =>
    have hsame : pointOf s.pb = pointOf s.pa := by rw [pointOf_aff htagA, pointOf_aff htagB, hx, hy]
    rw [hexec, hsame, ← pdbl_eq_padd_self sm2_ok (isPoint_pointOf ha), exec_pdbl_of_good hr ha]
  case chord =>
    obtain ⟨hx1, hy1, -⟩ := isCurvePair_of_good ha htagA
    obtain ⟨hx2, -, -⟩ := isCurvePair_of_good hb htagB
    obtain ⟨x, y, lam, hsum, hslope, href⟩ := padd_chord (y2 := s.pb.y.toNat) sm2_ok hx1 hy1 hx2
      fun h => hx (BitVec.eq_of_toNat_eq h)
    rw [← pointOf_aff htagA, ← pointOf_aff htagB] at hsum
    obtain ⟨x3, y3, hdone, hcurve, hx3, hy3⟩ := exec_of_reflected hexec
      (isPoint_padd sm2_ok (isPoint_pointOf ha) (isPoint_pointOf hb)) hsum href
    exact ⟨x3, y3, lam, hdone, hcurve, hslope, hx3, hy3⟩

/-- Settles O31: the double of a finite point is finite, as no point has `Y = 0`. -/
theorem pdblFollowsItsRule : Obligations.PdblFollowsItsRule := by
  have : Fact sm2.p.Prime := ⟨sm2_p_prime⟩
  refine ⟨by decide, fun s => ⟨fun hr => exec_notReady_failedWith hr (by decide), fun hr =>
    ⟨fun _ => exec_pdbl_of_fails hr, fun htag => ?inf, fun htag hpair => ?finite⟩⟩⟩
  case inf =>
    rw [exec_pdbl_of_good hr (.inl htag), pointOf_inf htag]
    rfl
  case finite =>
    have hgood : GoodOperand s.pa := .inr ⟨htag, hpair⟩
    have ⟨hx, hy, _⟩ := hpair
    obtain ⟨x, y, lam, hdbl, hslope, href⟩ := pdbl_tangent sm2_ok hx hy (ne_zero_of_isCurvePair hpair)
    rw [← pointOf_aff htag] at hdbl
    obtain ⟨x3, y3, hexec, hcurve, hx3, hy3⟩ := exec_of_reflected (exec_pdbl_of_good hr hgood)
      (isPoint_pdbl sm2_ok (isPoint_pointOf hgood)) hdbl href
    exact ⟨x3, y3, lam, hexec, hcurve, hslope, by rw [hx3]; ring, hy3⟩
end

section
/-! PROOFS. O32 to O35: the point codec (R215 to R220). The recovery solver answers the one Y of the curve with the wanted
parity, so DECOMPRESS finds again the Y of which COMPRESS kept only the parity. -/

namespace Sys2Proof.Machine

open Sys2Proof.Config Sys2Proof.Safety

variable {c : Curve} {t : Triple}

/-! ### The recovery solver -/

/-- `recover_y` answers exactly the Y that completes X to a point of the curve with the wanted parity (R217). -/
theorem recoverY_eq_ok_iff {x y : Nat} {par : Bool} :
    recoverY sm2 x par = .ok y ↔ IsCurvePair x y ∧ (y % 2 = 1 ↔ par = true) := by
  have : Fact sm2.p.Prime := ⟨sm2_p_prime⟩
  rw [← parity_eq_iff]
  by_cases hx : sm2.p ≤ x
  · have hfail : recoverY sm2 x par = .error .point := if_pos hx
    simp [hfail, Nat.not_lt.2 hx]
  · have hsolve : recoverY sm2 x par = solveRoot sm2 (rhs sm2 x) par := if_neg hx
    rw [hsolve, solveRoot_eq_ok_iff sm2_ok sm2_p_mod_four, ← isPoint_aff_iff]
    simp [isPoint, onCurve, Nat.not_le.1 hx, and_assoc]

theorem recoverY_eq_point_of_none {x : Nat} {par : Bool} (h : ¬ ∃ y, IsCurvePair x y ∧ (y % 2 = 1 ↔ par = true)) :
    recoverY sm2 x par = .error .point := by
  cases hrec : recoverY sm2 x par with
  | error e => rw [recoverY_error hrec]
  | ok y => exact absurd ⟨y, recoverY_eq_ok_iff.1 hrec⟩ h

/-! ### COMPRESS's function -/

theorem compressFn_of_tag_ne (h : t.tag ≠ 0x04) : compressFn t = t := if_pos h

/-- The low bit of a value is its parity (R11). -/
theorem low_bit_eq (v : U256) : v.extractLsb' 0 1 = BitVec.ofNat 1 (v.toNat % 2) := by
  apply BitVec.eq_of_toNat_eq
  simp

theorem compressFn_even (htag : t.tag = 0x04) (hy : t.y.toNat % 2 = 0) :
    compressFn t = { tag := 0x02, x := t.x, y := 0 } := by
  rw [compressFn, if_neg (not_not.2 htag), low_bit_eq, hy]
  rfl

theorem compressFn_odd (htag : t.tag = 0x04) (hy : t.y.toNat % 2 = 1) :
    compressFn t = { tag := 0x03, x := t.x, y := 0 } := by
  rw [compressFn, if_neg (not_not.2 htag), low_bit_eq, hy]
  rfl

/-- What COMPRESS keeps of a finite point (R215): X, and the parity of Y in a compressed tag. -/
theorem compressFn_finite (htag : t.tag = 0x04) :
    ((compressFn t).tag = 0x02 ∨ (compressFn t).tag = 0x03) ∧ (compressFn t).x = t.x ∧
      (t.y.toNat % 2 = 1 ↔ wantsOdd (compressFn t) = true) := by
  rcases Nat.mod_two_eq_zero_or_one t.y.toNat with hy | hy
  · rw [compressFn_even htag hy, hy]
    exact ⟨.inl rfl, rfl, by simp [wantsOdd]⟩
  · rw [compressFn_odd htag hy, hy]
    exact ⟨.inr rfl, rfl, by simp [wantsOdd]⟩

theorem tag_ne_of_compressed (h : t.tag = 0x02 ∨ t.tag = 0x03) : t.tag ≠ 0x04 := by
  rcases h with h | h <;> rw [h] <;> decide

/-- No result of COMPRESS is uncompressed (R215). -/
theorem compressFn_tag_ne (t : Triple) : (compressFn t).tag ≠ 0x04 := by
  by_cases htag : t.tag = 0x04
  · obtain ⟨hcomp, -, -⟩ := compressFn_finite htag
    exact tag_ne_of_compressed hcomp
  · rwa [compressFn_of_tag_ne htag]

/-! ### DECOMPRESS's own outcome -/

theorem decompressOutcome_finite (h : t.tag = 0x04) : decompressOutcome c t = .ok t := if_pos h

theorem decompressOutcome_decode (h2 : t.tag ≠ 0x02) (h3 : t.tag ≠ 0x03) (h4 : t.tag ≠ 0x04) :
    decompressOutcome c t = .fail .decode := by
  have hplain : isCompressedTag t.tag = false := by
    rw [← Bool.not_eq_true, isCompressedTag_iff, not_or]
    exact ⟨h2, h3⟩
  rw [decompressOutcome, if_neg h4, if_pos hplain]

section

variable (htag : t.tag = 0x02 ∨ t.tag = 0x03)

include htag

theorem decompressOutcome_recovered {y : Nat} (hpair : IsCurvePair t.x.toNat y) (hpar : y % 2 = 1 ↔ wantsOdd t = true) :
    decompressOutcome sm2 t = .ok { tag := 0x04, x := t.x, y := BitVec.ofNat 256 y } := by
  have hrec : recoverY sm2 t.x.toNat (tagParity t.tag) = .ok y := by
    rw [tagParity_eq_wantsOdd htag]
    exact recoverY_eq_ok_iff.2 ⟨hpair, hpar⟩
  rw [decompressOutcome, if_neg (tag_ne_of_compressed htag), if_neg (by simp [isCompressedTag_iff.2 htag]), hrec]

theorem decompressOutcome_point (h : ¬ ∃ y, IsCurvePair t.x.toNat y ∧ (y % 2 = 1 ↔ wantsOdd t = true)) :
    decompressOutcome sm2 t = .fail .point := by
  have hrec : recoverY sm2 t.x.toNat (tagParity t.tag) = .error .point := by
    rw [tagParity_eq_wantsOdd htag]
    exact recoverY_eq_point_of_none h
  rw [decompressOutcome, if_neg (tag_ne_of_compressed htag), if_neg (by simp [isCompressedTag_iff.2 htag]), hrec]

end

/-- Every result of DECOMPRESS is uncompressed (R218). -/
theorem tag_of_decompressOutcome_ok {pa : Triple} (h : decompressOutcome c pa = .ok t) : t.tag = 0x04 := by
  unfold decompressOutcome at h
  split at h
  next htag =>
    cases h
    exact htag
  next =>
    split at h
    next => cases h
    next =>
      split at h
      next => cases h
      next =>
        cases h
        rfl

/-! ### The round trip -/

/-- What COMPRESS makes of a finite point of the curve decompresses to the point (R219). -/
theorem decompressOutcome_compressFn (htag : t.tag = 0x04) (hpair : IsCurvePair t.x.toNat t.y.toNat) :
    decompressOutcome sm2 (compressFn t) = .ok t := by
  obtain ⟨hcomp, hx, hpar⟩ := compressFn_finite htag
  rw [decompressOutcome_recovered hcomp (y := t.y.toNat) (by rwa [hx]) hpar, hx, BitVec.ofNat_toNat, BitVec.setWidth_eq,
    ← htag]

end Sys2Proof.Machine

open Sys2Proof Sys2Proof.Machine

/-- Settles O32: `compress_fn` by the tag and the parity of Y. -/
theorem compressFollowsItsRule : Obligations.CompressFollowsItsRule := by
  refine ⟨by decide, fun s => ⟨fun hr => exec_notReady_failedWith hr (by decide), fun hr => ⟨?other, ?even, ?odd⟩⟩⟩
  case other => exact fun htag => exec_of_outcome rfl hr (congrArg CmdOutcome.ok (compressFn_of_tag_ne htag))
  case even => exact fun htag hy => exec_of_outcome rfl hr (congrArg CmdOutcome.ok (compressFn_even htag hy))
  case odd => exact fun htag hy => exec_of_outcome rfl hr (congrArg CmdOutcome.ok (compressFn_odd htag hy))

/-- Settles O33: the tag, then what the recovery solver answers. -/
theorem decompressFollowsItsRule : Obligations.DecompressFollowsItsRule := by
  refine ⟨by decide, fun s => ⟨fun hr => exec_notReady_failedWith hr (by decide), fun hr =>
    ⟨?finite, ?decode, fun htag => ⟨?recovered, ?point⟩⟩⟩⟩
  case finite => exact fun htag => exec_of_outcome rfl hr (decompressOutcome_finite htag)
  case decode => exact fun h2 h3 h4 => exec_of_outcome rfl hr (decompressOutcome_decode h2 h3 h4)
  case recovered => exact fun y hpair hpar => exec_of_outcome rfl hr (decompressOutcome_recovered htag hpair hpar)
  case point => exact fun hnone => exec_of_outcome rfl hr (decompressOutcome_point htag hnone)

/-- Settles O34: neither completion touches `READY` or writes `ERR`, and the second has the point for its result. -/
theorem compressThenDecompressIsIdentity : Obligations.CompressThenDecompressIsIdentity := by
  intro s hr htag hpair
  have hcompress : exec .compress s = .next (complete s (.ok (compressFn s.pa))) := exec_of_outcome rfl hr rfl
  refine ⟨_, _, hcompress, exec_of_outcome rfl hr (decompressOutcome_compressFn htag hpair), ?_⟩
  simp

/-- Settles O35: neither function's result has a tag on which that function does more than pass it through. -/
theorem codecIsIdempotent : Obligations.CodecIsIdempotent :=
  ⟨fun t => compressFn_of_tag_ne (compressFn_tag_ne t),
    fun _ _ h => decompressOutcome_finite (tag_of_decompressOutcome_ok h)⟩
end

section
/-! PROOFS. O36: the ladder and double-and-add are the scalar multiple (R237), by their lemmas of O24 and O26. -/

namespace Sys2Proof.Machine

open Sys2Proof.Config

/-- A multiple of a point of the curve is a point of the curve (R199). -/
theorem isPoint_nTimes {c : Curve} [Fact c.p.Prime] (hc : CurveOk c) {q : Point} (hq : isPoint c q = true) (k : Nat) :
    isPoint c (nTimes c k q) = true := by
  obtain ⟨P, hP⟩ := exists_represents hc hq
  exact isPoint_of_represents hc (represents_nTimes hc hP k)

end Sys2Proof.Machine

open Sys2Proof.Machine

/-- Settles O36: both loops are the multiple, which of `G` depends on the scalar modulo its order `n`. -/
theorem ladderIsTheScalarMultiple : Obligations.LadderIsTheScalarMultiple := by
  have : Fact sm2.p.Prime := ⟨sm2_p_prime⟩
  refine ⟨fun k q hk hq => ?_, fun k hk => ?_⟩
  · rw [ladder_eq_nTimes sm2_ok hk hq]
    exact ⟨rfl, dblAndAdd_eq_nTimes sm2_ok hk hq, isPoint_nTimes sm2_ok hq k⟩
  · exact (ladder_eq_nTimes sm2_ok hk isPoint_basePoint).trans (nTimes_mod_order isPoint_basePoint k)
end

section
/-! PROOFS. O37 to O39: the sequencer (R238). Four phases from `SWAP1` are one iteration of the ladder (R235) and lead to
`SWAP1` of the next index, or to `OUT`; what the registers hold is then a fact about that iteration alone (R236). -/

namespace Sys2Proof.Machine

open Sys2Proof.Config

variable {c : Curve} {q : Point}

/-! ### Runs of the sequencer -/

theorem sequencerRun_add (c : Curve) (k : U256) : ∀ (m m' : Nat) (t : Sequencer),
    sequencerRun c k (m + m') t = sequencerRun c k m' (sequencerRun c k m t)
  | 0, m', t => by rw [Nat.zero_add, sequencerRun]
  | m + 1, m', t => by rw [Nat.succ_add, sequencerRun, sequencerRun, sequencerRun_add c k m m']

/-- The sequencer with the iterations `m - 1` down to 0 still to run and `r` in its registers: at `SWAP1` of index `m - 1`,
or in `OUT` (R238). -/
def sequencerBefore (m : Nat) (r : Point × Point) : Sequencer :=
  match m with
  | 0 => { phase := .out, i := 0, r0 := r.1, r1 := r.2 }
  | i + 1 => { phase := .swap1, i := BitVec.ofNat 8 i, r0 := r.1, r1 := r.2 }

theorem sequencerBefore_r0 (m : Nat) (r : Point × Point) : (sequencerBefore m r).r0 = r.1 := by cases m <;> rfl

theorem sequencerBefore_r1 (m : Nat) (r : Point × Point) : (sequencerBefore m r).r1 = r.2 := by cases m <;> rfl

/-- Every state at `SWAP1` is before the iteration of its index. -/
theorem eq_sequencerBefore {t : Sequencer} (h : t.phase = .swap1) :
    t = sequencerBefore (t.i.toNat + 1) (t.r0, t.r1) := by
  obtain ⟨ph, i, r0, r1⟩ := t
  obtain rfl : ph = .swap1 := h
  simp [sequencerBefore]

/-- `SWAP2`, the last phase of an iteration: the index goes down by one, and after index 0 the sequencer is in `OUT`
(R238). -/
theorem sequencerStep_swap2 (k : U256) {m : Nat} (hm : m < 256) (r0 r1 : Point) :
    sequencerStep c k { phase := .swap2, i := BitVec.ofNat 8 m, r0 := r0, r1 := r1 } =
      sequencerBefore m (cswap (k.toNat.testBit m) r0 r1) := by
  have hi : (BitVec.ofNat 8 m).toNat = m := Nat.mod_eq_of_lt hm
  cases m with
  | zero => rfl
  | succ i =>
    have h0 : BitVec.ofNat 8 (i + 1) ≠ 0 := fun h => by simpa [hi] using congrArg BitVec.toNat h
    have hpred : BitVec.ofNat 8 (i + 1) - 1 = BitVec.ofNat 8 i := by
      rw [BitVec.ofNat_add]
      exact add_sub_cancel_right _ _
    simp only [sequencerStep, hi, if_neg h0, hpred]
    rfl

/-- Four phases are one iteration of the ladder (R235, R238). -/
theorem sequencerRun_four (k : U256) {m : Nat} (hm : m < 256) (r : Point × Point) :
    sequencerRun c k 4 (sequencerBefore (m + 1) r) = sequencerBefore m (ladderStep c (k.toNat.testBit m) r) := by
  have hi : (BitVec.ofNat 8 m).toNat = m := Nat.mod_eq_of_lt hm
  have hthree : sequencerRun c k 3 (sequencerBefore (m + 1) r) =
      { phase := .swap2, i := BitVec.ofNat 8 m,
        r0 := pdbl c (cswap (k.toNat.testBit m) r.1 r.2).1,
        r1 := padd c (cswap (k.toNat.testBit m) r.1 r.2).1 (cswap (k.toNat.testBit m) r.1 r.2).2 } := by
    simp only [sequencerRun, sequencerStep, sequencerBefore, hi]
    rfl
  calc sequencerRun c k 4 (sequencerBefore (m + 1) r)
      = sequencerStep c k (sequencerRun c k 3 (sequencerBefore (m + 1) r)) := rfl
    _ = sequencerBefore m (ladderStep c (k.toNat.testBit m) r) := by
      rw [hthree]
      exact sequencerStep_swap2 k hm _ _

/-- The remaining iterations are the remaining loop of the ladder (R235, R238). -/
theorem sequencerRun_eq_ladderLoop (k : U256) :
    ∀ m, m ≤ 256 → ∀ r, sequencerRun c k (4 * m) (sequencerBefore m r) =
      sequencerBefore 0 (ladderLoop c k.toNat m r.1 r.2)
  | 0, _, _ => rfl
  | m + 1, hm, r => by
    rw [Nat.mul_succ, Nat.add_comm, sequencerRun_add, sequencerRun_four k hm, ladderLoop_succ]
    exact sequencerRun_eq_ladderLoop k m (Nat.le_of_succ_le hm) _

/-! ### The ladder's invariant (R236) -/

/-- `a·P` and `(a + 1)·P`, what the ladder's registers hold once the bits of `a` are read (R236). -/
def ladderPair (c : Curve) (q : Point) (a : Nat) : Point × Point := (nTimes c a q, nTimes c (a + 1) q)

theorem div_two_pow_eq_testBit (k m : Nat) :
    k / 2 ^ m = 2 * (k / 2 ^ (m + 1)) + if k.testBit m then 1 else 0 := by
  have hbit : k / 2 ^ m % 2 = if k.testBit m then 1 else 0 := by
    rw [Nat.testBit_eq_decide_div_mod_eq]
    split <;> simp_all
  rw [pow_succ, ← Nat.div_div_eq_div_mul, ← hbit, Nat.div_add_mod]

variable [Fact c.p.Prime] (hc : CurveOk c) (hq : isPoint c q = true)

include hc hq

/-- One iteration reads one more bit (R236). -/
theorem ladderStep_ladderPair (b : Bool) (a : Nat) :
    ladderStep c b (ladderPair c q a) = ladderPair c q (2 * a + if b then 1 else 0) := by
  obtain ⟨P, hP⟩ := exists_represents hc hq
  have hpair : ∀ a, LadderInv c P (a • P) (ladderPair c q a) := fun a =>
    ⟨represents_nTimes hc hP a, succ_nsmul P a ▸ represents_nTimes hc hP (a + 1)⟩
  obtain ⟨h0, h1⟩ := ladderInv_ladderStep hc (hpair a) b
  rw [← two_nsmul, ← mul_nsmul', ← add_nsmul] at h0 h1
  obtain ⟨h0', h1'⟩ := hpair (2 * a + if b then 1 else 0)
  exact Prod.ext (represents_unique h0 h0') (represents_unique h1 h1')

/-- One iteration of the sequencer keeps the invariant (R236, R238). -/
theorem sequencerRun_four_ladderPair (k : U256) {m : Nat} (hm : m < 256) :
    sequencerRun c k 4 (sequencerBefore (m + 1) (ladderPair c q (k.toNat / 2 ^ (m + 1)))) =
      sequencerBefore m (ladderPair c q (k.toNat / 2 ^ m)) := by
  rw [sequencerRun_four k hm, ladderStep_ladderPair hc hq, ← div_two_pow_eq_testBit]

/-- The sequencer after `j` iterations from `LOAD` (R236, R238). -/
theorem sequencerRun_load (k : U256) : ∀ j, j ≤ 256 → sequencerRun c k (4 * j) (sequencerLoad q) =
    sequencerBefore (256 - j) (ladderPair c q (k.toNat / 2 ^ (256 - j)))
  | 0, _ => by
    have hbits : k.toNat / 2 ^ (256 - 0) = 0 := Nat.div_eq_of_lt k.isLt
    rw [hbits]
    rfl
  | j + 1, hj => by
    have hleft : 256 - j = 256 - (j + 1) + 1 := by omega
    rw [Nat.mul_succ, sequencerRun_add, sequencerRun_load k j (Nat.le_of_succ_le hj), hleft]
    exact sequencerRun_four_ladderPair hc hq k (by omega)

end Sys2Proof.Machine

open Sys2Proof.Machine

/-- Settles O39: 1024 phases are the 256 iterations from `LOAD`. -/
theorem sequencerRunsTheLadder : Obligations.SequencerRunsTheLadder := by
  intro c k q
  have hrun : sequencerRun c k 1024 (sequencerLoad q) = sequencerBefore 0 (ladderLoop c k.toNat 256 .inf q) :=
    sequencerRun_eq_ladderLoop k 256 le_rfl (.inf, q)
  rw [hrun]
  exact ⟨rfl, rfl, sequencerBefore_r0 _ _⟩

/-- Settles O38: the state is one before an iteration, with the invariant's pair in its registers. -/
theorem sequencerIterationKeepsTheInvariant : Obligations.SequencerIterationKeepsTheInvariant := by
  have : Fact sm2.p.Prime := ⟨sm2_p_prime⟩
  intro k q t hq hphase h0 h1
  have ht : t = sequencerBefore (t.i.toNat + 1) (ladderPair sm2 q (k.toNat / 2 ^ (t.i.toNat + 1))) :=
    (eq_sequencerBefore hphase).trans (congrArg _ (Prod.ext h0 h1))
  have hrun : sequencerRun sm2 k 4 t = sequencerBefore t.i.toNat (ladderPair sm2 q (k.toNat / 2 ^ t.i.toNat)) := by
    conv_lhs => rw [ht]
    exact sequencerRun_four_ladderPair sm2_ok hq k t.i.isLt
  rw [hrun]
  refine ⟨sequencerBefore_r0 _ _, sequencerBefore_r1 _ _, fun hi => ?next, fun hi => ?last⟩
  case next =>
    obtain ⟨i, hsucc⟩ : ∃ i, t.i.toNat = i + 1 :=
      Nat.exists_eq_succ_of_ne_zero fun h => hi (BitVec.eq_of_toNat_eq h)
    have hpred : BitVec.ofNat 8 i = t.i - 1 := by bv_omega
    rw [hsucc]
    exact ⟨rfl, hpred⟩
  case last =>
    rw [hi]
    rfl

/-- Settles O37: the sequencer after `j` iterations is before iteration `255 - j`, or in `OUT`. -/
theorem sequencerKeepsTheLadderInvariant : Obligations.SequencerKeepsTheLadderInvariant := by
  have : Fact sm2.p.Prime := ⟨sm2_p_prime⟩
  intro k q j hq hj
  rw [sequencerRun_load sm2_ok hq k j hj]
  refine ⟨sequencerBefore_r0 _ _, sequencerBefore_r1 _ _, fun hlt => ?next, fun hlast => ?last⟩
  case next =>
    have hleft : 256 - j = 255 - j + 1 := by omega
    rw [hleft]
    exact ⟨rfl, Nat.mod_eq_of_lt (by omega)⟩
  case last =>
    subst hlast
    rfl
end

section
/-! PROOFS. O40 to O42 and O44: the scalar commands (R240 to R244). Each runs the ladder, which is the scalar multiple; that a
public key is a finite point rests on the order of `G` (R245). -/

namespace Sys2Proof.Machine

open Sys2Proof.Config Sys2Proof.Safety

variable {s : State} {k : Nat}

/-! ### Scalars -/

theorem validScalar_iff {c : Curve} : validScalar c k = true ↔ 1 ≤ k ∧ k < c.n := by
  simp [validScalar]

/-- A random scalar is a valid one (R242). -/
theorem validScalar_randScalar {c : Curve} (hn : 1 < c.n) (r : Nat) : validScalar c (randScalar c r) = true := by
  have hlt : r % (c.n - 1) < c.n - 1 := Nat.mod_lt _ (by omega)
  rw [validScalar_iff, randScalar, randModulus]
  omega

/-- A random scalar fits `K`. -/
theorem randScalar_toNat (r : Nat) : (BitVec.ofNat 256 (randScalar sm2 r)).toNat = randScalar sm2 r := by
  obtain ⟨-, hlt⟩ := validScalar_iff.1 (validScalar_randScalar sm2_n_prime.one_lt r)
  exact Nat.mod_eq_of_lt (hlt.trans sm2_n_lt)

/-! ### Public keys -/

/-- The multiple of `G` by a valid scalar is a finite point of the curve (R245). -/
theorem exists_isCurvePair_of_validScalar (hk : validScalar sm2 k = true) :
    ∃ x y, nTimes sm2 k (basePoint sm2) = .aff x y ∧ IsCurvePair x y := by
  have : Fact sm2.p.Prime := ⟨sm2_p_prime⟩
  obtain ⟨h1, hn⟩ := validScalar_iff.1 hk
  have hpoint := isPoint_nTimes sm2_ok isPoint_basePoint k
  cases hmul : nTimes sm2 k (basePoint sm2) with
  | inf =>
    rcases (nTimes_eq_inf_iff isPoint_basePoint k).1 hmul with hinf | hdvd
    · cases hinf
    · exact absurd (Nat.le_of_dvd h1 hdvd) (Nat.not_le.2 hn)
  | aff x y =>
    rw [hmul] at hpoint
    exact ⟨x, y, rfl, isPoint_aff_iff.1 hpoint⟩

/-- The ladder's result on `G` for a valid scalar, as it stands in `PR` (R194, R241, R243). -/
theorem exists_encodePoint_publicKey (hk : validScalar sm2 k = true) :
    ∃ x y : U256, encodePoint (ladder sm2 k (basePoint sm2)) = { tag := 0x04, x := x, y := y } ∧
      IsCurvePair x.toNat y.toNat ∧ .aff x.toNat y.toNat = nTimes sm2 k (basePoint sm2) := by
  have : Fact sm2.p.Prime := ⟨sm2_p_prime⟩
  obtain ⟨-, hn⟩ := validScalar_iff.1 hk
  obtain ⟨x, y, hmul, hpair⟩ := exists_isCurvePair_of_validScalar hk
  obtain ⟨x', y', rfl, rfl, henc⟩ := encodePoint_isCurvePair hpair
  refine ⟨x', y', ?_, hpair, hmul.symm⟩
  rw [ladder_eq_nTimes sm2_ok (hn.trans sm2_n_lt) isPoint_basePoint, hmul, henc]

/-! ### The commands' own outcomes -/

theorem pubkeyOutcome_invalid {c : Curve} {k : U256} (h : validScalar c k.toNat = false) :
    pubkeyOutcome c k = .fail .scalar := if_pos h

theorem pubkeyOutcome_valid {c : Curve} {k : U256} (h : validScalar c k.toNat = true) :
    pubkeyOutcome c k = .ok (encodePoint (ladder c k.toNat (basePoint c))) := if_neg (by simp [h])

theorem keygenOutcome_failed {c : Curve} {d : Draw} (h : d.ok = false) : keygenOutcome c d = .fail .entropy := if_pos h

theorem keygenOutcome_drawn {c : Curve} {d : Draw} (h : d.ok = true) :
    keygenOutcome c d = .okK (encodePoint (ladder c (randScalar c d.r.toNat) (basePoint c)))
      (BitVec.ofNat 256 (randScalar c d.r.toNat)) := if_neg (by simp [h])

/-- PUBKEY on the scalar KEYGEN stores has KEYGEN's result (R244). -/
theorem pubkeyOutcome_randScalar (r : Nat) :
    pubkeyOutcome sm2 (BitVec.ofNat 256 (randScalar sm2 r)) =
      .ok (encodePoint (ladder sm2 (randScalar sm2 r) (basePoint sm2))) := by
  have hk : validScalar sm2 (BitVec.ofNat 256 (randScalar sm2 r)).toNat = true := by
    rw [randScalar_toNat]
    exact validScalar_randScalar sm2_n_prime.one_lt r
  rw [pubkeyOutcome_valid hk, randScalar_toNat]

/-! ### The commands -/

section

variable (hr : s.status.ready = true)

include hr

theorem exec_smul_of_fails {code : BitVec 4} (h : OperandFails s.pa code) :
    exec .smul s = .next (failedWith s code) := by
  obtain ⟨e, hload, he⟩ := loadPoint_of_fails h
  exact exec_of_fail rfl hr (by rw [smulOutcome, hload]) he

theorem exec_smul_of_good (h : GoodOperand s.pa) :
    exec .smul s = .next (doneWith s (encodePoint (nTimes sm2 s.k.toNat (pointOf s.pa)))) := by
  have : Fact sm2.p.Prime := ⟨sm2_p_prime⟩
  have hladder := ladder_eq_nTimes sm2_ok s.k.isLt (isPoint_pointOf h)
  exact exec_of_outcome (o' := .ok _) rfl hr (by rw [smulOutcome, loadPoint_of_good h, ← hladder])

end

end Sys2Proof.Machine

open Sys2Proof Sys2Proof.Machine

/-- Settles O40: the operand decides, and the ladder is the multiple. -/
theorem smulFollowsItsRule : Obligations.SmulFollowsItsRule :=
  ⟨by decide, fun _ => ⟨fun hr => exec_notReady_failedWith hr (by decide),
    fun hr => ⟨fun _ => exec_smul_of_fails hr, exec_smul_of_good hr⟩⟩⟩

/-- Settles O41: the scalar decides. -/
theorem pubkeyFollowsItsRule : Obligations.PubkeyFollowsItsRule := by
  refine ⟨by decide, fun s => ⟨fun hr => exec_notReady_failedWith hr (by decide), fun hr =>
    ⟨fun hout => ?invalid, fun h1 hn => ?valid⟩⟩⟩
  case invalid =>
    have hk : validScalar sm2 s.k.toNat = false := by
      rw [← Bool.not_eq_true, validScalar_iff]
      omega
    exact exec_of_fail rfl hr (pubkeyOutcome_invalid hk) rfl
  case valid =>
    have hk : validScalar sm2 s.k.toNat = true := validScalar_iff.2 ⟨h1, Nat.lt_of_le_pred sm2_n_prime.pos hn⟩
    obtain ⟨x, y, henc, hpoint⟩ := exists_encodePoint_publicKey hk
    exact ⟨x, y, exec_of_outcome rfl hr ((pubkeyOutcome_valid hk).trans (congrArg _ henc)), hpoint⟩

/-- Settles O42: the draw decides; a random scalar is a valid one. -/
theorem keygenFollowsItsRule : Obligations.KeygenFollowsItsRule := by
  refine ⟨by decide, fun s => ⟨fun hr => exec_notReady_failedWith hr (by decide), fun hr d hd =>
    ⟨fun hok => ?failed, fun hok => ?drawn⟩⟩⟩
  case failed => rw [execKeygen_answer hr hd, keygenOutcome_failed hok, complete_fail, takeError_eq_failedWith, errCode]
  case drawn =>
    have hk := validScalar_randScalar sm2_n_prime.one_lt d.r.toNat
    obtain ⟨h1, hn⟩ := validScalar_iff.1 hk
    obtain ⟨x, y, henc, hpoint⟩ := exists_encodePoint_publicKey hk
    refine ⟨BitVec.ofNat 256 (randScalar sm2 d.r.toNat), x, y, ?_, ?_⟩
    · rw [execKeygen_answer hr hd, keygenOutcome_drawn hok, henc]
      rfl
    · rw [randScalar_toNat]
      exact ⟨rfl, h1, Nat.le_pred_of_lt hn, hpoint⟩

/-- Settles O44: the completed KEYGEN drew, and PUBKEY has the same result on the scalar it stored. -/
theorem pubkeyReproducesKeygen : Obligations.PubkeyReproducesKeygen := by
  intro s t hr _ hkeygen herr
  rcases execKeygen_next hkeygen with ⟨hnr, -⟩ | ⟨-, d, -, rfl⟩
  · simp [hr] at hnr
  · cases hok : d.ok with
    | false => simp [keygenOutcome_failed hok] at herr
    | true =>
      rw [keygenOutcome_drawn hok] at herr ⊢
      exact ⟨_, exec_of_outcome rfl hr (pubkeyOutcome_randScalar d.r.toNat), rfl, rfl, rfl, herr⟩
end

section
/-! PROOFS. O58: the host's codec (R266 to R270). Each half of a byte is one digit, and the two read back side by side; UTF-8
survives by the library's decoder, which reads what its encoder writes. -/

namespace Sys2Proof.Machine

/-! ### Hex (R266, R267) -/

/-- A digit reads back as its value (R266, R267). -/
theorem hexValue_hexChar {v : Nat} (h : v < 16) : hexValue (hexChar v) = some v := by
  interval_cases v <;> decide

@[simp] theorem bytesToHex_nil : bytesToHex [] = [] := rfl

@[simp] theorem bytesToHex_cons (b : BitVec 8) (bytes : List (BitVec 8)) :
    bytesToHex (b :: bytes) = hexChar (b.toNat / 16) :: hexChar (b.toNat % 16) :: bytesToHex bytes := rfl

theorem length_bytesToHex (bytes : List (BitVec 8)) : (bytesToHex bytes).length = 2 * bytes.length := by
  induction bytes with
  | nil => rfl
  | cons b bytes ih =>
    simp only [bytesToHex_cons, List.length_cons, ih]
    omega

theorem hexPairs_bytesToHex (bytes : List (BitVec 8)) : hexPairs (bytesToHex bytes) = .ok bytes := by
  induction bytes with
  | nil => rfl
  | cons b bytes ih =>
    have hhi := hexValue_hexChar (v := b.toNat / 16) (by omega)
    have hlo := hexValue_hexChar (v := b.toNat % 16) (by omega)
    simp only [bytesToHex_cons, hexPairs, hhi, hlo, ih, Nat.div_add_mod, BitVec.ofNat_toNat, BitVec.setWidth_eq]

/-- Hex of bytes has an even length, so it is read without a leading zero (R266). -/
theorem hexToBytes_bytesToHex (bytes : List (BitVec 8)) : hexToBytes (bytesToHex bytes) = .ok bytes := by
  have heven : (bytesToHex bytes).length % 2 ≠ 1 := by
    rw [length_bytesToHex]
    omega
  rw [hexToBytes, if_neg heven, hexPairs_bytesToHex]

/-! ### Text (R268, R269) -/

/-- The bytes of the codec are the library's, in another type of byte. -/
theorem map_ofBitVec_map_toBitVec (bytes : List UInt8) : (bytes.map UInt8.toBitVec).map UInt8.ofBitVec = bytes := by
  simp [Function.comp_def]

theorem hexToUtf8_utf8ToHex (text : List Char) : hexToUtf8 (utf8ToHex text) = .ok text := by
  have hdecode : (text.flatMap String.utf8EncodeChar).toByteArray.utf8Decode? = some text.toArray :=
    List.utf8Decode?_utf8Encode
  simp only [hexToUtf8, utf8ToHex, hexToBytes_bytesToHex, map_ofBitVec_map_toBitVec, hdecode]

/-! ### Padding (R270) -/

theorem length_leftPad (hex : List Char) (width : Nat) : (leftPad hex width).length = max hex.length width := by
  rw [leftPad, List.length_append, List.length_replicate]
  omega

end Sys2Proof.Machine

open Sys2Proof.Machine

/-- Settles O58, a law at a time. -/
theorem hostCodecRoundTrips : Obligations.HostCodecRoundTrips :=
  ⟨hexToBytes_bytesToHex, hexToUtf8_utf8ToHex, length_leftPad⟩
end

section
/-! PROOFS. O59: the host software's call of a command (R265, R113): the write of `CMD` accepts the word, and the `WAIT` after
it ends with the engine's step of that command. -/

namespace Sys2Proof.Machine

/-! ### The ends of a piece of host software -/

theorem hostBind_error {α β : Type} {m : HostRun α} {f : α → HostRun β} {s t : State} {e : HostError}
    (h : m s = some (.error e, t)) : hostBind m f s = some (.error e, t) := by
  simp only [hostBind, h]

theorem hostBind_none {α β : Type} {m : HostRun α} {f : α → HostRun β} {s : State} (h : m s = none) :
    hostBind m f s = none := by
  simp only [hostBind, h]

theorem playWords_none {lines : List ScriptLine} {s : State} (h : playScript lines s = none) : playWords lines s = none := by
  simp only [playWords, h]

/-! ### `WAIT` in a call -/

/-- A slot that is played is itself the one entry of what was played (R114). -/
theorem playSlot_some {x : Input} {s t : State} {ps : List Played} (h : playSlot x s = some (ps, t)) :
    ps = [{ slot := x, answer := answerTo x t }] := by
  unfold playSlot at h
  split at h
  · cases h
    rfl
  · cases h
  · cases h

/-- `STATUS` is readable in every state, so no read of a `WAIT` is refused (R79, R113). -/
theorem playWait_not_refused : ∀ {polls : Nat} {s t : State} {ps : List Played}, playWait polls s = some (ps, t) →
    ∀ p ∈ ps, p.answer ≠ some .refused
  | 0, s, t, ps, h => by
    rw [playWait, playSlots, playThen_eq_some] at h
    obtain ⟨qs, u, rs, hengine, hread, rfl⟩ := h
    rw [playSlots, playThen_some (playSlot_status u)] at hread
    cases hread
    simp [playSlot_some hengine, answerTo]
  | n + 1, s, t, ps, h => by
    rw [playWait_succ] at h
    split at h
    · obtain ⟨⟨qs, u⟩, hq, he⟩ := Option.map_eq_some_iff.1 h
      cases he
      simpa using playWait_not_refused hq
    · cases h
      simp

/-- A command that hangs does so whatever answer the host holds (U13). -/
theorem engineStep_withAnswer_fault {s : State} {r : Fault} (h : engineStep s = .fault r) (a : Option Answer) :
    engineStep (withAnswer s a) = .fault r :=
  (engineStep_withEdge s s.inputs a).trans (congrArg (outcomeWithEdge s.inputs a) h)

/-- `WAIT` on a running block whose command hangs: so does the wait, after any number of polls (U13). -/
theorem playWait_fault : ∀ (polls : Nat) {s : State} {r : Fault}, s.status.busy = true → engineStep s = .fault r →
    playWait polls s = none
  | 0, _, _, _, h => by simp only [playWait, playSlots, playThen, playSlot_engine_fault h]
  | n + 1, s, r, hb, h => by
    have hanswer := engineStep_withAnswer_fault h (some (.word (statusWord s.status)))
    have hrest := playWait_fault n (s := withAnswer s (some (.word (statusWord s.status)))) hb hanswer
    rw [playWait_succ, if_pos hb, hrest, Option.map_none]

/-- `WAIT` of a call on a running block: the word read last is `STATUS` after the engine's step (R113, R148). -/
theorem playWords_wait {s t : State} (polls : Nat) (hb : s.status.busy = true) (h : engineStep s = .next t) :
    ∃ ws, playWords [.wait polls] s = some (.ok ws, withAnswer t (some (.word (statusWord t.status)))) ∧
      ws.getLastD 0 = statusWord t.status := by
  obtain ⟨ps, hplay, hwords⟩ := playWait_busy polls hb h
  have hscript : playScript [.wait polls] s = _ := (congrFun (playScript_line (.wait polls)) s).trans hplay
  exact ⟨wordsRead ps, playWords_ok hscript (playWait_not_refused hplay), by rw [hwords, List.getLastD_concat]⟩

/-! ### The call -/

section

variable {m : Instr} {s : State}

theorem callBlock_busy (polls : Nat) (hb : s.status.busy = true) :
    callBlock m polls s = some (.error .accessRefused, withAnswer s (some .refused)) :=
  hostBind_error (playWords_cmd_busy m s hb)

/-- The engine's slot after the write of `CMD` runs the command (R140, R142). -/
theorem engineStep_accept : engineStep (accept s (encode m)) = exec m (accept s (encode m)) :=
  engineStep_command (s := accept s (encode m)) rfl (decode_encode m)

theorem callBlock_completes {t : State} (polls : Nat) (hb : s.status.busy = false)
    (h : exec m (accept s (encode m)) = .next t) :
    callBlock m polls s = some (.ok (statusWord t.status), withAnswer t (some (.word (statusWord t.status)))) := by
  have hengine := engineStep_accept.trans h
  have hanswer := engineStep_withAnswer hengine (engineStep_edge hengine).1 (some .wrote)
  obtain ⟨ws, hwait, hlast⟩ := playWords_wait polls (s := withAnswer (accept s (encode m)) (some .wrote)) rfl hanswer
  rw [callBlock, hostBind_some (playWords_cmd_idle m s hb), hostBind_some hwait, hlast]
  rfl

theorem callBlock_hangs {r : Fault} (polls : Nat) (hb : s.status.busy = false)
    (h : exec m (accept s (encode m)) = .fault r) : callBlock m polls s = none := by
  have hengine := engineStep_withAnswer_fault (engineStep_accept.trans h) (some .wrote)
  have hwait : playWords [.wait polls] (withAnswer (accept s (encode m)) (some .wrote)) = none :=
    playWords_none ((congrFun (playScript_line (.wait polls)) _).trans (playWait_fault polls rfl hengine))
  rw [callBlock, hostBind_some (playWords_cmd_idle m s hb), hostBind_none hwait]

end

end Sys2Proof.Machine

open Sys2Proof.Machine

/-- Settles O59: a running block refuses the first write; an idle one completes the command or hangs with it. -/
theorem hostCallsGoThroughTheWindow : Obligations.HostCallsGoThroughTheWindow :=
  fun _ polls _ => ⟨callBlock_busy polls,
    fun hb => ⟨fun _ => callBlock_completes polls hb, fun _ => callBlock_hangs polls hb⟩⟩
end

section
/-! PROOFS. O60: `initCurve` (R271): the call of INIT, which reports no error, and then the constant registers, which read
the same in every state (R38). -/

namespace Sys2Proof.Machine

/-! ### The constant registers -/

/-- `r` is a register that reads as the number `v` in every state, running or idle (R38). -/
structure HoldsConstant (r : Reg) (v : Nat) : Prop where
  words : regWords r = 8
  readable : regReadableBusy r = true
  word : ∀ s i, regWord s i r = constWord v i
  lt : v < 2 ^ 256

theorem holdsConstant_cP : HoldsConstant .cP sm2.p := ⟨rfl, rfl, fun _ _ => rfl, by decide⟩
theorem holdsConstant_cA : HoldsConstant .cA sm2.a := ⟨rfl, rfl, fun _ _ => rfl, by decide⟩
theorem holdsConstant_cB : HoldsConstant .cB sm2.b := ⟨rfl, rfl, fun _ _ => rfl, by decide⟩
theorem holdsConstant_cGX : HoldsConstant .cGX sm2.gx := ⟨rfl, rfl, fun _ _ => rfl, by decide⟩
theorem holdsConstant_cGY : HoldsConstant .cGY sm2.gy := ⟨rfl, rfl, fun _ _ => rfl, by decide⟩
theorem holdsConstant_cN : HoldsConstant .cN sm2.n := ⟨rfl, rfl, fun _ _ => rfl, by decide⟩
theorem holdsConstant_cH : HoldsConstant .cH sm2.h := ⟨rfl, rfl, fun _ _ => rfl, by decide⟩

theorem HoldsConstant.toNat_ofNat {r : Reg} {v : Nat} (h : HoldsConstant r v) : (BitVec.ofNat 256 v).toNat = v :=
  (BitVec.toNat_ofNat v 256).trans (Nat.mod_eq_of_lt h.lt)

/-- `RD256` of a constant register gives its value, whatever the block does (R12, R38, R113). -/
theorem readValue_constant {r : Reg} {v : Nat} (h : HoldsConstant r v) (s : State) :
    readValue r s = some (.ok (BitVec.ofNat 256 v), withAnswer s (some (.word (constWord v 7)))) := by
  have hvalue : valueOfWords ((List.range 8).map fun i => regWord s i r) = (BitVec.ofNat 256 v).toNat := by
    simp only [h.word]
    exact wordsComposeTheValue _
  rw [readValue_word s r h.words (.inr h.readable), hvalue, h.word, BitVec.ofNat_toNat, BitVec.setWidth_eq]

/-- The seven constants, read in any state (R145, R271). -/
theorem readCurve_eq (s : State) : readCurve s = some (.ok sm2, withAnswer s (some (.word (constWord sm2.h 7)))) := by
  rw [readCurve, hostBind_some (readValue_constant holdsConstant_cP _), hostBind_some (readValue_constant holdsConstant_cA _),
    hostBind_some (readValue_constant holdsConstant_cB _), hostBind_some (readValue_constant holdsConstant_cGX _),
    hostBind_some (readValue_constant holdsConstant_cGY _), hostBind_some (readValue_constant holdsConstant_cN _),
    hostBind_some (readValue_constant holdsConstant_cH _)]
  simp only [holdsConstant_cP.toNat_ofNat, holdsConstant_cA.toNat_ofNat, holdsConstant_cB.toNat_ofNat,
    holdsConstant_cGX.toNat_ofNat, holdsConstant_cGY.toNat_ofNat, holdsConstant_cN.toNat_ofNat,
    holdsConstant_cH.toNat_ofNat, withAnswer_withAnswer]
  rfl

/-! ### A checked call -/

/-- Bit 3 of the `STATUS` word is `ERR` (R36, R148). -/
theorem statusWord_err (st : Status) : (statusWord st).getLsbD 3 = st.err := by
  simp only [statusWord, BitVec.getLsbD_append]
  simp

theorem callChecked_ok {m : Instr} {polls : Nat} {s t : State} {st : Status}
    (h : callBlock m polls s = some (.ok (statusWord st), t)) (he : st.err = false) :
    callChecked m polls s = some (.ok (), t) := by
  rw [callChecked, hostBind_some h, hostReturn, statusWord_err, he]
  rfl

end Sys2Proof.Machine

open Sys2Proof Sys2Proof.Machine

/-- Settles O60: INIT completes in every state and the constants are read after it. -/
theorem initCurveLeavesTheBlockReady : Obligations.InitCurveLeavesTheBlockReady := by
  intro polls s hb
  have hcall := callBlock_completes polls hb (exec_init (accept s (encode .init)))
  refine ⟨some (.word (constWord sm2.h 7)), ?_⟩
  rw [initCurve, hostBind_some (callChecked_ok hcall rfl), hostBind_some (readCurve_eq _)]
  rfl
end

section
/-! PROOFS. O11, O46, O47 and O49: errors (R302 to R309, R319). A refused access ends before the window writes anything. An
error completion is `takeError` with a code of the command's row, so each command's own outcome is held to its row once.
Completing keeps what a command reads, so the repetition reads it again. -/

namespace Sys2Proof.Machine

open Sys2Proof.Config Sys2Proof.Safety

variable {c : Curve} {s t : State} {i : Instr} {codes : List (BitVec 4)} {e : Err}

/-! ### The codes of an outcome -/

/-- If the outcome is an error, its code is one of `codes`. -/
def CmdOutcome.raisesOnly (codes : List (BitVec 4)) : CmdOutcome → Prop
  | .fail e => errCode e ∈ codes
  | .ok _ => True
  | .okK _ _ => True

theorem raisesOnly_fail (h : errCode e ∈ codes) : (CmdOutcome.fail e).raisesOnly codes := h

/-- A rejected arithmetic operand is `DECODE` or `POINT` (R193), which every command that loads a point can raise. -/
theorem raisesOnly_of_loadPoint_error {p : Triple} (h : loadPoint c p = .error e) :
    (CmdOutcome.fail e).raisesOnly [1, 3, 6] := by
  rcases loadPoint_error h with ⟨rfl, -⟩ | ⟨rfl, -⟩ <;> exact raisesOnly_fail (by decide)

theorem pubkeyOutcome_raisesOnly (c : Curve) (k : U256) : (pubkeyOutcome c k).raisesOnly (raisable .pubkey) := by
  cases h : validScalar c k.toNat with
  | false =>
    rw [pubkeyOutcome_invalid h]
    exact raisesOnly_fail (by decide)
  | true =>
    rw [pubkeyOutcome_valid h]
    trivial

theorem keygenOutcome_raisesOnly (c : Curve) (d : Draw) : (keygenOutcome c d).raisesOnly (raisable .keygen) := by
  cases h : d.ok with
  | false =>
    rw [keygenOutcome_failed h]
    exact raisesOnly_fail (by decide)
  | true =>
    rw [keygenOutcome_drawn h]
    trivial

theorem decompressOutcome_raisesOnly (c : Curve) (p : Triple) :
    (decompressOutcome c p).raisesOnly (raisable .decompress) := by
  unfold decompressOutcome
  split
  · trivial
  · split
    · exact raisesOnly_fail (by decide)
    · split
      · rename_i hy
        rw [recoverY_error hy]
        exact raisesOnly_fail (by decide)
      · trivial

theorem pchkOutcome_raisesOnly (c : Curve) (p : Triple) : (pchkOutcome c p).raisesOnly (raisable .pchk) := by
  unfold pchkOutcome
  split
  · exact raisesOnly_of_loadPoint_error ‹_›
  · trivial

theorem smulOutcome_raisesOnly (c : Curve) (k : U256) (p : Triple) :
    (smulOutcome c k p).raisesOnly (raisable .smul) := by
  unfold smulOutcome
  split
  · exact raisesOnly_of_loadPoint_error ‹_›
  · trivial

theorem paddOutcome_raisesOnly (c : Curve) (p q : Triple) : (paddOutcome c p q).raisesOnly (raisable .padd) := by
  unfold paddOutcome
  split
  · exact raisesOnly_of_loadPoint_error ‹_›
  · split
    · exact raisesOnly_of_loadPoint_error ‹_›
    · trivial

theorem pdblOutcome_raisesOnly (c : Curve) (p : Triple) : (pdblOutcome c p).raisesOnly (raisable .pdbl) := by
  unfold pdblOutcome
  split
  · exact raisesOnly_of_loadPoint_error ‹_›
  · trivial

theorem finvOutcome_raisesOnly (c : Curve) (p : Triple) : (finvOutcome c p).raisesOnly (raisable .finv) := by
  rcases fieldOperand_cases c p with ⟨hlt, -⟩ | ⟨hle, -⟩
  · by_cases h0 : p.x.toNat = 0
    · rw [finvOutcome_zero (by omega) h0]
      exact raisesOnly_fail (by decide)
    · rw [finvOutcome_inverse hlt h0]
      trivial
  · rw [finvOutcome_range hle]
    exact raisesOnly_fail (by decide)

theorem fsqrtOutcome_raisesOnly (c : Curve) (p : Triple) : (fsqrtOutcome c p).raisesOnly (raisable .fsqrt) := by
  by_cases htag : p.tag = 0x02 ∨ p.tag = 0x03
  · rcases fieldOperand_cases c p with ⟨hlt, -⟩ | ⟨hle, -⟩
    · cases hroot : solveRoot c p.x.toNat (wantsOdd p) with
      | ok r =>
        rw [fsqrtOutcome_root htag hlt hroot]
        trivial
      | error e =>
        rw [fsqrtOutcome_fail htag hlt hroot, solveRoot_error hroot]
        exact raisesOnly_fail (by decide)
    · rw [fsqrtOutcome_range htag hle]
      exact raisesOnly_fail (by decide)
  · obtain ⟨h2, h3⟩ := not_or.1 htag
    rw [fsqrtOutcome_decode h2 h3]
    exact raisesOnly_fail (by decide)

/-! ### Error completions -/

/-- An error newly reported is the outcome's own, and the completion is the error completion (R142, R304). -/
theorem complete_of_err {o : CmdOutcome} (h0 : s.status.err = false) (ho : o.raisesOnly codes)
    (h : (complete s o).status.err = true) : ∃ e, errCode e ∈ codes ∧ complete s o = takeError s e := by
  cases o with
  | fail e => exact ⟨e, ho, rfl⟩
  | _ => exact absurd (h0.symm.trans h) Bool.false_ne_true

/-- The same for a command that draws nothing: `NOTREADY`, or its own outcome's error (R144, R304). -/
theorem exec_of_err_of_outcome {o : CmdOutcome} (hx : exec i s = .next (completeReady s o))
    (ho : o.raisesOnly (raisable i)) (h6 : errCode .notReady ∈ raisable i) (h0 : s.status.err = false)
    (h : exec i s = .next t) (herr : t.status.err = true) :
    ∃ e, errCode e ∈ raisable i ∧ t = takeError s e := by
  cases hx.symm.trans h
  unfold completeReady at herr ⊢
  split at herr
  · rename_i hr
    rw [if_pos hr]
    exact complete_of_err h0 ho herr
  · rename_i hr
    exact ⟨.notReady, h6, if_neg hr⟩

/-- Everything an error completion of a command that draws nothing can be (R302, R304, R309). -/
theorem exec_of_err_of_ne_keygen (hi : i ≠ .keygen) (h0 : s.status.err = false) (h : exec i s = .next t)
    (herr : t.status.err = true) : ∃ e, errCode e ∈ raisable i ∧ t = takeError s e := by
  cases i with
  | keygen => exact absurd rfl hi
  | init =>
    cases h
    exact absurd (h0.symm.trans herr) Bool.false_ne_true
  | pubkey => exact exec_of_err_of_outcome rfl (pubkeyOutcome_raisesOnly _ _) (by decide) h0 h herr
  | compress => exact exec_of_err_of_outcome (o := compressOutcome s.pa) rfl trivial (by decide) h0 h herr
  | decompress => exact exec_of_err_of_outcome rfl (decompressOutcome_raisesOnly _ _) (by decide) h0 h herr
  | pchk => exact exec_of_err_of_outcome rfl (pchkOutcome_raisesOnly _ _) (by decide) h0 h herr
  | smul => exact exec_of_err_of_outcome rfl (smulOutcome_raisesOnly _ _ _) (by decide) h0 h herr
  | padd => exact exec_of_err_of_outcome rfl (paddOutcome_raisesOnly _ _ _) (by decide) h0 h herr
  | pdbl => exact exec_of_err_of_outcome rfl (pdblOutcome_raisesOnly _ _) (by decide) h0 h herr
  | finv => exact exec_of_err_of_outcome rfl (finvOutcome_raisesOnly _ _) (by decide) h0 h herr
  | fsqrt => exact exec_of_err_of_outcome rfl (fsqrtOutcome_raisesOnly _ _) (by decide) h0 h herr

/-- Everything an error completion of KEYGEN can be: `NOTREADY` without a draw, or a failed draw (R243, R302, R309). -/
theorem execKeygen_of_err (h0 : s.status.err = false) (h : exec .keygen s = .next t) (herr : t.status.err = true) :
    ∃ e, errCode e ∈ raisable .keygen ∧ (t = takeError s e ∨ t = takeError (afterDraw s) e) := by
  rcases execKeygen_next h with ⟨-, rfl⟩ | ⟨-, d, -, rfl⟩
  · exact ⟨.notReady, by decide, .inl rfl⟩
  · obtain ⟨e, he, ht⟩ := complete_of_err (s := afterDraw s) h0 (keygenOutcome_raisesOnly sm2 d) herr
    exact ⟨e, he, .inr ht⟩

/-- Everything an error completion can be: the error completion of R304 with a code of the command's row, for KEYGEN
perhaps after the draw. -/
theorem exec_of_err (h0 : s.status.err = false) (h : exec i s = .next t) (herr : t.status.err = true) :
    ∃ e, errCode e ∈ raisable i ∧ (t = takeError s e ∨ i = .keygen ∧ t = takeError (afterDraw s) e) := by
  by_cases hi : i = .keygen
  · subst hi
    obtain ⟨e, he, ht⟩ := execKeygen_of_err h0 h herr
    exact ⟨e, he, ht.imp_right (⟨rfl, ·⟩)⟩
  · obtain ⟨e, he, ht⟩ := exec_of_err_of_ne_keygen hi h0 h herr
    exact ⟨e, he, .inl ht⟩

/-! ### Repetition -/

/-- KEYGEN apart, a command reads at most `K`, `PA` and `PB` (R102). -/
theorem sameOperands_of_registers (hi : i ≠ .keygen) (hk : s.k = t.k) (hpa : s.pa = t.pa) (hpb : s.pb = t.pb) :
    sameOperands i s t := by
  cases i with
  | keygen => exact absurd rfl hi
  | _ => simp [sameOperands, hk, hpa, hpb]

/-- Acceptance keeps nothing of `STATUS` but `READY` (R140). -/
theorem statusAccepted_congr {st st' : Status} (h : st.ready = st'.ready) : statusAccepted st = statusAccepted st' := by
  simp [statusAccepted, h]

end Sys2Proof.Machine

open Sys2Proof Sys2Proof.Machine

/-- Settles O11: an admitted access answers with a word or with `wrote`, and a refused one leaves the block as it was. -/
theorem refusedAccessHasNoEffect : Obligations.RefusedAccessHasNoEffect := by
  intro s x hrefused
  cases x with
  | read off width =>
    cases h : hostRead s off width with
    | none => exact transact_read_refused h
    | some w =>
      rw [transact_read_admitted h] at hrefused
      cases hrefused
  | write off width w =>
    cases h : hostWrite s off width w with
    | none => exact transact_write_refused h
    | some t =>
      rw [transact_write_admitted h] at hrefused
      cases hrefused

/-- Settles O46: the error completion is `failedWith`, on the state before or, for KEYGEN, on the state after the draw. -/
theorem errorsArePrecise : Obligations.ErrorsArePrecise := by
  intro i s t h0 h herr
  obtain ⟨e, -, ht⟩ := exec_of_err h0 h herr
  exact ⟨errCode e, ht⟩

/-- Settles O47: the code reported is the one of the error completion, which is in the command's row. -/
theorem commandsRaiseOnlyTheirCodes : Obligations.CommandsRaiseOnlyTheirCodes := by
  intro i s t h0 h herr
  obtain ⟨e, he, rfl | ⟨-, rfl⟩⟩ := exec_of_err h0 h herr
  · exact he
  · exact he

/-- Settles O49: the first completion keeps the operands (O45), and acceptance clears the report it left, so the second
completion reads what the first one read (O48). INIT reads nothing and sets `READY` in any case. -/
theorem repeatingACommandRepeatsItsOutcome : Obligations.RepeatingACommandRepeatsItsOutcome := by
  intro i s t hi _ h
  by_cases hinit : i = .init
  · subst hinit
    cases h
    exact ⟨_, exec_init _, rfl, rfl, rfl⟩
  · obtain ⟨-, hpa, hpb, -, -, -, htk, hready, -⟩ := completionFrame i _ t h
    have hstatus : statusAccepted s.status = statusAccepted t.status := statusAccepted_congr (hready hinit).symm
    have hoperands := sameOperands_of_registers hi (htk hi).symm hpa.symm hpb.symm
    obtain ⟨u, hu, hpr, hst⟩ := exec_sameReport (t := accept t (encode i)) hi hstatus hoperands h
    obtain ⟨-, -, -, -, -, -, huk, -⟩ := completionFrame i _ u hu
    exact ⟨u, hu, hpr, hst, huk hi⟩
end

section
/-! PROOFS. O43, O50, O51 and O56: stops, reset and the busy phase (R340 to R348). The one stop is KEYGEN's silent draw. A
busy phase is followed along its schedule: a transaction leaves the block as it was, so what the engine's slot finds is the
block as it was, whatever the schedule still holds. -/

namespace Sys2Proof.Machine

open Sys2Proof.Safety

variable {s t : State}

/-! ### The one stop -/

theorem entropyDraw_eq_none_iff : entropyDraw s = none ↔ nextAnswer s = none := by
  rw [entropyDraw_eq, Option.map_eq_none_iff]

theorem execKeygen_silent (hr : s.status.ready = true) (hd : nextAnswer s = none) :
    exec .keygen s = .fault .entropySilent := by
  simp [exec, execKeygen, hr, entropyDraw_eq, hd]

/-! ### The busy phase -/

/-- The engine's slot on a running command is its completion: the busy phase ends in a report (R142). -/
theorem engineStep_reports (hb : s.status.busy = true) (h : engineStep s = .next t) :
    t.status.busy = false ∧ (t.status.done = true ∨ t.status.err = true) := by
  rcases engineStep_next h with ⟨hidle, -⟩ | ⟨-, -, rfl⟩ | ⟨-, i, -, hx⟩
  · exact absurd (hb.symm.trans hidle) (by decide)
  · exact ⟨rfl, .inr rfl⟩
  · obtain ⟨-, -, -, -, -, hbusy, -, -, hreport, -⟩ := completionFrame i s t hx
    exact ⟨hbusy, hreport.imp And.left And.left⟩

/-- A host's slot of the schedule changes nothing on a running block but the answer the host holds (R141). -/
theorem step_host_busy (hb : s.status.busy = true) (x : Txn) (xs : List Input) (a : Option Answer) :
    ∃ b, step (withEdge s (.host x :: xs) a) = .next (withEdge s xs b) := by
  obtain ⟨b, hx, -⟩ := busyPhaseKeepsTheHostOut (withEdge s xs a) x hb
  exact ⟨some b, (step_host (s := withEdge s (.host x :: xs) a) rfl).trans (congrArg Host.Outcome.next hx)⟩

theorem run_one_of_step (h : step s = .next t) : Host.Core.run Sys2Proof.core 1 s = .next t := run_succ_of_step h 0

/-- Within one step more than the schedule's length the running command is completed, or a scheduled reset abandons it
(R342, R348). -/
theorem busyPhase_ends (hb : s.status.busy = true) (he : PortEvent.silent ∉ s.entropy) :
    ∀ (xs : List Input) (a : Option Answer), ∃ m t, m ≤ xs.length + 1 ∧
      Host.Core.run Sys2Proof.core m (withEdge s xs a) = .next t ∧
      ((∃ rest ans, engineStep (withEdge s rest ans) = .next t) ∨
        (Input.reset ∈ xs ∧ t.status = State.reset.status))
  | [], a => by
    obtain ⟨t, ht⟩ := engineStep_answers (s := withEdge s [] a) he
    exact ⟨1, t, by simp, run_one_of_step ((step_nil rfl).trans ht), .inl ⟨[], a, ht⟩⟩
  | .engine :: xs, a => by
    obtain ⟨t, ht⟩ := engineStep_answers (s := withEdge s xs a) he
    exact ⟨1, t, by simp, run_one_of_step ((step_engine rfl).trans ht), .inl ⟨xs, a, ht⟩⟩
  | .reset :: xs, _ => ⟨1, _, by simp, run_one_of_step (step_reset rfl), .inr ⟨List.mem_cons_self, rfl⟩⟩
  | .host x :: xs, a => by
    obtain ⟨b, hx⟩ := step_host_busy hb x xs a
    obtain ⟨m, t, hm, hrun, hend⟩ := busyPhase_ends hb he xs b
    exact ⟨m + 1, t, by simpa using hm, (run_succ_of_step hx m).trans hrun,
      hend.imp_right fun ⟨hmem, hst⟩ => ⟨List.mem_cons_of_mem _ hmem, hst⟩⟩

end Sys2Proof.Machine

open Sys2Proof Sys2Proof.Machine

/-- Settles O43: KEYGEN faults exactly where its draw has no answer, and nothing else stops. -/
theorem onlyASilentPortStops : Obligations.OnlyASilentPortStops := by
  refine fun i s => ⟨⟨fun hstop => ?_, ?_⟩, ?_⟩
  · obtain ⟨hi, hr, hdraw, -⟩ := exec_stop hstop
    exact ⟨hi, hr, entropyDraw_eq_none_iff.1 hdraw⟩
  · rintro ⟨rfl, hr, hd⟩ t ht
    cases (execKeygen_silent hr hd).symm.trans ht
  · rintro rfl hr hd
    exact execKeygen_silent hr hd

/-- Settles O56: the busy phase ends along its schedule, by the command's completion where no reset is scheduled. -/
theorem everyAcceptedCommandCompletes : Obligations.EveryAcceptedCommandCompletes := by
  intro s hb he
  obtain ⟨m, t, hm, hrun, hend⟩ := busyPhase_ends hb he s.inputs s.answer
  refine ⟨fun hno => ?_, m, t, hm, hrun, ?_⟩
  · obtain ⟨rest, ans, ht⟩ | ⟨hreset, -⟩ := hend
    · exact ⟨m, t, rest, ans, hm, hrun, ht, engineStep_reports (s := withEdge s rest ans) hb ht⟩
    · exact absurd hreset hno
  · obtain ⟨rest, ans, ht⟩ | ⟨-, hst⟩ := hend
    · exact (engineStep_reports (s := withEdge s rest ans) hb ht).1
    · rw [hst]
      rfl

/-- Settles O50: the registers by R43, the constants as they read in every state. -/
theorem resetStateValues : Obligations.ResetStateValues := by
  obtain ⟨-, -, -, -, -, hconstants, -⟩ := hostReadFollowsTheRegisterMap State.reset
  exact ⟨rfl, rfl, rfl, rfl, rfl, rfl, hconstants⟩

/-- Settles O51: the slot is reset's, and reset keeps the environment's side only. -/
theorem resetFromAnyState : Obligations.ResetFromAnyState :=
  fun _ _ h => step_reset h
end
